-- ==== Sys2Proof/Word.lean ====
section
/-! DEFINITION. The machine's words: 32-bit command, operand, result and sample words (R80, R82), and bytes. -/

namespace Sys2Proof

/-- One 32-bit word of a command or a response (R80). -/
abbrev Word := BitVec 32

/-- One value of the sample type `S`: the 32 bits of its binary32 encoding (R10, R82; log 8). -/
abbrev Sample := BitVec 32

/-- One byte of a serialised word (R65, D28). -/
abbrev Byte := BitVec 8

end Sys2Proof
end

