-- ==== Sys2Proof/Config.lean ====
section
/-! DEFINITION. What is fixed for one block and never changes as it runs: the parameters the spec gives
(R7, R9), and, as opaque constants with no body, every parameter a model takes as an argument (R8; logs 13, 14)
and every function, constant, binding and value it leaves open (R9, R218, R222; logs 9 to 17). -/

namespace Sys2Proof.Config

/-! ### Parameters with a value (R7, R9, R201) -/

/-- `NCH_MAX` (R7): polyphonic channels. -/
abbrev nchMax : Nat := 16
/-- `LANES` (R7): lanes of a vector command. -/
abbrev lanes : Nat := 4
/-- `NLUT` (R9, D5): lookup-table instances. -/
abbrev nlut : Nat := 8
/-- `LUT_LMAX` (R9, D12): largest sample count of a table. -/
abbrev lutLmax : Nat := 65536
/-- `WS_NCURVES` (R9, D5): curves of the WaveShaper catalogue. -/
abbrev wsNcurves : Nat := 16
/-- `WS_LEN` (R7, R201): samples of one curve. -/
abbrev wsLen : Nat := 4096
/-- BiQuad slots of a channel (R20, R36, D5). -/
abbrev bqSlots : Nat := 4
/-- `UNISON_MAX` (R7): unison phases of a channel. -/
abbrev unisonMax : Nat := 7
/-- `CB_KMAX` (R9, D9): a ring has at most `2 ^ cbKmax` cells. -/
abbrev cbKmax : Nat := 20

/-- `WS_MIN` (R7, R201): the binary32 value nearest -1.2. -/
def wsMin : Sample := 0xBF99999A#32
/-- `WS_MAX` (R7, R201): the binary32 value nearest 1.2; no command reads it. -/
def wsMax : Sample := 0x3F99999A#32
/-- `WS_SCALE` (R201): 1706.25, exact. -/
def wsScale : Sample := 0x44D54800#32
/-- `NYQ_GUARD` (R7): the binary32 value nearest 0.95. -/
def nyqGuard : Sample := 0x3F733333#32
/-- `KS_FMIN` (R7): 20 Hz. -/
def ksFmin : Sample := 0x41A00000#32
/-- `KS_FMAX` (R7): 20000 Hz. -/
def ksFmax : Sample := 0x469C4000#32
/-- `CMP_RANGE` (R7): 0.5; no rule reads it (N25). -/
def cmpRange : Sample := 0x3F000000#32
/-- `PI` (R159): the binary32 value nearest pi. -/
def pi : Sample := 0x40490FDB#32
/-- `SQRT2` (R159): the binary32 value nearest the square root of 2. -/
def sqrt2 : Sample := 0x3FB504F3#32

/-- `WS_MASK` (R7, R201, U7): the literal `length - 2` = 4094 (log 13). -/
def wsMask : Nat := 4094

/-! ### Arguments of the model (R8; logs 13, 14), before their constraints, and the document's figures for them -/

/-- `CMP_N` (R8), raw: the clock divider. -/
opaque cmpN : Nat
/-- The document's figure for `CMP_N`: "typically N=4" (R8). -/
def cmpNDefault : Nat := 4
/-- `CMP_TC` (R8), raw. -/
opaque cmpTC : Sample
/-- The document's figure for `CMP_TC`: -1 (R8). -/
def cmpTCDefault : Sample := 0xBF800000#32
/-- `CMP_EPS` (R8), raw. -/
opaque cmpEps : Sample
/-- `RECOMP_TOL` (R8), raw. -/
opaque recompTol : Sample

/-! ### Open values of the number format (DESIGN CHOICE: free; logs 9, 10, 16, 17) -/

/-- The four arithmetic operations of `NUM` (R12). -/
inductive ArithOp where
  | add | sub | mul | div
  deriving DecidableEq, Repr

/-- The two selections of R12. -/
inductive SelectOp where
  | minimum | maximum
  deriving DecidableEq, Repr

/-- The sign and fraction of the NaN an operation gives on these operands: no rule states them (log 9). -/
opaque nanBits : ArithOp → Sample → Sample → Sample
/-- Whether `min` or `max` selects its first operand where neither is the smaller (a NaN, or zeros of two
signs): no rule states it (log 10). -/
opaque selectsFirst : SelectOp → Sample → Sample → Bool
/-- The floor of a value that is not finite, where an instruction that runs needs one (R12: "defined for finite
`a` only"; log 16). -/
opaque floorOpen : Sample → Int
/-- The fractional part of a value that is not finite (log 16). -/
opaque fracOpen : Sample → Sample
/-- The unison phase after an increment that is not finite, before it is kept in `[0,1)` (log 17). -/
opaque phaseOpen : Sample → Sample

/-! ### Open functions and constants (R9, R218, R222; logs 11, 12, 15), before their constraints.
`Machine/Params.lean` keeps each within what R218 and R222 say of it. -/

/-- `EXP` (R181). -/
opaque exp : Sample → Sample
/-- `LOG10` (R181). -/
opaque log10 : Sample → Sample
/-- `POW10` (R181). -/
opaque pow10 : Sample → Sample
/-- `TAN` (R159). -/
opaque tan : Sample → Sample
/-- `KS_F0` (R218), raw. -/
opaque ksF0 : Sample
/-- `KS_GLIDE (prev, target, glide, rate)` (R218), raw. -/
opaque ksGlide : Sample → Sample → Sample → Sample → Sample
/-- `KS_GLIDE0` (R218), raw. -/
opaque ksGlide0 : Sample
/-- `KS_FB_MIN` (R218), raw. -/
opaque ksFbMin : Sample
/-- `KS_FB_MAX` (R218), raw. -/
opaque ksFbMax : Sample
/-- `KS_ST_MIN` (R218), raw. -/
opaque ksStMin : Sample
/-- `KS_ST_MAX` (R218), raw. -/
opaque ksStMax : Sample
/-- `KS_MIX_MIN` (R218), raw. -/
opaque ksMixMin : Sample
/-- `KS_MIX_MAX` (R218), raw. -/
opaque ksMixMax : Sample
/-- `KS_STRETCH (f, st)` (R218), raw. -/
opaque ksStretch : Sample → Sample → Sample
/-- `KS_EXCITE (vIn, u)` (R218), raw. -/
opaque ksExcite : Sample → Sample → Sample
/-- `KS_DCFREQ` (R218), raw. -/
opaque ksDcFreq : Sample
/-- `KS_CMP_ATTACK` (R218), raw. -/
opaque ksCmpAttack : Sample
/-- `KS_CMP_RELEASE` (R218), raw. -/
opaque ksCmpRelease : Sample
/-- `KS_CMP_THRESHOLD` (R218), raw. -/
opaque ksCmpThreshold : Sample
/-- `KS_CMP_RATIO` (R218), raw. -/
opaque ksCmpRatio : Sample
/-- `KS_UTUNE` (R218), raw, where it is a function. -/
opaque ksUtune : Sample → Sample
/-- Whether `KS_UTUNE` is bound to `LUT.EVAL t4` (R218; log 12). -/
opaque ksUtuneBound : Bool
/-- `KS_SPREAD[j]` (R218), raw. -/
opaque ksSpread : Fin unisonMax → Sample
/-- `KS_TAPDELAY (index, phase)` (R218), raw, for a ring of the given length. -/
opaque ksTapDelay : Nat → Sample → Sample → Sample
/-- `KS_CENTRE` (R218), raw. -/
opaque ksCentre : Sample → Sample
/-- `KS_SIDE` (R218), raw. -/
opaque ksSide : Sample → Sample
/-- The bound that `KS_SAT` has (R218: "bounded"), raw. -/
opaque ksSatBound : Sample
/-- `KS_SAT` (R218), raw, where it is a function. -/
opaque ksSat : Sample → Sample
/-- The curve whose `WS.EVAL` `KS_SAT` is bound to, if it is (R218; log 12). -/
opaque ksSatCurve : Option (Fin wsNcurves)
/-- The caller's scaling before that `WS.EVAL` (R206, R218), raw. -/
opaque ksSatIn : Sample → Sample
/-- The caller's scaling after it (R206, R218), raw. -/
opaque ksSatOut : Sample → Sample
/-- The `n`-th value the random source gives (R222), raw. -/
opaque draw : Nat → Sample

end Sys2Proof.Config
end

