-- ==== Sys2Proof/Machine/Float.lean ====
section
/-! DEFINITION. Arithmetic on `S` (R10 to R13, R15): IEEE 754 binary32, round to nearest even, subnormals kept, each
operation rounded once (R9, D2; log 8). A finite value is an integer number of units of `2 ^ -149`, so every
operation computes an exact fraction of that unit and rounds it once. -/

namespace Sys2Proof.Machine.F32

/-- `+0`. -/
abbrev zero : Sample := 0#32
/-- 1.0 (R92). -/
abbrev one : Sample := 0x3F800000#32
/-- 2.0 (R92). -/
abbrev two : Sample := 0x40000000#32
/-- 0.5 (R92). -/
abbrev half : Sample := 0x3F000000#32
/-- 12.0. -/
abbrev twelve : Sample := 0x41400000#32
/-- 20.0. -/
abbrev twenty : Sample := 0x41A00000#32
/-- The magnitude pattern of an infinity. -/
abbrev infMag : Nat := 0x7F800000

/-- The sign bit 31 (R82). -/
def sign (a : Sample) : Bool := a.msb
/-- Exponent and fraction, bits 30..0 (R82). -/
def mag (a : Sample) : Nat := a.toNat % 2 ^ 31
def isNaN (a : Sample) : Bool := decide (infMag < mag a)
def isInf (a : Sample) : Bool := decide (mag a = infMag)
/-- Neither a NaN nor an infinity (R10). -/
def isFinite (a : Sample) : Bool := decide (mag a < infMag)
def isZero (a : Sample) : Bool := decide (mag a = 0)

/-- The value of a finite magnitude pattern in units of `2 ^ -149`. -/
def ulps (m : Nat) : Nat :=
  if m < 2 ^ 23 then m else (2 ^ 23 + m % 2 ^ 23) * 2 ^ (m / 2 ^ 23 - 1)

/-- The value of a finite sample in units of `2 ^ -149`. -/
def toUnits (a : Sample) : Int := if sign a then -(ulps (mag a) : Int) else ulps (mag a)

/-- A sign and a magnitude pattern as a sample. -/
def pack (s : Bool) (m : Nat) : Sample := BitVec.ofNat 32 (if s then 2 ^ 31 + m else m)

/-- `n / d` rounded to the nearest integer, a tie to the even one (D2). -/
def nearestEven (n d : Nat) : Nat :=
  if d < 2 * (n % d) ∨ (2 * (n % d) = d ∧ n / d % 2 = 1) then n / d + 1 else n / d

/-- The magnitude pattern nearest to `n / d` units, a tie to the even pattern; an infinity where it is too large. -/
def roundMag (n d : Nat) : Nat :=
  if 2 ^ 128 * 2 ^ 149 ≤ n / d then infMag
  else
    let e := Nat.log2 (n / d) - 23
    min (e * 2 ^ 23 + nearestEven n (d * 2 ^ e)) infMag

/-- The NaN an operation gives: which one is open (log 9). -/
def nan (op : Config.ArithOp) (a b : Sample) : Sample :=
  let n := Config.nanBits op a b ||| 0x7F800000#32
  if isNaN n then n else n ||| 0x00400000#32

/-- `-a`: the sign reversed. -/
def neg (a : Sample) : Sample := a ^^^ 0x80000000#32

/-- `abs(a)` clears the sign (R12). -/
def abs (a : Sample) : Sample := a &&& 0x7FFFFFFF#32

/-- The sum of two operands, not both infinite with opposite signs, neither a NaN. An exact zero is `-0` only for
two negative zeros. -/
def addNum (a b : Sample) : Sample :=
  if isInf a then a
  else if isInf b then b
  else
    let n := toUnits a + toUnits b
    if n = 0 then pack (sign a && sign b) 0 else pack (decide (n < 0)) (roundMag n.natAbs 1)

/-- `a + b` (R12). -/
def add (a b : Sample) : Sample :=
  if isNaN a || isNaN b || (isInf a && isInf b && (sign a != sign b)) then nan .add a b else addNum a b

/-- `a - b` (R12). -/
def sub (a b : Sample) : Sample :=
  if isNaN a || isNaN b || (isInf a && isInf b && (sign a == sign b)) then nan .sub a b else addNum a (neg b)

/-- `a * b` (R12). -/
def mul (a b : Sample) : Sample :=
  if isNaN a || isNaN b || (isInf a && isZero b) || (isZero a && isInf b) then nan .mul a b
  else
    pack (sign a != sign b)
      (if isInf a || isInf b then infMag else roundMag (ulps (mag a) * ulps (mag b)) (2 ^ 149))

/-- `a / b` (R12). -/
def div (a b : Sample) : Sample :=
  if isNaN a || isNaN b || (isInf a && isInf b) || (isZero a && isZero b) then nan .div a b
  else
    pack (sign a != sign b)
      (if isInf a || isZero b then infMag
       else if isInf b then 0
       else roundMag (ulps (mag a) * 2 ^ 149) (ulps (mag b)))

/-- The order of the values that are not NaN: both zeros at 0. -/
def key (a : Sample) : Int := if sign a then -(mag a : Int) else mag a

/-- `a < b`; false for a NaN. -/
def lt (a b : Sample) : Bool := !isNaN a && !isNaN b && decide (key a < key b)
/-- `a <= b`; false for a NaN. -/
def le (a b : Sample) : Bool := !isNaN a && !isNaN b && decide (key a ≤ key b)
/-- `a = b` as values of `S`; false for a NaN. -/
def eq (a b : Sample) : Bool := !isNaN a && !isNaN b && decide (key a = key b)

/-- `min(a, b)`, an exact selection (R12); open where neither is the smaller (log 10). -/
def min (a b : Sample) : Sample :=
  if lt a b then a
  else if lt b a then b
  else if Config.selectsFirst .minimum a b then a else b

/-- `max(a, b)`, an exact selection (R12); open where neither is the larger (log 10). -/
def max (a b : Sample) : Sample :=
  if lt b a then a
  else if lt a b then b
  else if Config.selectsFirst .maximum a b then a else b

/-- `clamp(a, lo, hi) = min(max(a, lo), hi)` (R12). -/
def clamp (a lo hi : Sample) : Sample := min (max a lo) hi

/-- `floor(a)` (R12); open for a value that is not finite (log 16). -/
def floor (a : Sample) : Int :=
  if isFinite a then toUnits a / (2 ^ 149 : Int) else Config.floorOpen a

/-- `i2s(n)` (R12). -/
def i2s (n : Int) : Sample := pack (decide (n < 0)) (roundMag (n.natAbs * 2 ^ 149) 1)

/-- The exact fraction `n / d`, not negative, rounded once (R12). -/
def ratio (n d : Nat) : Sample := pack false (roundMag (n * 2 ^ 149) d)

/-- `a - i2s(floor(a))` as the pseudocode evaluates it (R12; log 21); open for a value that is not finite (log 16). -/
def fracPart (a : Sample) : Sample :=
  if isFinite a then sub a (i2s (floor a)) else Config.fracOpen a

/-- `lerp(a, b, t) = a + t * (b - a)` (R13). -/
def lerp (a b t : Sample) : Sample := add a (mul t (sub b a))

/-- `sanitize(v)`: a value that is not finite becomes `+0` (R15). -/
def sanitize (v : Sample) : Sample := if isFinite v then v else zero

/-- Finite and `> 0`. -/
def isPositive (a : Sample) : Bool := isFinite a && lt zero a

end Sys2Proof.Machine.F32
end

