-- ==== Sys2Proof/Syntax.lean ====
section
/-! DEFINITION. The commands of the block: one constructor per row of R86 (`opcode_table.json`). A selector is
held in a type of exactly its range (R84); an operand is one whole word (R82). -/

namespace Sys2Proof

/-- A channel `c` (R84). -/
abbrev Channel := Fin Config.nchMax
/-- A lookup table `t` (R84). -/
abbrev TableId := Fin Config.nlut
/-- A WaveShaper curve `k` (R84). -/
abbrev CurveId := Fin Config.wsNcurves
/-- A BiQuad slot `s` (R84). -/
abbrev Slot := Fin Config.bqSlots
/-- A lane group `g` (R45, R84). -/
abbrev LaneGroup := Fin 4

/-- The user-facing parameters `W2 .. W9` of `SYS.STEP`, one set for all channels (R226). -/
structure StepControls where
  octave : Word
  semitone : Word
  feedback : Word
  stretch : Word
  glide : Word
  ucount : Word
  utune : Word
  umix : Word
  deriving DecidableEq, Repr

/-- The two port voltages of one active channel of `SYS.STEP` (R226). -/
structure VoiceIn where
  vPitch : Word
  vIn : Word
  deriving DecidableEq, Repr

/-- The commands (R86). `SYS.STEP` holds one `VoiceIn` per active channel, so `nch` is their number. -/
inductive Instr where
  | sysStatus
  | sysSetRate (rate : Word)
  | sysInit
  | sysStep (controls : StepControls) (voices : List VoiceIn)
  | lutConfig (t : TableId) (minX maxX interval : Word)
  | lutWrite (t : TableId) (index value : Word)
  | lutEval (t : TableId) (x : Word)
  | lutEvalv (t : TableId) (x0 x1 x2 x3 : Word)
  | cbReset (c : Channel) (minSize : Word)
  | cbPush (c : Channel) (value : Word)
  | cbWrat (c : Channel) (offset value : Word)
  | cbAddat (c : Channel) (offset value : Word)
  | cbRdi (c : Channel) (delay : Word)
  | cbRdf (c : Channel) (delay : Word)
  | bqClear (c : Channel) (slot : Slot)
  | bqProc (c : Channel) (slot : Slot) (x : Word)
  | bqSetBwLp2 (c : Channel) (slot : Slot) (fc : Word)
  | bqSetBwHp2 (c : Channel) (slot : Slot) (fc : Word)
  | bqSetLrLp2 (c : Channel) (slot : Slot) (fc : Word)
  | bqSetLrHp2 (c : Channel) (slot : Slot) (fc : Word)
  | bqSetAp1 (c : Channel) (slot : Slot) (fc : Word)
  | bqLoadc (c : Channel) (slot : Slot) (a0 a1 a2 b1 b2 c0 d0 : Word)
  | bqProc4 (c : Channel) (x : Word)
  | bqProcv (g : LaneGroup) (slot : Slot) (x0 x1 x2 x3 : Word)
  | cmpSetTimes (c : Channel) (attack release : Word)
  | cmpSetCurve (c : Channel) (threshold ratio : Word)
  | cmpProc (c : Channel) (x : Word)
  | wsWrite (curve : CurveId) (index value : Word)
  | wsEval (curve : CurveId) (x : Word)
  deriving DecidableEq, Repr

end Sys2Proof
end

