-- ==== Sys2Proof/Machine/Operands.lean ====
section
/-! DEFINITION. The operand forms (R82): every operand is one whole word, read as `f32`, `i32` or `u32`. There is no
other form: nothing is assembled, shifted or scaled. -/

namespace Sys2Proof.Machine

/-- An `f32` operand: the word is the sample's encoding (R82). -/
def f32 (w : Word) : Sample := w

/-- An `i32` operand: `sext_32(W)` (R11, R82). -/
def i32 (w : Word) : Int := w.toInt

/-- A `u32` operand: `zext_32(W)` (R11, R82). -/
def u32 (w : Word) : Nat := w.toNat

/-- An integer result as a `u32` result word (R82, R86). -/
def u32Result (n : Nat) : Word := BitVec.ofNat 32 n

/-- Next power of two, as its logarithm: the least `k` with `n <= 2^k` (R16), so that `npow2(0) = npow2(1) = 1`. -/
def npow2Log (n : Nat) : Nat := if n ≤ 1 then 0 else Nat.log2 (n - 1) + 1

/-- `npow2(n)` (R16). -/
def npow2 (n : Nat) : Nat := 2 ^ npow2Log n

/-- `i & m` for a mask `m < 2^32` and any integer `i`, in two's complement of unbounded width (R11). -/
def maskInt (i : Int) (m : Nat) : Nat := (i % (2 ^ 32 : Int)).toNat &&& m

/-- Every `f32` operand of `SYS.STEP` is finite (R226); `ucount` is a `u32`. -/
def stepOperandsFinite (p : StepControls) (voices : List VoiceIn) : Bool :=
  F32.isFinite (f32 p.octave) && F32.isFinite (f32 p.semitone) && F32.isFinite (f32 p.feedback)
    && F32.isFinite (f32 p.stretch) && F32.isFinite (f32 p.glide) && F32.isFinite (f32 p.utune)
    && F32.isFinite (f32 p.umix)
    && voices.all fun v => F32.isFinite (f32 v.vPitch) && F32.isFinite (f32 v.vIn)

end Sys2Proof.Machine
end

