-- ==== Sys2Proof/WellFormed.lean ====
section
/-! DEFINITION. Which terms of `Instr` stand for a command. Selector ranges are in the types of `Syntax.lean`;
the one thing left to check is the active channel count of `SYS.STEP` (R83, R88). -/

namespace Sys2Proof

/-- `SYS.STEP` has `nch` in `0 .. 16` (R83, R226); every other command is well formed by its types. -/
def Instr.wellFormed : Instr → Bool
  | .sysStatus => true
  | .sysSetRate _ => true
  | .sysInit => true
  | .sysStep _ voices => decide (voices.length ≤ Config.nchMax)
  | .lutConfig _ _ _ _ => true
  | .lutWrite _ _ _ => true
  | .lutEval _ _ => true
  | .lutEvalv _ _ _ _ _ => true
  | .cbReset _ _ => true
  | .cbPush _ _ => true
  | .cbWrat _ _ _ => true
  | .cbAddat _ _ _ => true
  | .cbRdi _ _ => true
  | .cbRdf _ _ => true
  | .bqClear _ _ => true
  | .bqProc _ _ _ => true
  | .bqSetBwLp2 _ _ _ => true
  | .bqSetBwHp2 _ _ _ => true
  | .bqSetLrLp2 _ _ _ => true
  | .bqSetLrHp2 _ _ _ => true
  | .bqSetAp1 _ _ _ => true
  | .bqLoadc _ _ _ _ _ _ _ _ _ => true
  | .bqProc4 _ _ => true
  | .bqProcv _ _ _ _ _ _ => true
  | .cmpSetTimes _ _ _ => true
  | .cmpSetCurve _ _ _ => true
  | .cmpProc _ _ => true
  | .wsWrite _ _ _ => true
  | .wsEval _ _ => true

end Sys2Proof
end

