-- ==== Sys2Proof/Decode.lean ====
section
/-! DEFINITION. Decoding (R81, R83, R84, R86 to R89), encoding, and the byte transport (R65, D28). The decoder is
total on any finite word sequence (R89). -/

namespace Sys2Proof

/-! ### The command word (R81) -/

/-- `OP = W0[31:24]` (R81). -/
def opField (w0 : Word) : Nat := (w0.extractLsb' 24 8).toNat
/-- `SEL = W0[23:16]` (R81). -/
def selField (w0 : Word) : Nat := (w0.extractLsb' 16 8).toNat
/-- `SUB = W0[15:8]` (R81). -/
def subField (w0 : Word) : Nat := (w0.extractLsb' 8 8).toNat
/-- `ZERO = W0[7:0]` (R81). -/
def zeroField (w0 : Word) : Nat := (w0.extractLsb' 0 8).toNat

/-- The command word of the fields `OP`, `SEL`, `SUB` with `ZERO = 0` (R81). -/
def commandWord (op sel sub : Nat) : Word :=
  BitVec.ofNat 8 op ++ BitVec.ofNat 8 sel ++ BitVec.ofNat 8 sub ++ 0#8

/-- The operation a command word selects: one per row of the opcode map (R86). -/
inductive Opcode where
  | sysStatus
  | sysSetRate
  | sysInit
  | sysStep
  | lutConfig
  | lutWrite
  | lutEval
  | lutEvalv
  | cbReset
  | cbPush
  | cbWrat
  | cbAddat
  | cbRdi
  | cbRdf
  | bqClear
  | bqProc
  | bqSetBwLp2
  | bqSetBwHp2
  | bqSetLrLp2
  | bqSetLrHp2
  | bqSetAp1
  | bqLoadc
  | bqProc4
  | bqProcv
  | cmpSetTimes
  | cmpSetCurve
  | cmpProc
  | wsWrite
  | wsEval
  deriving DecidableEq, Repr

/-- The rows of R86 in the table's order. -/
def Opcode.all : List Opcode :=
  [.sysStatus, .sysSetRate, .sysInit, .sysStep, .lutConfig, .lutWrite, .lutEval, .lutEvalv,
   .cbReset, .cbPush, .cbWrat, .cbAddat, .cbRdi, .cbRdf, .bqClear, .bqProc,
   .bqSetBwLp2, .bqSetBwHp2, .bqSetLrLp2, .bqSetLrHp2, .bqSetAp1, .bqLoadc, .bqProc4, .bqProcv,
   .cmpSetTimes, .cmpSetCurve, .cmpProc, .wsWrite, .wsEval]

/-- `OP` of each row (R86). -/
def Opcode.code : Opcode → Nat
  | .sysStatus => 0x00
  | .sysSetRate => 0x01
  | .sysInit => 0x02
  | .sysStep => 0x03
  | .lutConfig => 0x10
  | .lutWrite => 0x11
  | .lutEval => 0x12
  | .lutEvalv => 0x13
  | .cbReset => 0x20
  | .cbPush => 0x21
  | .cbWrat => 0x22
  | .cbAddat => 0x23
  | .cbRdi => 0x24
  | .cbRdf => 0x25
  | .bqClear => 0x40
  | .bqProc => 0x41
  | .bqSetBwLp2 => 0x42
  | .bqSetBwHp2 => 0x43
  | .bqSetLrLp2 => 0x44
  | .bqSetLrHp2 => 0x45
  | .bqSetAp1 => 0x46
  | .bqLoadc => 0x47
  | .bqProc4 => 0x48
  | .bqProcv => 0x49
  | .cmpSetTimes => 0x50
  | .cmpSetCurve => 0x51
  | .cmpProc => 0x52
  | .wsWrite => 0x60
  | .wsEval => 0x61

/-- The `SUB` that a row's match holds (R87): 2 for `BQ.PROC4`, 0 elsewhere. -/
def Opcode.fixedSub : Opcode → Nat
  | .bqProc4 => 2
  | _ => 0

/-- `match = OP << 24` plus the fixed `SUB` (R87). -/
def Opcode.matchWord (o : Opcode) : Word := commandWord o.code 0 o.fixedSub

/-- `mask` (R87): all of `W0` for SYS rows; `SEL` free for LUT, CB, CMP, WS rows and `BQ.PROC4`; `SEL` and `SUB`
free for the other BQ rows. -/
def Opcode.mask : Opcode → Word
  | .sysStatus | .sysSetRate | .sysInit | .sysStep => 0xFFFFFFFF#32
  | .bqClear | .bqProc | .bqSetBwLp2 | .bqSetBwHp2 | .bqSetLrLp2 | .bqSetLrHp2 | .bqSetAp1 | .bqLoadc
  | .bqProcv => 0xFF0000FF#32
  | _ => 0xFF00FFFF#32

/-- The row a command word matches: `W0 & mask = match` (R87). -/
def Opcode.ofWord (w0 : Word) : Option Opcode :=
  Opcode.all.find? fun o => decide (w0 &&& o.mask = o.matchWord)

/-! ### Decoding (R88, R89) -/

/-- What the decoder answers for a word sequence (R89): a command and the words after it, an illegal command
word, or a sequence that ends too soon. -/
inductive Decoded where
  | command (i : Instr) (rest : List Word)
  | illegal (w0 : Word)
  | incomplete
  deriving DecidableEq, Repr

/-- Go on with the channel in `SEL`, `0 .. 15` (R84), or reject the command word (R88). -/
def withChannel (w0 : Word) (go : Channel → Decoded) : Decoded :=
  if h : selField w0 < Config.nchMax then go ⟨selField w0, h⟩ else .illegal w0

/-- Go on with the table in `SEL`, `0 .. 7` (R84), or reject the command word (R88). -/
def withTable (w0 : Word) (go : TableId → Decoded) : Decoded :=
  if h : selField w0 < Config.nlut then go ⟨selField w0, h⟩ else .illegal w0

/-- Go on with the curve in `SEL`, `0 .. 15` (R84), or reject the command word (R88). -/
def withCurve (w0 : Word) (go : CurveId → Decoded) : Decoded :=
  if h : selField w0 < Config.wsNcurves then go ⟨selField w0, h⟩ else .illegal w0

/-- Go on with the lane group in `SEL`, `0 .. 3` (R84), or reject the command word (R88). -/
def withGroup (w0 : Word) (go : LaneGroup → Decoded) : Decoded :=
  if h : selField w0 < 4 then go ⟨selField w0, h⟩ else .illegal w0

/-- Go on with the slot in `SUB`, `0 .. 3` (R84), or reject the command word (R88). -/
def withSlot (w0 : Word) (go : Slot → Decoded) : Decoded :=
  if h : subField w0 < Config.bqSlots then go ⟨subField w0, h⟩ else .illegal w0

/-- The port voltages of `n` channels at the head of a word sequence, and the words after them (R226). -/
def takeVoices : Nat → List Word → Option (List VoiceIn × List Word)
  | 0, ws => some ([], ws)
  | n + 1, p :: v :: ws =>
    match takeVoices n ws with
    | some (vs, rest) => some (⟨p, v⟩ :: vs, rest)
    | none => none
  | _ + 1, _ => none

/-- `SYS.STEP` (R83, R226): `W1 = nch` is read first and must be in `0 .. 16`, whatever words follow it. -/
def decodeStep (w0 : Word) : List Word → Decoded
  | [] => .incomplete
  | nch :: ws =>
    if Config.nchMax < nch.toNat then .illegal w0
    else
      match ws with
      | octave :: semitone :: feedback :: stretch :: glide :: ucount :: utune :: umix :: rest =>
        match takeVoices nch.toNat rest with
        | some (voices, rest') =>
          .command (.sysStep ⟨octave, semitone, feedback, stretch, glide, ucount, utune, umix⟩ voices) rest'
        | none => .incomplete
      | _ => .incomplete

/-- The command of a matched row: selector ranges first (R267), then as many operand words as R86 gives. -/
def decodeRow (o : Opcode) (w0 : Word) (ws : List Word) : Decoded :=
  match o with
  | .sysStatus => .command .sysStatus ws
  | .sysSetRate =>
      match ws with
      | rate :: rest => .command (.sysSetRate rate) rest
      | _ => .incomplete
  | .sysInit => .command .sysInit ws
  | .sysStep => decodeStep w0 ws
  | .lutConfig =>
    withTable w0 fun t =>
      match ws with
      | minX :: maxX :: interval :: rest => .command (.lutConfig t minX maxX interval) rest
      | _ => .incomplete
  | .lutWrite =>
    withTable w0 fun t =>
      match ws with
      | index :: value :: rest => .command (.lutWrite t index value) rest
      | _ => .incomplete
  | .lutEval =>
    withTable w0 fun t =>
      match ws with
      | x :: rest => .command (.lutEval t x) rest
      | _ => .incomplete
  | .lutEvalv =>
    withTable w0 fun t =>
      match ws with
      | x0 :: x1 :: x2 :: x3 :: rest => .command (.lutEvalv t x0 x1 x2 x3) rest
      | _ => .incomplete
  | .cbReset =>
    withChannel w0 fun c =>
      match ws with
      | minSize :: rest => .command (.cbReset c minSize) rest
      | _ => .incomplete
  | .cbPush =>
    withChannel w0 fun c =>
      match ws with
      | value :: rest => .command (.cbPush c value) rest
      | _ => .incomplete
  | .cbWrat =>
    withChannel w0 fun c =>
      match ws with
      | offset :: value :: rest => .command (.cbWrat c offset value) rest
      | _ => .incomplete
  | .cbAddat =>
    withChannel w0 fun c =>
      match ws with
      | offset :: value :: rest => .command (.cbAddat c offset value) rest
      | _ => .incomplete
  | .cbRdi =>
    withChannel w0 fun c =>
      match ws with
      | delay :: rest => .command (.cbRdi c delay) rest
      | _ => .incomplete
  | .cbRdf =>
    withChannel w0 fun c =>
      match ws with
      | delay :: rest => .command (.cbRdf c delay) rest
      | _ => .incomplete
  | .bqClear => withChannel w0 fun c => withSlot w0 fun s => .command (.bqClear c s) ws
  | .bqProc =>
    withChannel w0 fun c => withSlot w0 fun s =>
      match ws with
      | x :: rest => .command (.bqProc c s x) rest
      | _ => .incomplete
  | .bqSetBwLp2 =>
    withChannel w0 fun c => withSlot w0 fun s =>
      match ws with
      | fc :: rest => .command (.bqSetBwLp2 c s fc) rest
      | _ => .incomplete
  | .bqSetBwHp2 =>
    withChannel w0 fun c => withSlot w0 fun s =>
      match ws with
      | fc :: rest => .command (.bqSetBwHp2 c s fc) rest
      | _ => .incomplete
  | .bqSetLrLp2 =>
    withChannel w0 fun c => withSlot w0 fun s =>
      match ws with
      | fc :: rest => .command (.bqSetLrLp2 c s fc) rest
      | _ => .incomplete
  | .bqSetLrHp2 =>
    withChannel w0 fun c => withSlot w0 fun s =>
      match ws with
      | fc :: rest => .command (.bqSetLrHp2 c s fc) rest
      | _ => .incomplete
  | .bqSetAp1 =>
    withChannel w0 fun c => withSlot w0 fun s =>
      match ws with
      | fc :: rest => .command (.bqSetAp1 c s fc) rest
      | _ => .incomplete
  | .bqLoadc =>
    withChannel w0 fun c => withSlot w0 fun s =>
      match ws with
      | a0 :: a1 :: a2 :: b1 :: b2 :: c0 :: d0 :: rest => .command (.bqLoadc c s a0 a1 a2 b1 b2 c0 d0) rest
      | _ => .incomplete
  | .bqProc4 =>
    withChannel w0 fun c =>
      match ws with
      | x :: rest => .command (.bqProc4 c x) rest
      | _ => .incomplete
  | .bqProcv =>
    withGroup w0 fun g => withSlot w0 fun s =>
      match ws with
      | x0 :: x1 :: x2 :: x3 :: rest => .command (.bqProcv g s x0 x1 x2 x3) rest
      | _ => .incomplete
  | .cmpSetTimes =>
    withChannel w0 fun c =>
      match ws with
      | attack :: release :: rest => .command (.cmpSetTimes c attack release) rest
      | _ => .incomplete
  | .cmpSetCurve =>
    withChannel w0 fun c =>
      match ws with
      | threshold :: ratio :: rest => .command (.cmpSetCurve c threshold ratio) rest
      | _ => .incomplete
  | .cmpProc =>
    withChannel w0 fun c =>
      match ws with
      | x :: rest => .command (.cmpProc c x) rest
      | _ => .incomplete
  | .wsWrite =>
    withCurve w0 fun k =>
      match ws with
      | index :: value :: rest => .command (.wsWrite k index value) rest
      | _ => .incomplete
  | .wsEval =>
    withCurve w0 fun k =>
      match ws with
      | x :: rest => .command (.wsEval k x) rest
      | _ => .incomplete

/-- The decoder (R89). An empty sequence is incomplete. -/
def decode : List Word → Decoded
  | [] => .incomplete
  | w0 :: ws =>
    match Opcode.ofWord w0 with
    | some o => decodeRow o w0 ws
    | none => .illegal w0

/-! ### Encoding (R81, R84, R86, R226) -/

/-- The row of a command. -/
def Instr.opcode : Instr → Opcode
  | .sysStatus => .sysStatus
  | .sysSetRate _ => .sysSetRate
  | .sysInit => .sysInit
  | .sysStep _ _ => .sysStep
  | .lutConfig _ _ _ _ => .lutConfig
  | .lutWrite _ _ _ => .lutWrite
  | .lutEval _ _ => .lutEval
  | .lutEvalv _ _ _ _ _ => .lutEvalv
  | .cbReset _ _ => .cbReset
  | .cbPush _ _ => .cbPush
  | .cbWrat _ _ _ => .cbWrat
  | .cbAddat _ _ _ => .cbAddat
  | .cbRdi _ _ => .cbRdi
  | .cbRdf _ _ => .cbRdf
  | .bqClear _ _ => .bqClear
  | .bqProc _ _ _ => .bqProc
  | .bqSetBwLp2 _ _ _ => .bqSetBwLp2
  | .bqSetBwHp2 _ _ _ => .bqSetBwHp2
  | .bqSetLrLp2 _ _ _ => .bqSetLrLp2
  | .bqSetLrHp2 _ _ _ => .bqSetLrHp2
  | .bqSetAp1 _ _ _ => .bqSetAp1
  | .bqLoadc _ _ _ _ _ _ _ _ _ => .bqLoadc
  | .bqProc4 _ _ => .bqProc4
  | .bqProcv _ _ _ _ _ _ => .bqProcv
  | .cmpSetTimes _ _ _ => .cmpSetTimes
  | .cmpSetCurve _ _ _ => .cmpSetCurve
  | .cmpProc _ _ => .cmpProc
  | .wsWrite _ _ _ => .wsWrite
  | .wsEval _ _ => .wsEval

/-- `SEL` of a command (R84). -/
def Instr.sel : Instr → Nat
  | .sysStatus => 0
  | .sysSetRate _ => 0
  | .sysInit => 0
  | .sysStep _ _ => 0
  | .lutConfig t _ _ _ => t.val
  | .lutWrite t _ _ => t.val
  | .lutEval t _ => t.val
  | .lutEvalv t _ _ _ _ => t.val
  | .cbReset c _ => c.val
  | .cbPush c _ => c.val
  | .cbWrat c _ _ => c.val
  | .cbAddat c _ _ => c.val
  | .cbRdi c _ => c.val
  | .cbRdf c _ => c.val
  | .bqClear c _ => c.val
  | .bqProc c _ _ => c.val
  | .bqSetBwLp2 c _ _ => c.val
  | .bqSetBwHp2 c _ _ => c.val
  | .bqSetLrLp2 c _ _ => c.val
  | .bqSetLrHp2 c _ _ => c.val
  | .bqSetAp1 c _ _ => c.val
  | .bqLoadc c _ _ _ _ _ _ _ _ => c.val
  | .bqProc4 c _ => c.val
  | .bqProcv g _ _ _ _ _ => g.val
  | .cmpSetTimes c _ _ => c.val
  | .cmpSetCurve c _ _ => c.val
  | .cmpProc c _ => c.val
  | .wsWrite k _ _ => k.val
  | .wsEval k _ => k.val

/-- `SUB` of a command (R84). -/
def Instr.sub : Instr → Nat
  | .sysStatus => 0
  | .sysSetRate _ => 0
  | .sysInit => 0
  | .sysStep _ _ => 0
  | .lutConfig _ _ _ _ => 0
  | .lutWrite _ _ _ => 0
  | .lutEval _ _ => 0
  | .lutEvalv _ _ _ _ _ => 0
  | .cbReset _ _ => 0
  | .cbPush _ _ => 0
  | .cbWrat _ _ _ => 0
  | .cbAddat _ _ _ => 0
  | .cbRdi _ _ => 0
  | .cbRdf _ _ => 0
  | .bqClear _ s => s.val
  | .bqProc _ s _ => s.val
  | .bqSetBwLp2 _ s _ => s.val
  | .bqSetBwHp2 _ s _ => s.val
  | .bqSetLrLp2 _ s _ => s.val
  | .bqSetLrHp2 _ s _ => s.val
  | .bqSetAp1 _ s _ => s.val
  | .bqLoadc _ s _ _ _ _ _ _ _ => s.val
  | .bqProc4 _ _ => 2
  | .bqProcv _ s _ _ _ _ => s.val
  | .cmpSetTimes _ _ _ => 0
  | .cmpSetCurve _ _ _ => 0
  | .cmpProc _ _ => 0
  | .wsWrite _ _ _ => 0
  | .wsEval _ _ => 0

/-- The operand words of `SYS.STEP` from `vPitch[0]` on (R226). -/
def voiceWords : List VoiceIn → List Word
  | [] => []
  | v :: vs => v.vPitch :: v.vIn :: voiceWords vs

/-- The operand words `W1 ..` of a command in the order of R86. -/
def Instr.operands : Instr → List Word
  | .sysStatus => []
  | .sysSetRate rate => [rate]
  | .sysInit => []
  | .sysStep p voices =>
    BitVec.ofNat 32 voices.length :: p.octave :: p.semitone :: p.feedback :: p.stretch :: p.glide :: p.ucount
      :: p.utune :: p.umix :: voiceWords voices
  | .lutConfig _ minX maxX interval => [minX, maxX, interval]
  | .lutWrite _ index value => [index, value]
  | .lutEval _ x => [x]
  | .lutEvalv _ x0 x1 x2 x3 => [x0, x1, x2, x3]
  | .cbReset _ minSize => [minSize]
  | .cbPush _ value => [value]
  | .cbWrat _ offset value => [offset, value]
  | .cbAddat _ offset value => [offset, value]
  | .cbRdi _ delay => [delay]
  | .cbRdf _ delay => [delay]
  | .bqClear _ _ => []
  | .bqProc _ _ x => [x]
  | .bqSetBwLp2 _ _ fc => [fc]
  | .bqSetBwHp2 _ _ fc => [fc]
  | .bqSetLrLp2 _ _ fc => [fc]
  | .bqSetLrHp2 _ _ fc => [fc]
  | .bqSetAp1 _ _ fc => [fc]
  | .bqLoadc _ _ a0 a1 a2 b1 b2 c0 d0 => [a0, a1, a2, b1, b2, c0, d0]
  | .bqProc4 _ x => [x]
  | .bqProcv _ _ x0 x1 x2 x3 => [x0, x1, x2, x3]
  | .cmpSetTimes _ attack release => [attack, release]
  | .cmpSetCurve _ threshold ratio => [threshold, ratio]
  | .cmpProc _ x => [x]
  | .wsWrite _ index value => [index, value]
  | .wsEval _ x => [x]

/-- The words `W0 .. Wn` of a command (R80, R81). -/
def encode (i : Instr) : List Word :=
  commandWord i.opcode.code i.sel i.sub :: i.operands

/-! ### The byte transport (R65, D28; log 30) -/

/-- The bytes of one word, least significant first (D28). -/
def wordBytes (w : Word) : List Byte :=
  [w.extractLsb' 0 8, w.extractLsb' 8 8, w.extractLsb' 16 8, w.extractLsb' 24 8]

/-- A word sequence as bytes, the first word first (D28). -/
def bytesOfWords : List Word → List Byte
  | [] => []
  | w :: ws => wordBytes w ++ bytesOfWords ws

/-- The words a byte stream carries; bytes short of a whole word make none. -/
def wordsOfBytes : List Byte → List Word
  | b0 :: b1 :: b2 :: b3 :: bs => (b3 ++ b2 ++ b1 ++ b0) :: wordsOfBytes bs
  | _ => []

/-- The words of the longest command: `10 + 2 * 16` (R83). -/
def longestCommand : Nat := 42

/-- The first `n` bytes of a number, bits 7..0 first. -/
def bytesOfNat : Nat → Nat → List Byte
  | 0, _ => []
  | n + 1, w => BitVec.ofNat 8 w :: bytesOfNat n (w / 256)

/-- The word sequence whose bits, numbered from bit 0 of `W0`, are the low `nbits` bits of `w`, every later bit
up to the longest command being 0, as the byte transport carries it. -/
def tableWords (nbits w : Nat) : List Word :=
  wordsOfBytes (bytesOfNat (4 * longestCommand) (w % 2 ^ nbits))

/-- The instruction the decoder reads from a row's word. -/
def decodeTableWord (nbits w : Nat) : Option Instr :=
  match decode (tableWords nbits w) with
  | .command i _ => some i
  | .illegal _ => none
  | .incomplete => none

end Sys2Proof
end

