-- ==== Sys2Proof/Machine/State.lean ====
section
/-! DEFINITION. The state of the block (R20 to R46), its value at hardware reset (R285, R286), and the reasons a
step can stop. Every register holds a plain value; where the spec says that a field "holds no value" until a
command writes it (R285), a `held` bit beside it says whether one has (logs 5, 6). -/

namespace Sys2Proof.Machine

/-- A sample memory (R60): the cells that do not read as the memory's unlisted cells do, as (index, sample) pairs
in strictly rising index order (log 7). A cell is one whole sample (R65). -/
abbrev Mem := List (Nat × Sample)

/-- The sticky fault record `SYS.fault` (R23, R262). -/
structure FaultRecord where
  code : Word
  info : Word
  deriving DecidableEq, Repr

/-- The system registers (R23). -/
structure System where
  sampleRate : Sample
  rateSet : Bool
  inited : Bool
  nch : Nat
  fault : FaultRecord
  deriving DecidableEq, Repr

/-- One lookup table `LUT[t]` with its memory `TAB[t]` (R26, R60). -/
structure Lut where
  valid : Bool
  minX : Sample
  maxX : Sample
  interval : Sample
  length : Nat
  samples : Mem
  deriving DecidableEq, Repr

/-- One CircularBuffer `CB[c]` with its memory `BUF[c]` (R31, R60). `length` and `wrapMask` are derived from `k`
(R31; log 24). -/
structure Ring where
  alloc : Bool
  k : Nat
  writeIndex : Nat
  buffer : Mem
  deriving DecidableEq, Repr

/-- The design ids of the `BQ.SET*` commands (R35, R160 to R164). -/
inductive Design where
  | bwlp2 | bwhp2 | lrlp2 | lrhp2 | ap1
  deriving DecidableEq, Repr

/-- One BiQuad section `BQ[c][s]` (R35). `coefHeld`: the seven coefficients hold values; `memHeld`: the four memory
cells do (R285; log 6). -/
structure Biquad where
  a0 : Sample
  a1 : Sample
  a2 : Sample
  b1 : Sample
  b2 : Sample
  c0 : Sample
  d0 : Sample
  coefHeld : Bool
  xz1 : Sample
  xz2 : Sample
  yz1 : Sample
  yz2 : Sample
  memHeld : Bool
  kind : Option Design
  lastFc : Sample
  lastRate : Sample
  deriving DecidableEq, Repr

/-- One compressor `CMP[c]` (R39); `gain` is the spec's `G`. `timesHeld`: the two times and their coefficients hold
values; `curveHeld`: `threshold` and `ratio` do; `envHeld`: the envelope, `G` and `divCount` do (R285; log 6). -/
structure Compressor where
  attackCoeff : Sample
  releaseCoeff : Sample
  attackTime : Sample
  releaseTime : Sample
  timesHeld : Bool
  sampleRate : Sample
  threshold : Sample
  ratio : Sample
  curveHeld : Bool
  lastEnv : Sample
  currentEnv : Sample
  gain : Sample
  divCount : Nat
  envHeld : Bool
  deriving DecidableEq, Repr

/-- One voice record `KS[c]` (R44). -/
structure Voice where
  phase : Vector Sample Config.unisonMax
  lastWet : Sample
  lastOut : Sample
  targetFreq : Sample
  glide : Sample
  deriving DecidableEq, Repr

/-- What the host does to the block: it issues one command as a word sequence (R17, R80), or resets the block
(R285: "an event outside the command stream"). -/
inductive HostEvent where
  | command (words : List Word)
  | hardwareReset
  deriving DecidableEq, Repr

/-- The whole state (R20). The last three fields are the model's own: `draws` counts the values taken from the
random source (R222; log 15), `pending` holds the host's events not yet taken, first one first (log 1), and
`response` the words `ST, R1, ..` of the last answer (R80; log 2). -/
structure State where
  sys : System
  lut : Vector Lut Config.nlut
  ws : Vector Mem Config.wsNcurves
  cb : Vector Ring Config.nchMax
  bq : Vector (Vector Biquad Config.bqSlots) Config.nchMax
  cmp : Vector Compressor Config.nchMax
  ks : Vector Voice Config.nchMax
  draws : Nat
  pending : List HostEvent
  response : List Word
  deriving DecidableEq, Repr

/-- A lookup table after hardware reset: not valid (R285). -/
def Lut.reset : Lut := ⟨false, 0#32, 0#32, 0#32, 0, []⟩

/-- A CircularBuffer after hardware reset: not allocated (R285). -/
def Ring.reset : Ring := ⟨false, 0, 0, []⟩

/-- A BiQuad section after hardware reset: no field holds a value (R285). -/
def Biquad.reset : Biquad :=
  ⟨0#32, 0#32, 0#32, 0#32, 0#32, 0#32, 0#32, false, 0#32, 0#32, 0#32, 0#32, false, none, 0#32, 0#32⟩

/-- A compressor after hardware reset: no field holds a value (R285). -/
def Compressor.reset : Compressor :=
  ⟨0#32, 0#32, 0#32, 0#32, false, 0#32, 0#32, 0#32, false, 0#32, 0#32, 0#32, 0, false⟩

/-- A voice record after hardware reset: no field holds a value (R285). -/
def Voice.reset : Voice := ⟨Vector.replicate Config.unisonMax 0#32, 0#32, 0#32, 0#32, 0#32⟩

/-- The system registers after hardware reset (R285). -/
def System.reset : System := ⟨0#32, false, false, 0, ⟨0#32, 0#32⟩⟩

/-- The block right after hardware reset (R285, R286), no command issued yet (R287). -/
def State.reset : State where
  sys := System.reset
  lut := Vector.replicate Config.nlut Lut.reset
  ws := Vector.replicate Config.wsNcurves []
  cb := Vector.replicate Config.nchMax Ring.reset
  bq := Vector.replicate Config.nchMax (Vector.replicate Config.bqSlots Biquad.reset)
  cmp := Vector.replicate Config.nchMax Compressor.reset
  ks := Vector.replicate Config.nchMax Voice.reset
  draws := 0
  pending := []
  response := []

/-- Why the machine stops with a fault. The faults of R261 are not among them: the spec describes their entry, so
`raise` takes them as next states (R262). -/
inductive Fault where
  /-- Raised by `LUT.EVAL`, `LUT.EVALV` and `SYS.STEP` on a table access outside `0 .. length-1`, where no cell
  exists (R61, R62). It happens only in a state no run reaches, a valid table with `length < 2` (log 22). Safe. -/
  | noSuchCell
  deriving DecidableEq, Repr

/-- Why a step is refused: the cases that the spec puts outside every rule and says a model refuses (R266,
`93_implementation_defined.md` U1 to U9). Each is safe: nothing is claimed of what the hardware does there. -/
inductive Refusal where
  /-- Raised by `exec` alone, for an instruction without a meaning; safe. No arm answers it. -/
  | notModelled (mnemonic : String)
  /-- Raised by every `CB.*` but `CB.RESET`, and by `SYS.STEP`, on a ring with `alloc = false` (R121, U1); safe. -/
  | notAllocated
  /-- Raised by `BQ.PROC`, `BQ.PROC4`, `BQ.PROCV`, `CMP.PROC` and `SYS.STEP` when a field they read holds no value
  (R152, R186; D27: "reading one is refused"; R285, U1: "a model refuses it"); safe. -/
  | noValue
  /-- Raised by `WS.EVAL` on a curve not fully written, and by `SYS.STEP` with an active channel where `KS_SAT` is bound
  to one (R203, R233 preconditions, U1); safe. -/
  | curveNotLoaded
  /-- Raised by `CB.RDF` and `SYS.STEP` for a delay that is negative, a NaN or infinite (R134 (vi), U2); safe. -/
  | delayOutsideDomain
  /-- Raised by `LUT.EVAL`, `LUT.EVALV`, `WS.EVAL` and `SYS.STEP` for an abscissa that is a NaN or infinite (R106 (iv),
  R203 (iii), D15); safe. -/
  | abscissaNotFinite
  /-- Raised by the five `BQ.SET*` for a cutoff that is not finite or not positive (R158, U5); safe. -/
  | cutoffOutsideDomain
  /-- Raised by `CMP.SETTIMES` for a time that is not finite or not positive (R184, U6); safe. -/
  | timeOutsideDomain
  /-- Raised by `CMP.SETCURVE` for a threshold that is not finite or a ratio that is not finite or not positive (R185,
  U6); safe. -/
  | curveOutsideDomain
  /-- Raised by `SYS.SETRATE` for a rate that is not finite or not positive (R228, U8); safe. -/
  | rateOutsideDomain
  /-- Raised by `SYS.INIT`, the five `BQ.SET*` and `CMP.SETTIMES` before any `SYS.SETRATE` (R158, R184, R230, U8); safe. -/
  | rateNotSet
  /-- Raised by `SYS.STEP` before `SYS.INIT` (R233, U8); safe. -/
  | notInitialised
  /-- Raised by `SYS.STEP` for an operand that is a NaN or infinite (R226, U9); safe. -/
  | operandNotFinite
  /-- Raised by `SYS.STEP` with an active channel while `LUT[1]` (POW2) is not valid (R233 precondition, U1); safe. -/
  | pow2NotLoaded
  /-- Raised by `SYS.STEP` with an active channel while `KS_UTUNE` is bound to `LUT[4]` (UNISON_SPREAD) and that table is
  not valid (R218, R233 precondition, U1); safe. -/
  | spreadNotLoaded
  deriving DecidableEq, Repr

end Sys2Proof.Machine
end

