-- ==== Sys2Proof/Machine/Ops.lean ====
section
/-! DEFINITION. The named operations over the sample memories and the unit instances, the answer of a command (R80),
and `raise`, the one entry of a fault (R262). There is no return from a fault (R269); only the host's hardware reset
leaves the halted state (R285). -/

namespace Sys2Proof.Machine

/-- The outcome of a part of a command. -/
abbrev Answer (α : Type) := Host.Outcome α Fault Refusal

/-- Run `f` on what `x` gives; a fault or a refusal of `x` stops the whole command. -/
def andThen {α β : Type} (x : Answer α) (f : α → Answer β) : Answer β :=
  match x with
  | .next a => f a
  | .fault r => .fault r
  | .refused r => .refused r

/-- Run `x` if `ok` holds, else refuse. -/
def require {α : Type} (ok : Bool) (r : Refusal) (x : Answer α) : Answer α :=
  if ok then x else .refused r

/-! ### Sample memories (R60, R61; log 7) -/

/-- The three kinds of sample memory (R60). -/
inductive Space where
  | ring | table | curve
  deriving DecidableEq, Repr

/-- What a cell that a memory does not list reads as: 0 in a ring and a table, which `CB.RESET`, `SYS.INIT` and
`LUT.CONFIG` fill with 0 (R102, R124, R230); no value in a curve (R285). -/
def Space.unlisted : Space → Option Sample
  | .ring => some F32.zero
  | .table => some F32.zero
  | .curve => none

/-- The listed value of a cell. -/
def Mem.find : Mem → Nat → Option Sample
  | [], _ => none
  | (j, v) :: m, i => if j = i then some v else Mem.find m i

/-- The memory without an entry for cell `i`. -/
def Mem.erase : Mem → Nat → Mem
  | [], _ => []
  | (j, v) :: m, i => if j = i then Mem.erase m i else (j, v) :: Mem.erase m i

/-- The memory with cell `i` listed as `v`, in index order. -/
def Mem.insert : Mem → Nat → Sample → Mem
  | [], i, v => [(i, v)]
  | (j, w) :: m, i, v =>
    if i < j then (i, v) :: (j, w) :: m
    else if i = j then (i, v) :: m
    else (j, w) :: Mem.insert m i v

/-- `MemRead` (R14, R61). -/
def Mem.read (sp : Space) (m : Mem) (i : Nat) : Option Sample :=
  match Mem.find m i with
  | some v => some v
  | none => sp.unlisted

/-- `MemWrite` (R14, R61): a value that an unlisted cell reads as is not listed. -/
def Mem.write (sp : Space) (m : Mem) (i : Nat) (v : Sample) : Mem :=
  if sp.unlisted = some v then Mem.erase m i else Mem.insert m i v

/-- Every listed index is above `i`, and the list rises strictly. -/
def Mem.risingFrom : Nat → Mem → Bool
  | _, [] => true
  | i, (j, _) :: m => decide (i ≤ j) && Mem.risingFrom (j + 1) m

/-- The canonical form of a memory (log 7): indices strictly rising, no entry equal to what an unlisted cell reads as. -/
def Mem.wf (sp : Space) (m : Mem) : Bool :=
  Mem.risingFrom 0 m && m.all fun e => decide (sp.unlisted ≠ some e.2)

/-- Every listed index is below `n` (R61). -/
def Mem.below (n : Nat) (m : Mem) : Bool := m.all fun e => decide (e.1 < n)

/-- Every listed cell is finite (R32 (iii)). -/
def Mem.allFinite (m : Mem) : Bool := m.all fun e => F32.isFinite e.2

/-! ### Rings (R31, R63, R122) -/

/-- `length = 2^k` (R31, R32 (i)). -/
def Ring.length (r : Ring) : Nat := 2 ^ r.k

/-- `wrapMask = length - 1` (R31, R32 (i)). -/
def Ring.wrapMask (r : Ring) : Nat := r.length - 1

/-- `cell(d) = (writeIndex - d) & wrapMask`, that is `mod 2^k`, for every integer `d` (R11, R63, R122). -/
def Ring.cell (r : Ring) (d : Int) : Nat := (((r.writeIndex : Int) - d) % (r.length : Int)).toNat

/-- The sample at physical index `i`. -/
def Ring.cellAt (r : Ring) (i : Nat) : Sample := (Mem.read .ring r.buffer i).getD F32.zero

/-- The sample at offset `d` from the head (R132). -/
def Ring.readAt (r : Ring) (d : Int) : Sample := r.cellAt (r.cell d)

/-- Store `sanitize(v)` at physical index `i` (R15: "on every write"). -/
def Ring.store (r : Ring) (i : Nat) (v : Sample) : Ring :=
  { r with buffer := Mem.write .ring r.buffer i (F32.sanitize v) }

/-! ### Instances (R20) -/

def State.setLut (s : State) (t : TableId) (x : Lut) : State := { s with lut := s.lut.set t x }
def State.setWs (s : State) (k : CurveId) (x : Mem) : State := { s with ws := s.ws.set k x }
def State.setCb (s : State) (c : Channel) (x : Ring) : State := { s with cb := s.cb.set c x }
def State.getBq (s : State) (c : Channel) (j : Slot) : Biquad := s.bq[c][j]
def State.setBq (s : State) (c : Channel) (j : Slot) (x : Biquad) : State :=
  { s with bq := s.bq.set c (s.bq[c].set j x) }
def State.setCmp (s : State) (c : Channel) (x : Compressor) : State := { s with cmp := s.cmp.set c x }
def State.setKs (s : State) (c : Channel) (x : Voice) : State := { s with ks := s.ks.set c x }
def State.setPending (s : State) (es : List HostEvent) : State := { s with pending := es }
def State.respond (s : State) (ws : List Word) : State := { s with response := ws }
def State.latch (s : State) (code info : Word) : State :=
  { s with sys := { s.sys with fault := ⟨code, info⟩ } }

/-! ### Answers and faults (R80, R261, R262) -/

/-- The command completed: `ST = 0` and its result words (R80). -/
def answer (s : State) (results : List Word) : Answer State := .next (s.respond (0#32 :: results))

/-- The faults of R261 with what each records. -/
inductive Cause where
  | illegalCommand (w0 : Word)
  | lutHeader
  | lutEmpty
  | lutIndex
  | cbSize
  | wsIndex
  | bounds (t : TableId) (lane : Nat)
  deriving DecidableEq, Repr

/-- The code of a fault: 1 `IllegalCommand`, 2 `ConfigFault`, 3 `BoundsFault` (R261). -/
def Cause.code : Cause → Word
  | .illegalCommand _ => 1#32
  | .lutHeader | .lutEmpty | .lutIndex | .cbSize | .wsIndex => 2#32
  | .bounds _ _ => 3#32

/-- What a fault records: `W0`, the sub-code, or `(t << 8) + j` (R261). -/
def Cause.info : Cause → Word
  | .illegalCommand w0 => w0
  | .lutHeader => 1#32
  | .lutEmpty => 2#32
  | .lutIndex => 3#32
  | .cbSize => 4#32
  | .wsIndex => 5#32
  | .bounds t lane => BitVec.ofNat 32 (t.val * 256 + lane)

/-- `raise F(info)` (R262): the sticky record is written, `ST` is the fault's code, there are no result words, and
nothing else changes. -/
def raise (f : Cause) (s : State) : Answer State := .next ((s.latch f.code f.info).respond [f.code])

/-- Hardware reset (R285), an event of the host: everything as `State.reset`, but for the host's later events and
the random source, which the reset does not touch (logs 15, 20). -/
def hardwareReset (s : State) : State := { State.reset with draws := s.draws, pending := s.pending }

end Sys2Proof.Machine
end

