-- ==== Sys2Proof/Machine/Params.lean ====
section
/-! DEFINITION. The configuration the meanings take (R8, R9, R218, R222): a record, so that a reader or a test can
put a binding of its own in the place of the block's, and `params`, the block's own. Each open function or constant
is the opaque one of `Config` moved into what the spec says of it: where the opaque value breaks the constraint, a
value that keeps it stands in its place, so `params` ranges over every value the constraint allows (logs 12 to 15). -/

namespace Sys2Proof.Machine

/-- The arguments, open functions and constants of the model (R8, R9, R218, R222). `ksUtuneBound` and `ksSatCurve` say
whether `KS_UTUNE` is bound to `LUT.EVAL t4` and `KS_SAT` to the `WS.EVAL` of a curve, with the caller's scaling
`ksSatIn` before it and `ksSatOut` after it; `ksUtune` and `ksSat` are those functions where they are not (R218). -/
structure Params where
  exp : Sample → Sample
  log10 : Sample → Sample
  pow10 : Sample → Sample
  tan : Sample → Sample
  cmpN : Nat
  cmpTC : Sample
  cmpEps : Sample
  recompTol : Sample
  ksF0 : Sample
  ksGlide : Sample → Sample → Sample → Sample → Sample
  ksGlide0 : Sample
  ksFbMin : Sample
  ksFbMax : Sample
  ksStMin : Sample
  ksStMax : Sample
  ksMixMin : Sample
  ksMixMax : Sample
  ksStretch : Sample → Sample → Sample
  ksExcite : Sample → Sample → Sample
  ksDcFreq : Sample
  ksCmpAttack : Sample
  ksCmpRelease : Sample
  ksCmpThreshold : Sample
  ksCmpRatio : Sample
  ksUtune : Sample → Sample
  ksUtuneBound : Bool
  ksSpread : Fin Config.unisonMax → Sample
  ksTapDelay : Nat → Sample → Sample → Sample
  ksCentre : Sample → Sample
  ksSide : Sample → Sample
  ksSat : Sample → Sample
  ksSatCurve : Option (Fin Config.wsNcurves)
  ksSatIn : Sample → Sample
  ksSatOut : Sample → Sample
  draw : Nat → Sample

/-- `v` if it is in `[lo, hi]`, else `d`. -/
def keepWithin (lo hi v d : Sample) : Sample := if F32.isFinite v && F32.le lo v && F32.le v hi then v else d

/-- `v` if finite, else `+0`. -/
def keepFinite (v : Sample) : Sample := if F32.isFinite v then v else F32.zero

/-- `v` if finite and `> 0`, else 1. -/
def keepPositive (v : Sample) : Sample := if F32.isPositive v then v else F32.one

/-- `v` if finite and `>= 0`, else `+0`. -/
def keepNonNegative (v : Sample) : Sample := if F32.isFinite v && F32.le F32.zero v then v else F32.zero

/-- `v` if finite and not below `lo`, else `lo`. -/
def keepAtLeast (lo v : Sample) : Sample := if F32.isFinite v && F32.le lo v then v else lo

/-- `n` if it is a count of one or more, else the document's `CMP_N` (R8: "every Nth sample"). -/
def keepCount (n : Nat) : Nat := if 0 < n then n else Config.cmpNDefault

/-- `KS_GLIDE` (R218): between `prev` and `target` inclusive where both are finite. -/
def glideWithin (prev target v : Sample) : Sample :=
  if F32.isFinite prev && F32.isFinite target then
    if F32.le prev target then keepWithin prev target v target else keepWithin target prev v target
  else v

/-- `KS_STRETCH` (R218): `>= 1`, and 1 where `st = 0`. Its monotony is not imposed (log 12). -/
def stretchWithin (st v : Sample) : Sample :=
  if F32.isZero st then F32.one else if F32.le F32.one v then v else F32.one

/-- A function of one argument is "finite for finite argument" (R218). -/
def finiteOn (x v : Sample) : Sample := if F32.isFinite x then keepFinite v else v

/-- `0 <= u < 1`. -/
def inUnit (u : Sample) : Bool := F32.isFinite u && F32.le F32.zero u && F32.lt u F32.one

/-- `v` if in `[0, 1)`, else `+0` (R222). -/
def keepUnit (v : Sample) : Sample := if inUnit v then v else F32.zero

/-- The block's configuration. -/
def params : Params where
  exp := Config.exp
  log10 := Config.log10
  pow10 := Config.pow10
  tan := Config.tan
  cmpN := keepCount Config.cmpN
  cmpTC := keepFinite Config.cmpTC
  cmpEps := keepPositive Config.cmpEps
  recompTol := keepNonNegative Config.recompTol
  ksF0 := keepPositive Config.ksF0
  ksGlide := fun prev target glide rate => glideWithin prev target (Config.ksGlide prev target glide rate)
  ksGlide0 := keepWithin Config.ksFmin Config.ksFmax Config.ksGlide0 Config.ksFmin
  ksFbMin := keepFinite Config.ksFbMin
  ksFbMax := keepAtLeast (keepFinite Config.ksFbMin) Config.ksFbMax
  ksStMin := keepNonNegative Config.ksStMin
  ksStMax := keepAtLeast (keepNonNegative Config.ksStMin) Config.ksStMax
  ksMixMin := keepFinite Config.ksMixMin
  ksMixMax := keepAtLeast (keepFinite Config.ksMixMin) Config.ksMixMax
  ksStretch := fun f st => stretchWithin st (Config.ksStretch f st)
  ksExcite := fun vIn u =>
    if F32.isFinite vIn && inUnit u then keepFinite (Config.ksExcite vIn u) else Config.ksExcite vIn u
  ksDcFreq := keepPositive Config.ksDcFreq
  ksCmpAttack := keepPositive Config.ksCmpAttack
  ksCmpRelease := keepPositive Config.ksCmpRelease
  ksCmpThreshold := keepFinite Config.ksCmpThreshold
  ksCmpRatio := keepPositive Config.ksCmpRatio
  ksUtune := fun u => finiteOn u (Config.ksUtune u)
  ksUtuneBound := Config.ksUtuneBound
  ksSpread := fun j => keepFinite (Config.ksSpread j)
  ksTapDelay := fun length index phase =>
    keepWithin F32.zero (F32.i2s ((length : Int) - 2)) (Config.ksTapDelay length index phase) F32.zero
  ksCentre := fun um => finiteOn um (Config.ksCentre um)
  ksSide := fun um => finiteOn um (Config.ksSide um)
  ksSat := fun o =>
    if F32.isFinite o then
      keepWithin (F32.neg (keepNonNegative Config.ksSatBound)) (keepNonNegative Config.ksSatBound)
        (Config.ksSat o) F32.zero
    else Config.ksSat o
  ksSatCurve := Config.ksSatCurve
  ksSatIn := fun o => finiteOn o (Config.ksSatIn o)
  ksSatOut := fun y => finiteOn y (Config.ksSatOut y)
  draw := fun n => keepUnit (Config.draw n)

end Sys2Proof.Machine
end

