-- ==== Sys2Proof/Machine/Bq.lean ====
section
/-! DEFINITION. The BiQuad commands (R150 to R172). -/

namespace Sys2Proof.Machine

/-- The operations and constants the BiQuad rules are written with (R12). On binary32 they are the block's; on the real
numbers they give the "ideal values" that R160 to R172 speak of. -/
structure Arith (S : Type) where
  zero : S
  one : S
  two : S
  add : S → S → S
  sub : S → S → S
  mul : S → S → S
  div : S → S → S

/-- With the numerics function and the constants of a design (R159). -/
structure Numerics (S : Type) extends Arith S where
  pi : S
  sqrt2 : S
  tan : S → S

/-- The block's arithmetic: binary32, each operation rounded once (R12). -/
def F32.arith : Arith Sample := ⟨F32.zero, F32.one, F32.two, F32.add, F32.sub, F32.mul, F32.div⟩

/-- The block's numerics (R159; logs 11 and 23). -/
def numerics (p : Params) : Numerics Sample :=
  { F32.arith with pi := Config.pi, sqrt2 := Config.sqrt2, tan := p.tan }

/-- The five coefficients a design gives. -/
structure Coeffs (S : Type) where
  a0 : S
  a1 : S
  a2 : S
  b1 : S
  b2 : S
  deriving DecidableEq, Repr

/-- `yn` of R152: five products, summed left to right. -/
def recurrence {S : Type} (n : Arith S) (d : Coeffs S) (x xz1 xz2 yz1 yz2 : S) : S :=
  n.sub (n.sub (n.add (n.add (n.mul d.a0 x) (n.mul d.a1 xz1)) (n.mul d.a2 xz2)) (n.mul d.b1 yz1)) (n.mul d.b2 yz2)

/-- `yn` of R152 on a section. -/
def Biquad.filtered (q : Biquad) (x : Sample) : Sample :=
  recurrence F32.arith ⟨q.a0, q.a1, q.a2, q.b1, q.b2⟩ x q.xz1 q.xz2 q.yz1 q.yz2

/-- The history after the sample `x` (R152). -/
def Biquad.advance (q : Biquad) (x : Sample) : Biquad :=
  { q with xz2 := q.xz1, xz1 := x, yz2 := q.yz1, yz1 := q.filtered x }

/-- The mixed output `c0 * yn + d0 * x` (R152). -/
def Biquad.mixed (q : Biquad) (x : Sample) : Sample := F32.add (F32.mul q.c0 (q.filtered x)) (F32.mul q.d0 x)

/-- One sample through a section (R152). Where a coefficient or a memory cell holds no value the command is outside every
rule and refused, never run on what the register stores (R152's precondition; R285, D27: "reading one is refused"; U1:
`refuse` (never a value)). -/
def Biquad.process (q : Biquad) (x : Sample) : Answer (Biquad × Sample) :=
  require (q.coefHeld && q.memHeld) .noValue (.next (q.advance x, q.mixed x))

/-- `clear()` (R154). -/
def Biquad.clear (q : Biquad) : Biquad :=
  { q with xz1 := F32.zero, xz2 := F32.zero, yz1 := F32.zero, yz2 := F32.zero, memHeld := true }

/-- `PI * fcl / rate` (R160 to R164). -/
def designAngle {S : Type} (n : Numerics S) (fcl rate : S) : S := n.div (n.mul n.pi fcl) rate

/-- `1 + SQRT2 * C + C * C` (R160, R161). -/
def bwDenominator {S : Type} (n : Numerics S) (c : S) : S := n.add (n.add n.one (n.mul n.sqrt2 c)) (n.mul c c)

/-- `1 - SQRT2 * C + C * C` (R160, R161). -/
def bwNumerator {S : Type} (n : Numerics S) (c : S) : S := n.add (n.sub n.one (n.mul n.sqrt2 c)) (n.mul c c)

/-- R160. -/
def designBwLp2 {S : Type} (n : Numerics S) (fcl rate : S) : Coeffs S :=
  let c := n.div n.one (n.tan (designAngle n fcl rate))
  let a0 := n.div n.one (bwDenominator n c)
  { a0 := a0
    a1 := n.mul n.two a0
    a2 := a0
    b1 := n.mul (n.mul n.two a0) (n.sub n.one (n.mul c c))
    b2 := n.mul a0 (bwNumerator n c) }

/-- R161. -/
def designBwHp2 {S : Type} (n : Numerics S) (fcl rate : S) : Coeffs S :=
  let c := n.tan (designAngle n fcl rate)
  let a0 := n.div n.one (bwDenominator n c)
  { a0 := a0
    a1 := n.sub n.zero (n.mul n.two a0)
    a2 := a0
    b1 := n.mul (n.mul n.two a0) (n.sub (n.mul c c) n.one)
    b2 := n.mul a0 (bwNumerator n c) }

/-- `om` of R162, R163. -/
def lrOmega {S : Type} (n : Numerics S) (fcl : S) : S := n.mul n.pi fcl

/-- `ka` of R162, R163. -/
def lrKappa {S : Type} (n : Numerics S) (fcl rate : S) : S := n.div (lrOmega n fcl) (n.tan (designAngle n fcl rate))

/-- `de` of R162, R163. -/
def lrDelta {S : Type} (n : Numerics S) (ka om : S) : S :=
  n.add (n.add (n.mul ka ka) (n.mul om om)) (n.mul (n.mul n.two ka) om)

/-- `b1` of R162, R163. -/
def lrB1 {S : Type} (n : Numerics S) (ka om : S) : S :=
  n.div (n.add (n.sub n.zero (n.mul (n.mul n.two ka) ka)) (n.mul (n.mul n.two om) om)) (lrDelta n ka om)

/-- `b2` of R162, R163. -/
def lrB2 {S : Type} (n : Numerics S) (ka om : S) : S :=
  n.div (n.add (n.add (n.sub n.zero (n.mul (n.mul n.two ka) om)) (n.mul ka ka)) (n.mul om om)) (lrDelta n ka om)

/-- R162. -/
def designLrLp2 {S : Type} (n : Numerics S) (fcl rate : S) : Coeffs S :=
  let om := lrOmega n fcl
  let ka := lrKappa n fcl rate
  { a0 := n.div (n.mul om om) (lrDelta n ka om)
    a1 := n.div (n.mul (n.mul n.two om) om) (lrDelta n ka om)
    a2 := n.div (n.mul om om) (lrDelta n ka om)
    b1 := lrB1 n ka om
    b2 := lrB2 n ka om }

/-- R163. -/
def designLrHp2 {S : Type} (n : Numerics S) (fcl rate : S) : Coeffs S :=
  let om := lrOmega n fcl
  let ka := lrKappa n fcl rate
  { a0 := n.div (n.mul ka ka) (lrDelta n ka om)
    a1 := n.div (n.sub n.zero (n.mul (n.mul n.two ka) ka)) (lrDelta n ka om)
    a2 := n.div (n.mul ka ka) (lrDelta n ka om)
    b1 := lrB1 n ka om
    b2 := lrB2 n ka om }

/-- R164. -/
def designAp1 {S : Type} (n : Numerics S) (fcl rate : S) : Coeffs S :=
  let t := n.tan (designAngle n fcl rate)
  let al := n.div (n.sub t n.one) (n.add t n.one)
  { a0 := al, a1 := n.one, a2 := n.zero, b1 := al, b2 := n.zero }

/-- The formulas of R160 to R164, in any arithmetic. -/
def designOver {S : Type} (n : Numerics S) (k : Design) (fcl rate : S) : Coeffs S :=
  match k with
  | .bwlp2 => designBwLp2 n fcl rate
  | .bwhp2 => designBwHp2 n fcl rate
  | .lrlp2 => designLrLp2 n fcl rate
  | .lrhp2 => designLrHp2 n fcl rate
  | .ap1 => designAp1 n fcl rate

/-- `BQ_DESIGN(K, fcl, rate)` (R159; log 23): a function of its three arguments and the configuration alone (R172). That
the same formulas and recurrence on ideal values are stable, which is the rest of R172, is shown in
`Laws/Stability.lean`. -/
def bqDesign (p : Params) (k : Design) (fcl rate : Sample) : Coeffs Sample := designOver (numerics p) k fcl rate

/-- `fcl = min(fc, NYQ_GUARD * nyq)`, `nyq = rate / 2` (R158). -/
def clampCutoff (fc rate : Sample) : Sample := F32.min fc (F32.mul Config.nyqGuard (F32.div rate F32.two))

/-- The gate of R158: the design, the rate and, within `RECOMP_TOL`, the cutoff are those last applied. -/
def Biquad.upToDate (p : Params) (q : Biquad) (k : Design) (fcl rate : Sample) : Bool :=
  decide (q.kind = some k) && F32.eq q.lastRate rate && F32.le (F32.abs (F32.sub fcl q.lastFc)) p.recompTol

/-- The section with the coefficients of a design, fully wet; its memory untouched (R158). -/
def Biquad.designed (p : Params) (q : Biquad) (k : Design) (fcl rate : Sample) : Biquad :=
  let d := bqDesign p k fcl rate
  { q with
    a0 := d.a0, a1 := d.a1, a2 := d.a2, b1 := d.b1, b2 := d.b2, c0 := F32.one, d0 := F32.zero, coefHeld := true
    kind := some k, lastFc := fcl, lastRate := rate }

/-- The body of every `BQ.SET*` (R158). -/
def Biquad.setDesign (p : Params) (q : Biquad) (k : Design) (fc rate : Sample) : Biquad :=
  if q.upToDate p k (clampCutoff fc rate) rate then q else q.designed p k (clampCutoff fc rate) rate

/-- The common part of the `BQ.SET*` commands with its preconditions (R158, D18). -/
def bqSet (k : Design) (c : Channel) (slot : Slot) (fc : Sample) (s : State) : Answer State :=
  require s.sys.rateSet .rateNotSet
    (require (F32.isPositive fc) .cutoffOutsideDomain
      (answer (s.setBq c slot ((s.getBq c slot).setDesign params k fc s.sys.sampleRate)) []))

/-- `BQ.PROC` on one section, within a command (R152). -/
def bqProcAt (c : Channel) (slot : Slot) (x : Sample) (s : State) : Answer (State × Sample) :=
  andThen ((s.getBq c slot).process x) fun r => .next (s.setBq c slot r.1, r.2)

/-- Lane `j` of group `g` is channel `4g + j` (R45, R170, D29). -/
def laneChannel (g : LaneGroup) (j : Fin Config.lanes) : Channel :=
  ⟨4 * g.val + j.val, by have hg := g.isLt; have hj := j.isLt; simp only [Config.lanes, Config.nchMax] at *; omega⟩

/-- `BQ.CLEAR` (R154). -/
def execBqClear (c : Channel) (slot : Slot) (s : State) : Answer State :=
  answer (s.setBq c slot (s.getBq c slot).clear) []

/-- `BQ.PROC` (R152). -/
def execBqProc (c : Channel) (slot : Slot) (x : Word) (s : State) : Answer State :=
  andThen (bqProcAt c slot (f32 x) s) fun r => answer r.1 [r.2]

/-- `BQ.SETBWLP2` (R160). -/
def execBqSetBwLp2 (c : Channel) (slot : Slot) (fc : Word) (s : State) : Answer State :=
  bqSet .bwlp2 c slot (f32 fc) s

/-- `BQ.SETBWHP2` (R161). -/
def execBqSetBwHp2 (c : Channel) (slot : Slot) (fc : Word) (s : State) : Answer State :=
  bqSet .bwhp2 c slot (f32 fc) s

/-- `BQ.SETLRLP2` (R162). -/
def execBqSetLrLp2 (c : Channel) (slot : Slot) (fc : Word) (s : State) : Answer State :=
  bqSet .lrlp2 c slot (f32 fc) s

/-- `BQ.SETLRHP2` (R163). -/
def execBqSetLrHp2 (c : Channel) (slot : Slot) (fc : Word) (s : State) : Answer State :=
  bqSet .lrhp2 c slot (f32 fc) s

/-- `BQ.SETAP1` (R164). -/
def execBqSetAp1 (c : Channel) (slot : Slot) (fc : Word) (s : State) : Answer State :=
  bqSet .ap1 c slot (f32 fc) s

/-- `BQ.LOADC` (R156): seven coefficients, `kind` none, the memory untouched. -/
def execBqLoadc (c : Channel) (slot : Slot) (a0 a1 a2 b1 b2 c0 d0 : Word) (s : State) : Answer State :=
  answer
    (s.setBq c slot
      { s.getBq c slot with
        a0 := f32 a0, a1 := f32 a1, a2 := f32 a2, b1 := f32 b1, b2 := f32 b2, c0 := f32 c0, d0 := f32 d0
        coefHeld := true, kind := none })
    []

/-- `BQ.PROC4` (R168): slot 2 wholly, then slot 3 on its output. -/
def execBqProc4 (c : Channel) (x : Word) (s : State) : Answer State :=
  andThen (bqProcAt c 2 (f32 x) s) fun u => andThen (bqProcAt c 3 u.2 u.1) fun r => answer r.1 [r.2]

/-- `BQ.PROCV` (R170): four scalar commands on the four channels of the group. -/
def execBqProcv (g : LaneGroup) (slot : Slot) (x0 x1 x2 x3 : Word) (s : State) : Answer State :=
  andThen (bqProcAt (laneChannel g 0) slot (f32 x0) s) fun r0 =>
  andThen (bqProcAt (laneChannel g 1) slot (f32 x1) r0.1) fun r1 =>
  andThen (bqProcAt (laneChannel g 2) slot (f32 x2) r1.1) fun r2 =>
  andThen (bqProcAt (laneChannel g 3) slot (f32 x3) r2.1) fun r3 => answer r3.1 [r0.2, r1.2, r2.2, r3.2]

end Sys2Proof.Machine
end

