-- ==== Sys2Proof/Machine/Cb.lean ====
section
/-! DEFINITION. The CircularBuffer commands (R120 to R138). -/

namespace Sys2Proof.Machine

/-- A ring of capacity `2^k` right after `CB.RESET` (R124): every cell 0, head at 0. -/
def Ring.cleared (k : Nat) : Ring := ⟨true, k, 0, []⟩

/-- `CB.PUSH`: the head advances by one, the value is stored there, sanitised (R126). -/
def Ring.push (r : Ring) (v : Sample) : Ring :=
  Ring.store { r with writeIndex := (r.writeIndex + 1) % r.length } ((r.writeIndex + 1) % r.length) v

/-- `CB.WRAT`: the value is stored at offset `d`, the head does not move (R128). -/
def Ring.writeAt (r : Ring) (d : Int) (v : Sample) : Ring := r.store (r.cell d) v

/-- `CB.ADDAT`: the sum is stored, sanitised, at offset `d` (R130, D8). -/
def Ring.addAt (r : Ring) (d : Int) (v : Sample) : Ring := r.store (r.cell d) (F32.add (r.readAt d) v)

/-- The delays `CB.RDF` is defined for: finite and `>= 0` (R134, D11). -/
def delayOk (delay : Sample) : Bool := F32.isFinite delay && F32.le F32.zero delay

/-- `CB.RDF` for a delay in its domain: the neighbours at `floor(delay)` and one more, weighed by the fraction
(R134). -/
def Ring.readFrac (r : Ring) (delay : Sample) : Sample :=
  F32.lerp (r.readAt (F32.floor delay)) (r.readAt (F32.floor delay + 1)) (F32.fracPart delay)

/-- A fractional tap: refused where the ring is not allocated (R121) or the delay is outside the domain (R134 (vi)). -/
def Ring.tap (r : Ring) (delay : Sample) : Answer Sample :=
  require r.alloc .notAllocated (require (delayOk delay) .delayOutsideDomain (.next (r.readFrac delay)))

/-- `CB.RESET` (R124). -/
def execCbReset (c : Channel) (minSize : Word) (s : State) : Answer State :=
  if npow2Log (u32 minSize) ≤ Config.cbKmax then
    answer (s.setCb c (Ring.cleared (npow2Log (u32 minSize)))) [u32Result (npow2 (u32 minSize))]
  else raise .cbSize s

/-- `CB.PUSH` (R126). -/
def execCbPush (c : Channel) (value : Word) (s : State) : Answer State :=
  require (s.cb[c]).alloc .notAllocated (answer (s.setCb c ((s.cb[c]).push (f32 value))) [])

/-- `CB.WRAT` (R128). -/
def execCbWrat (c : Channel) (offset value : Word) (s : State) : Answer State :=
  require (s.cb[c]).alloc .notAllocated (answer (s.setCb c ((s.cb[c]).writeAt (i32 offset) (f32 value))) [])

/-- `CB.ADDAT` (R130). -/
def execCbAddat (c : Channel) (offset value : Word) (s : State) : Answer State :=
  require (s.cb[c]).alloc .notAllocated (answer (s.setCb c ((s.cb[c]).addAt (i32 offset) (f32 value))) [])

/-- `CB.RDI` (R132). -/
def execCbRdi (c : Channel) (delay : Word) (s : State) : Answer State :=
  require (s.cb[c]).alloc .notAllocated (answer s [(s.cb[c]).readAt (i32 delay)])

/-- `CB.RDF` (R134). -/
def execCbRdf (c : Channel) (delay : Word) (s : State) : Answer State :=
  andThen ((s.cb[c]).tap (f32 delay)) fun y => answer s [y]

end Sys2Proof.Machine
end

