-- ==== Sys2Proof/Machine/Cmp.lean ====
section
/-! DEFINITION. The compressor commands (R180 to R190). -/

namespace Sys2Proof.Machine

/-- `EXP(CMP_TC / (sampleRate * time))` (R184). -/
def timeCoeff (p : Params) (rate time : Sample) : Sample := p.exp (F32.div p.cmpTC (F32.mul rate time))

/-- The body of `CMP.SETTIMES` (R184): envelope, `G` and `divCount` untouched. -/
def Compressor.setTimes (p : Params) (m : Compressor) (attack release : Sample) : Compressor :=
  { m with
    attackTime := attack, releaseTime := release
    attackCoeff := timeCoeff p m.sampleRate attack, releaseCoeff := timeCoeff p m.sampleRate release
    timesHeld := true }

/-- The body of `CMP.SETCURVE` (R185). -/
def Compressor.setCurve (m : Compressor) (threshold ratio : Sample) : Compressor :=
  { m with threshold := threshold, ratio := ratio, curveHeld := true }

/-- The envelope after a detector run on the magnitude `a`, floored at `CMP_EPS`; a NaN gives `CMP_EPS` (R186). -/
def Compressor.envelope (p : Params) (m : Compressor) (a : Sample) : Sample :=
  let coeff := if F32.lt m.lastEnv a then m.attackCoeff else m.releaseCoeff
  let env := F32.add (F32.mul coeff (F32.sub m.lastEnv a)) a
  if F32.lt p.cmpEps env then env else p.cmpEps

/-- The hard-knee gain for an envelope (R186). -/
def Compressor.gainFor (p : Params) (m : Compressor) (env : Sample) : Sample :=
  let inDb := F32.mul F32.twenty (p.log10 env)
  if F32.lt m.threshold inDb then
    let attDb := F32.add m.threshold (F32.div (F32.sub inDb m.threshold) m.ratio)
    p.pow10 (F32.div (F32.sub attDb inDb) F32.twenty)
  else F32.one

/-- One run of the detector and the gain computer (R186). -/
def Compressor.detect (p : Params) (m : Compressor) (x : Sample) : Compressor :=
  let env := m.envelope p (F32.abs x)
  { m with currentEnv := env, lastEnv := env, gain := m.gainFor p env }

/-- The compressor after the sample `x`: the detector runs where `divCount = 0`, the divider always counts (R186). -/
def Compressor.advance (p : Params) (m : Compressor) (x : Sample) : Compressor :=
  let m' := if m.divCount = 0 then m.detect p x else m
  { m' with divCount := (m'.divCount + 1) % p.cmpN }

/-- `CMP.PROC` on one compressor (R186). Where a field holds no value the command is outside every rule and refused, never
run on what the register stores (R186's precondition; R285, D27: "reading one is refused"; U1: `refuse` (never a
value)). -/
def Compressor.process (p : Params) (m : Compressor) (x : Sample) : Answer (Compressor × Sample) :=
  require (m.timesHeld && m.curveHeld && m.envHeld) .noValue
    (.next (m.advance p x, F32.mul x (m.advance p x).gain))

/-- `CMP.SETTIMES` (R184). -/
def execCmpSetTimes (c : Channel) (attack release : Word) (s : State) : Answer State :=
  require s.sys.rateSet .rateNotSet
    (require (F32.isPositive (f32 attack) && F32.isPositive (f32 release)) .timeOutsideDomain
      (answer (s.setCmp c ((s.cmp[c]).setTimes params (f32 attack) (f32 release))) []))

/-- `CMP.SETCURVE` (R185). -/
def execCmpSetCurve (c : Channel) (threshold ratio : Word) (s : State) : Answer State :=
  require (F32.isFinite (f32 threshold) && F32.isPositive (f32 ratio)) .curveOutsideDomain
    (answer (s.setCmp c ((s.cmp[c]).setCurve (f32 threshold) (f32 ratio))) [])

/-- `CMP.PROC` (R186). -/
def execCmpProc (c : Channel) (x : Word) (s : State) : Answer State :=
  andThen ((s.cmp[c]).process params (f32 x)) fun r => answer (s.setCmp c r.1) [r.2]

end Sys2Proof.Machine
end

