-- ==== Sys2Proof/Machine/Lut.lean ====
section
/-! DEFINITION. The lookup-table commands (R100 to R112). -/

namespace Sys2Proof.Machine

/-- The header checks of `LUT.CONFIG`, the length apart (R102). -/
def headerOk (minX maxX interval : Sample) : Bool :=
  F32.isFinite minX && F32.isFinite maxX && F32.isFinite interval
    && F32.lt minX maxX && F32.lt F32.zero interval

/-- `ceil((maxX - minX) / interval) + 1` over the real numbers, exact, for a header that passes its checks (R102). -/
def tableLength (minX maxX interval : Sample) : Nat :=
  let n := F32.toUnits maxX - F32.toUnits minX
  let d := F32.toUnits interval
  ((n + d - 1) / d).toNat + 1

/-- The cells `0 .. length-1` of a table exist (R61). -/
def Lut.cell (t : Lut) (i : Nat) : Answer Sample :=
  if i < t.length then .next ((Mem.read .table t.samples i).getD F32.zero) else .fault .noSuchCell

/-- `q = (x - minX) / interval` (R106). -/
def Lut.quotient (t : Lut) (x : Sample) : Sample := F32.div (F32.sub x t.minX) t.interval

/-- `(x - minX) / interval` over the real numbers: its numerator, over `toUnits interval`. -/
def Lut.offset (t : Lut) (x : Sample) : Int := F32.toUnits x - F32.toUnits t.minX

/-- `i = floor(q)` (R106). Where `q` overflows its floor is not defined (R12), and the index is the interval that `x`
lies in over the real numbers, as R106 (i) to (iii) and R302 say (log 16). Where `q` is finite the pseudocode is
followed also if its rounding reaches `length - 1` for an `x` below `maxX`, against the remark of R106 (i) (log 21). -/
def Lut.index (t : Lut) (x : Sample) : Int :=
  if F32.isFinite (t.quotient x) then F32.floor (t.quotient x) else t.offset x / F32.toUnits t.interval

/-- `x` is outside `[minX, minX + (length - 1) * interval)`, over the real numbers as the length is (R27, R302). -/
def Lut.outside (t : Lut) (x : Sample) : Bool :=
  decide (t.offset x < 0) || decide (((t.length : Int) - 1) * F32.toUnits t.interval ≤ t.offset x)

/-- A lane on which `LUT.EVALV` faults: outside the table (R302; D14, U3: never a value), or of an index `floor(q)` outside
`0 .. length - 2` (R108). The two differ only where `q` is rounded (DEDUCED, log 21): a lane outside whose `q` rounds into
range faults by R302, and a lane in `[minX, maxX)` whose `q` rounds up to `length - 1` faults by the pseudocode of R108,
against its remark that such a lane equals `LUT.EVAL`. -/
def Lut.laneOut (t : Lut) (x : Sample) : Bool :=
  t.outside x
    || (F32.isFinite (t.quotient x)
      && (decide (F32.floor (t.quotient x) < 0) || decide ((t.length : Int) - 2 < F32.floor (t.quotient x))))

/-- `f = q - i2s(i)` (R106). Where `q` overflows: in the table the fraction that makes the result the interpolant at
`x` (R106 (i)), rounded once; outside it no rule states one, and it is free (log 16). -/
def Lut.fraction (t : Lut) (x : Sample) : Sample :=
  if F32.isFinite (t.quotient x) then F32.fracPart (t.quotient x)
  else if t.outside x then Config.fracOpen (t.quotient x)
  else F32.ratio (t.offset x % F32.toUnits t.interval).toNat (F32.toUnits t.interval).toNat

/-- `clamp(i, 0, length - 2)` (R106). -/
def Lut.clampIndex (t : Lut) (i : Int) : Int := min (max i 0) ((t.length : Int) - 2)

/-- `lerp` of the cells at `i` and `i + 1` (R106, R108). -/
def Lut.interpolate (t : Lut) (i : Int) (f : Sample) : Answer Sample :=
  if i < 0 then .fault .noSuchCell
  else andThen (t.cell i.toNat) fun a => andThen (t.cell (i.toNat + 1)) fun b => .next (F32.lerp a b f)

/-- The scalar path on a valid table (R106): the index is clamped, the fraction is not (D13). -/
def Lut.evalScalar (t : Lut) (x : Sample) : Answer Sample :=
  require (F32.isFinite x) .abscissaNotFinite (t.interpolate (t.clampIndex (t.index x)) (t.fraction x))

/-- The lowest offending lane, counting from `j` (R108, R267). -/
def Lut.firstOut (t : Lut) : Nat → List Sample → Option Nat
  | _, [] => none
  | j, x :: xs => if t.laneOut x then some j else t.firstOut (j + 1) xs

/-- One lane of the vector path, in range: no clamp (R108). -/
def Lut.evalLane (t : Lut) (x : Sample) : Answer Sample :=
  t.interpolate (t.index x) (t.fraction x)

/-- `LUT.CONFIG` (R102). -/
def execLutConfig (t : TableId) (minX maxX interval : Word) (s : State) : Answer State :=
  let lo := f32 minX
  let hi := f32 maxX
  let iv := f32 interval
  if headerOk lo hi iv && decide (tableLength lo hi iv ≤ Config.lutLmax) then
    answer (s.setLut t ⟨true, lo, hi, iv, tableLength lo hi iv, []⟩) [u32Result (tableLength lo hi iv)]
  else raise .lutHeader s

/-- `LUT.WRITE` (R104): the value is stored as given, finite or not. -/
def execLutWrite (t : TableId) (index value : Word) (s : State) : Answer State :=
  if (s.lut[t]).valid then
    if u32 index < (s.lut[t]).length then
      answer (s.setLut t { s.lut[t] with samples := Mem.write .table (s.lut[t]).samples (u32 index) (f32 value) }) []
    else raise .lutIndex s
  else raise .lutEmpty s

/-- `LUT.EVAL` (R106). -/
def execLutEval (t : TableId) (x : Word) (s : State) : Answer State :=
  if (s.lut[t]).valid then andThen ((s.lut[t]).evalScalar (f32 x)) fun y => answer s [y]
  else raise .lutEmpty s

/-- `LUT.EVALV` (R108): an empty table first, then an operand outside the rule, then the lowest lane out of range
(R267; log 18). -/
def execLutEvalv (t : TableId) (x0 x1 x2 x3 : Word) (s : State) : Answer State :=
  if (s.lut[t]).valid then
    require
      (F32.isFinite (f32 x0) && F32.isFinite (f32 x1) && F32.isFinite (f32 x2) && F32.isFinite (f32 x3))
      .abscissaNotFinite
      (match (s.lut[t]).firstOut 0 [f32 x0, f32 x1, f32 x2, f32 x3] with
        | some j => raise (.bounds t j) s
        | none =>
          andThen ((s.lut[t]).evalLane (f32 x0)) fun y0 =>
          andThen ((s.lut[t]).evalLane (f32 x1)) fun y1 =>
          andThen ((s.lut[t]).evalLane (f32 x2)) fun y2 =>
          andThen ((s.lut[t]).evalLane (f32 x3)) fun y3 => answer s [y0, y1, y2, y3])
  else raise .lutEmpty s

end Sys2Proof.Machine
end

