-- ==== Sys2Proof/Machine/Ws.lean ====
section
/-! DEFINITION. The WaveShaper commands (R200 to R206). -/

namespace Sys2Proof.Machine

/-- `q = (x - WS_MIN) * WS_SCALE` (R203). -/
def wsQuotient (x : Sample) : Sample := F32.mul (F32.sub x Config.wsMin) Config.wsScale

/-- `idx = floor(q) & WS_MASK` (R203). -/
def wsIndex (x : Sample) : Nat := maskInt (F32.floor (wsQuotient x)) Config.wsMask

/-- Every cell of a curve holds a value (R203 precondition): a canonical memory below 4096 lists 4096 cells. -/
def curveLoaded (m : Mem) : Bool := decide (m.length = Config.wsLen)

/-- `lerp` of the cells at `idx` and `idx + 1` (R203); refused where one holds no value. -/
def curveAt (m : Mem) (x : Sample) : Answer Sample :=
  match Mem.read .curve m (wsIndex x), Mem.read .curve m (wsIndex x + 1) with
  | some a, some b => .next (F32.lerp a b (F32.fracPart (wsQuotient x)))
  | _, _ => .refused .curveNotLoaded

/-- `WS.WRITE` (R202): the value is stored as given. -/
def execWsWrite (curve : CurveId) (index value : Word) (s : State) : Answer State :=
  if u32 index < Config.wsLen then
    answer (s.setWs curve (Mem.write .curve (s.ws[curve]) (u32 index) (f32 value))) []
  else raise .wsIndex s

/-- `WS.EVAL` (R203). -/
def execWsEval (curve : CurveId) (x : Word) (s : State) : Answer State :=
  require (curveLoaded (s.ws[curve])) .curveNotLoaded
    (require (F32.isFinite (f32 x)) .abscissaNotFinite
      (andThen (curveAt (s.ws[curve]) (f32 x)) fun y => answer s [y]))

end Sys2Proof.Machine
end

