-- ==== Sys2Proof/Machine/Voice.lean ====
section
/-! DEFINITION. One channel's part of `SYS.STEP`: the seven steps of the Karplus-Strong voice (R234 to R240). -/

namespace Sys2Proof.Machine

open F32 (add sub mul div one half)

/-- What one channel's part of `SYS.STEP` reads and writes (R71): `CB[c]`, `BQ[c][0]`, `BQ[c][1]`, `CMP[c]`, `KS[c]`. -/
structure ChannelPart where
  ring : Ring
  bqIn : Biquad
  bqOut : Biquad
  cmp : Compressor
  voice : Voice
  deriving DecidableEq, Repr

/-- What every channel of one `SYS.STEP` shares: the configuration, the rate, the tables POW2 and UNISON_SPREAD (R28,
R60), the curves, the controls. -/
structure FrameEnv where
  par : Params
  rate : Sample
  pow2 : Lut
  spread : Lut
  curves : Vector Mem Config.wsNcurves
  controls : StepControls

/-- `pitch = vPitch + octave + semitone / 12` (R234). -/
def FrameEnv.pitch (e : FrameEnv) (v : VoiceIn) : Sample :=
  add (add (f32 v.vPitch) (f32 e.controls.octave)) (div (f32 e.controls.semitone) F32.twelve)

/-- `POW2(v) = LUT.EVAL t1, v` (R218, R234); refused where the table is not valid (R233; log 19). -/
def FrameEnv.pow2At (e : FrameEnv) (v : Sample) : Answer Sample :=
  require e.pow2.valid .pow2NotLoaded (e.pow2.evalScalar v)

/-- `fmax = min(KS_FMAX, rate / 2)` (R234). -/
def FrameEnv.fmax (e : FrameEnv) : Sample := F32.min Config.ksFmax (div e.rate F32.two)

/-- Step 1: the clamped target frequency (R234). -/
def FrameEnv.target (e : FrameEnv) (v : VoiceIn) : Answer Sample :=
  andThen (e.pow2At (e.pitch v)) fun y => .next (F32.clamp (mul e.par.ksF0 y) Config.ksFmin e.fmax)

/-- Step 2: the playback frequency (R235). -/
def FrameEnv.playback (e : FrameEnv) (prev target : Sample) : Sample :=
  e.par.ksGlide prev target (f32 e.controls.glide) e.rate

/-- Step 2: the clamped delay in samples (R235). -/
def FrameEnv.delay (e : FrameEnv) (r : Ring) (f : Sample) : Sample :=
  F32.clamp (mul (div one f) e.rate) F32.zero (F32.i2s ((r.length : Int) - 2))

/-- Step 4: the probability of the ordinary path (R237). -/
def FrameEnv.pNon (e : FrameEnv) (f : Sample) : Sample :=
  div one (e.par.ksStretch f (F32.clamp (f32 e.controls.stretch) e.par.ksStMin e.par.ksStMax))

/-- Step 4: the dry sample (R237). -/
def FrameEnv.dry (e : FrameEnv) (f input lastWet wet uStretch : Sample) : Sample :=
  if F32.lt uStretch (e.pNon f) then
    add
      (add (mul half input) (mul lastWet (F32.clamp (f32 e.controls.feedback) e.par.ksFbMin e.par.ksFbMax)))
      (mul half wet)
  else add input wet

/-- `p - i2s(floor(p))` keeps a phase in `[0, 1)` (R239); open in that range for a `p` that is not finite (log 17). -/
def wrapPhase (p : Sample) : Sample :=
  if F32.isFinite p then sub p (F32.i2s (F32.floor p)) else keepUnit (Config.phaseOpen p)

/-- `ut = KS_UTUNE(utune)` (R239): where it is bound, `LUT.EVAL t4` (R218), refused while that table is not valid
(R233; log 19). -/
def FrameEnv.tuning (e : FrameEnv) : Answer Sample :=
  if e.par.ksUtuneBound then require e.spread.valid .spreadNotLoaded (e.spread.evalScalar (f32 e.controls.utune))
  else .next (e.par.ksUtune (f32 e.controls.utune))

/-- `phase += (unisonTuning * spreadCoefficient) / index`, wrapped, for the tuning `ut` (R217, R239). -/
def FrameEnv.nextPhase (e : FrameEnv) (ut index : Sample) (j : Fin Config.unisonMax) (phase : Sample) : Sample :=
  wrapPhase (add phase (div (mul ut (e.par.ksSpread j)) index))

/-- `uc = min(ucount, UNISON_MAX)` (R226, R233). -/
def FrameEnv.unisonCount (e : FrameEnv) : Nat := min (u32 e.controls.ucount) Config.unisonMax

/-- `um`, the clamped unison mix (R239). -/
def FrameEnv.unisonMix (e : FrameEnv) : Sample := F32.clamp (f32 e.controls.umix) e.par.ksMixMin e.par.ksMixMax

/-- The taps of the unison phases in the list, in order: each phase advances, its tap is added at the side level
(R239). -/
def FrameEnv.taps (e : FrameEnv) (r : Ring) (ut index : Sample) :
    List (Fin Config.unisonMax) → Vector Sample Config.unisonMax → Sample →
      Answer (Vector Sample Config.unisonMax × Sample)
  | [], phases, mix => .next (phases, mix)
  | j :: js, phases, mix =>
    let ph := e.nextPhase ut index j phases[j]
    andThen (r.tap (e.par.ksTapDelay r.length index ph)) fun tap =>
      e.taps r ut index js (phases.set j ph) (add mix (mul (e.par.ksSide e.unisonMix) tap))

/-- `KS_SAT(o)` (R240). Where it is bound to a curve, the `WS.EVAL` of that curve with the caller's scaling (R206, R218),
refused while the curve is not loaded (R233); it is total (R218), so a scaled `o` that is not finite, for which
`WS.EVAL` states nothing, gives a free value (log 12). -/
def FrameEnv.saturate (e : FrameEnv) (o : Sample) : Answer Sample :=
  match e.par.ksSatCurve with
  | none => .next (e.par.ksSat o)
  | some k =>
    require (curveLoaded e.curves[k]) .curveNotLoaded
      (if F32.isFinite (e.par.ksSatIn o) then
        andThen (curveAt e.curves[k] (e.par.ksSatIn o)) fun y => .next (e.par.ksSatOut y)
      else .next (e.par.ksSat o))

/-- Steps 1 to 7 on one channel, with its two draws (R233 to R240). -/
def FrameEnv.frame (e : FrameEnv) (v : VoiceIn) (uNoise uStretch : Sample) (ch : ChannelPart) :
    Answer ChannelPart :=
  andThen (e.target v) fun target =>
  let f := e.playback ch.voice.glide target
  let index := e.delay ch.ring f
  andThen (ch.ring.tap index) fun wet =>
  andThen (ch.bqIn.process (e.par.ksExcite (f32 v.vIn) uNoise)) fun input =>
  andThen (ch.cmp.process e.par (e.dry f input.2 ch.voice.lastWet wet uStretch)) fun comp =>
  let ring := ch.ring.push comp.2
  andThen e.tuning fun ut =>
  andThen
    (e.taps ring ut index ((List.finRange Config.unisonMax).take e.unisonCount) ch.voice.phase
      (mul (e.par.ksCentre e.unisonMix) wet)) fun unison =>
  andThen (ch.bqOut.process unison.2) fun out =>
  andThen (e.saturate out.2) fun output =>
  .next
    { ring := ring
      bqIn := input.1
      bqOut := out.1
      cmp := comp.1
      voice := ⟨unison.1, wet, output, target, f⟩ }

end Sys2Proof.Machine
end

