-- ==== Sys2Proof/Machine/Sys.lean ====
section
/-! DEFINITION. The system commands: `SYS.STATUS` (R265), `SYS.SETRATE` (R228), `SYS.INIT` (R230, R231) and
`SYS.STEP` (R226, R233). -/

namespace Sys2Proof.Machine

/-- `SYS.STATUS` (R265): `ST = 0`, halted or not. -/
def execSysStatus (s : State) : Answer State := answer s [s.sys.fault.code, s.sys.fault.info]

/-- `SYS.SETRATE` on one compressor (R228): its copy of the rate, its times or the voice's defaults, and the voice's
curve where none is held. -/
def Compressor.setRate (p : Params) (m : Compressor) (rate : Sample) : Compressor :=
  let m1 := { m with sampleRate := rate }
  let m2 :=
    m1.setTimes p (if m.timesHeld then m.attackTime else p.ksCmpAttack)
      (if m.timesHeld then m.releaseTime else p.ksCmpRelease)
  if m.curveHeld then m2 else m2.setCurve p.ksCmpThreshold p.ksCmpRatio

/-- `SYS.SETRATE` on one channel's sections (R228): the two DC-blockers, slots 0 and 1, are designed anew. -/
def setRateSections (p : Params) (rate : Sample) (q : Vector Biquad Config.bqSlots) : Vector Biquad Config.bqSlots :=
  (q.set 0 (q[0].setDesign p .bwhp2 p.ksDcFreq rate)).set 1 (q[1].setDesign p .bwhp2 p.ksDcFreq rate)

/-- The state `SYS.SETRATE` leaves (R228). -/
def setRate (p : Params) (rate : Sample) (s : State) : State :=
  { s with
    sys := { s.sys with sampleRate := rate, rateSet := true }
    cmp := s.cmp.map fun m => m.setRate p rate
    bq := s.bq.map fun q => setRateSections p rate q }

/-- `SYS.SETRATE` (R228). -/
def execSysSetRate (rate : Word) (s : State) : Answer State :=
  require (F32.isPositive (f32 rate)) .rateOutsideDomain (answer (setRate params (f32 rate) s) [])

/-- `KS_MINSIZE = floor(sampleRate / KS_FMIN) + 2` (R231). -/
def ksMinSize (rate : Sample) : Nat := (F32.floor (F32.div rate Config.ksFmin) + 2).toNat

/-- `SYS.INIT` on one compressor (R230). -/
def Compressor.init (m : Compressor) : Compressor :=
  { m with lastEnv := F32.zero, currentEnv := F32.zero, gain := F32.one, divCount := 0, envHeld := true }

/-- `SYS.INIT` on the voice of channel `c` (R230): seven draws from the `n`-th on, channel by channel (log 15). -/
def initVoice (p : Params) (n : Nat) (c : Channel) : Voice :=
  { phase := Vector.ofFn fun j => p.draw (n + Config.unisonMax * c.val + j.val)
    lastWet := F32.zero
    lastOut := F32.zero
    targetFreq := p.ksGlide0
    glide := p.ksGlide0 }

/-- The state `SYS.INIT` leaves, for rings of capacity `2^k` (R230). -/
def initAll (p : Params) (k : Nat) (s : State) : State :=
  { s with
    sys := { s.sys with nch := 0, inited := true }
    cb := Vector.replicate Config.nchMax (Ring.cleared k)
    bq := s.bq.map fun q => q.map Biquad.clear
    cmp := s.cmp.map Compressor.init
    ks := Vector.ofFn fun c => initVoice p s.draws c
    draws := s.draws + Config.unisonMax * Config.nchMax }

/-- `SYS.INIT` (R230, R231). -/
def execSysInit (s : State) : Answer State :=
  require s.sys.rateSet .rateNotSet
    (if npow2Log (ksMinSize s.sys.sampleRate) ≤ Config.cbKmax then
      answer (initAll params (npow2Log (ksMinSize s.sys.sampleRate)) s) []
    else raise .cbSize s)

/-- What channel `c` holds of what its part of `SYS.STEP` reads and writes (R71). -/
def State.part (s : State) (c : Channel) : ChannelPart :=
  ⟨s.cb[c], s.getBq c 0, s.getBq c 1, s.cmp[c], s.ks[c]⟩

/-- Put a channel's part back. -/
def State.setPart (s : State) (c : Channel) (x : ChannelPart) : State :=
  ((((s.setCb c x.ring).setBq c 0 x.bqIn).setBq c 1 x.bqOut).setCmp c x.cmp).setKs c x.voice

/-- The frame of each listed channel in turn; channel `c` takes the draws `n + 2c` (`uNoise`) and `n + 2c + 1`
(`uStretch`) (R222, R233; log 15). -/
def stepChannels (e : FrameEnv) (n : Nat) : List (Channel × VoiceIn) → State → Answer State
  | [], s => .next s
  | (c, v) :: cs, s =>
    andThen (e.frame v (e.par.draw (n + 2 * c.val)) (e.par.draw (n + 2 * c.val + 1)) (s.part c)) fun ch =>
      stepChannels e n cs (s.setPart c ch)

/-- The active channels with their port voltages: channel 0 takes the first pair (R226). -/
def activeChannels (voices : List VoiceIn) : List (Channel × VoiceIn) := (List.finRange Config.nchMax).zip voices

/-- What the channels of a `SYS.STEP` share (R233). -/
def frameEnv (p : Params) (controls : StepControls) (s : State) : FrameEnv :=
  ⟨p, s.sys.sampleRate, s.lut[1], s.lut[4], s.ws, controls⟩

/-- The state after the frame, with the channel count written back and the draws taken (R233). -/
def finishStep (nch : Nat) (s : State) : State :=
  { s with sys := { s.sys with nch := nch }, draws := s.draws + 2 * nch }

/-- The result words of `SYS.STEP`: `nch`, then `out[c]` of each active channel (R233, R240). -/
def stepResults (voices : List VoiceIn) (s : State) : List Word :=
  u32Result voices.length :: (activeChannels voices).map fun cv => (s.ks[cv.1]).lastOut

/-- `SYS.STEP` (R226, R233). -/
def execSysStep (controls : StepControls) (voices : List VoiceIn) (s : State) : Answer State :=
  if Config.nchMax < voices.length then raise (.illegalCommand 0x03000000#32) s
  else
    require s.sys.inited .notInitialised
      (require (stepOperandsFinite controls voices) .operandNotFinite
        (andThen (stepChannels (frameEnv params controls s) s.draws (activeChannels voices) s) fun s' =>
          answer (finishStep voices.length s') (stepResults voices s')))

end Sys2Proof.Machine
end

