-- ==== Sys2Proof/Machine/Dispatch.lean ====
section
/-! DEFINITION. The one dispatch of the block: one arm per command of R86, each a direct call of its meaning. -/

namespace Sys2Proof.Machine

def exec (i : Instr) (s : State) : Host.Outcome State Fault Refusal :=
  match i with
  | .sysStatus => Sys2Proof.Machine.execSysStatus s
  | .sysSetRate rate => Sys2Proof.Machine.execSysSetRate rate s
  | .sysInit => Sys2Proof.Machine.execSysInit s
  | .sysStep controls voices => Sys2Proof.Machine.execSysStep controls voices s
  | .lutConfig t minX maxX interval => Sys2Proof.Machine.execLutConfig t minX maxX interval s
  | .lutWrite t index value => Sys2Proof.Machine.execLutWrite t index value s
  | .lutEval t x => Sys2Proof.Machine.execLutEval t x s
  | .lutEvalv t x0 x1 x2 x3 => Sys2Proof.Machine.execLutEvalv t x0 x1 x2 x3 s
  | .cbReset c minSize => Sys2Proof.Machine.execCbReset c minSize s
  | .cbPush c value => Sys2Proof.Machine.execCbPush c value s
  | .cbWrat c offset value => Sys2Proof.Machine.execCbWrat c offset value s
  | .cbAddat c offset value => Sys2Proof.Machine.execCbAddat c offset value s
  | .cbRdi c delay => Sys2Proof.Machine.execCbRdi c delay s
  | .cbRdf c delay => Sys2Proof.Machine.execCbRdf c delay s
  | .bqClear c j => Sys2Proof.Machine.execBqClear c j s
  | .bqProc c j x => Sys2Proof.Machine.execBqProc c j x s
  | .bqSetBwLp2 c j fc => Sys2Proof.Machine.execBqSetBwLp2 c j fc s
  | .bqSetBwHp2 c j fc => Sys2Proof.Machine.execBqSetBwHp2 c j fc s
  | .bqSetLrLp2 c j fc => Sys2Proof.Machine.execBqSetLrLp2 c j fc s
  | .bqSetLrHp2 c j fc => Sys2Proof.Machine.execBqSetLrHp2 c j fc s
  | .bqSetAp1 c j fc => Sys2Proof.Machine.execBqSetAp1 c j fc s
  | .bqLoadc c j a0 a1 a2 b1 b2 c0 d0 => Sys2Proof.Machine.execBqLoadc c j a0 a1 a2 b1 b2 c0 d0 s
  | .bqProc4 c x => Sys2Proof.Machine.execBqProc4 c x s
  | .bqProcv g j x0 x1 x2 x3 => Sys2Proof.Machine.execBqProcv g j x0 x1 x2 x3 s
  | .cmpSetTimes c attack release => Sys2Proof.Machine.execCmpSetTimes c attack release s
  | .cmpSetCurve c threshold ratio => Sys2Proof.Machine.execCmpSetCurve c threshold ratio s
  | .cmpProc c x => Sys2Proof.Machine.execCmpProc c x s
  | .wsWrite k index value => Sys2Proof.Machine.execWsWrite k index value s
  | .wsEval k x => Sys2Proof.Machine.execWsEval k x s

end Sys2Proof.Machine
end

