-- ==== Sys2Proof/Machine/Flags.lean ====
section
/-! DEFINITION. Flags (R25). The block has no arithmetic condition codes: no command sets or reads a carry, zero,
sign or overflow flag. Its only status bits are `rateSet`, `inited`, the `valid` and `alloc` bits and the fault
record, each a field of State; what is computed from them stands here. -/

namespace Sys2Proof.Machine

/-- The block is halted: `SYS.fault.code` is not 0 (R263). -/
def halted (s : State) : Bool := decide (s.sys.fault.code ≠ 0#32)

end Sys2Proof.Machine
end

