-- ==== Sys2Proof/Machine/Fetch.lean ====
section
/-! DEFINITION. Taking the host's next event: a command is decoded and executed (R80, R89), or answered by a halted
block (R263); a hardware reset resets the block (R285). -/

namespace Sys2Proof.Machine

/-- The words the host issued after a command in one sequence are its next command (log 4). -/
def State.requeue (s : State) (rest : List Word) : State :=
  match rest with
  | [] => s
  | w :: ws => s.setPending (.command (w :: ws) :: s.pending)

/-- A halted block (R263): `SYS.STATUS` is executed; every other command is not decoded, changes no state, and is
answered with the latched code. -/
def serveHalted (w0 : Word) (rest : List Word) (s : State) : Answer State :=
  if w0 = Opcode.sysStatus.matchWord then exec .sysStatus (s.requeue rest)
  else .next (s.respond [s.sys.fault.code])

/-- A block that accepts commands (R88, R89): an illegal command raises `IllegalCommand(W0)`; an incomplete one is not
executed and changes nothing (log 3). -/
def serveDecoded (words : List Word) (s : State) : Answer State :=
  match decode words with
  | .command i rest => exec i (s.requeue rest)
  | .illegal w0 => raise (.illegalCommand w0) s
  | .incomplete => .next s

/-- One issued word sequence: halted comes before the decoder (R267). -/
def serve (words : List Word) (s : State) : Answer State :=
  match words with
  | [] => .next s
  | w0 :: rest => if halted s then serveHalted w0 rest s else serveDecoded (w0 :: rest) s

/-- The next event of the host; with none pending the block waits, unchanged (R280, R287; log 1). -/
def serveNext (s : State) : Answer State :=
  match s.pending with
  | [] => .next s
  | .hardwareReset :: es => .next (hardwareReset (s.setPending es))
  | .command words :: es => serve words (s.setPending es)

end Sys2Proof.Machine
end

