-- ==== Sys2Proof/Machine/Step.lean ====
section
/-! DEFINITION. One step of the block, and the host's way to hand it one command. -/

namespace Sys2Proof.Machine

/-- One step: the host's next event, to completion (R17, R300). -/
def step (s : State) : Host.Outcome State Fault Refusal := serveNext s

/-- `s` with one more command at the head of the host's events: the word sequence whose bits are the low `nbits` bits
of `w`, later operand words 0, up to the longest command. It stands for the host issuing that command (log 1). -/
def State.withFetchWord (s : State) (nbits w : Nat) : State :=
  s.setPending (.command (tableWords nbits w) :: s.pending)

end Sys2Proof.Machine
end

