-- ==== Sys2Proof/Safety.lean ====
section
/-! DEFINITION. What a good state is, in the terms the statements use: the invariants the spec gives the units (R27,
R32, R39, R40, R44), the bring-up order (R295), and the frames of a command. -/

namespace Sys2Proof.Machine

/-! ### Invariants -/

/-- The invariants of a CircularBuffer (R31, R32), with the canonical form of its memory (log 7). -/
def Ring.good (r : Ring) : Prop :=
  r.k ≤ Config.cbKmax ∧ r.writeIndex < r.length ∧ Mem.wf .ring r.buffer = true
    ∧ Mem.below r.length r.buffer = true ∧ Mem.allFinite r.buffer = true

/-- The invariant of a lookup table (R27), with the canonical form of its memory (log 7). -/
def Lut.good (t : Lut) : Prop :=
  Mem.wf .table t.samples = true ∧ Mem.below t.length t.samples = true
    ∧ (t.valid = true →
        headerOk t.minX t.maxX t.interval = true ∧ t.length = tableLength t.minX t.maxX t.interval
          ∧ 2 ≤ t.length ∧ t.length ≤ Config.lutLmax)

/-- The canonical form of a curve's memory (log 7), its indices below 4096 (R29). -/
def curveGood (m : Mem) : Prop := Mem.wf .curve m = true ∧ Mem.below Config.wsLen m = true

/-- A BiQuad section that names a design holds coefficients (R35). -/
def Biquad.good (q : Biquad) : Prop := q.kind ≠ none → q.coefHeld = true

/-- The ranges of a compressor's registers (R39), and the envelope floor (R40): once the envelope is held it is
0, as `SYS.INIT` leaves it, or at least `CMP_EPS`. -/
def Compressor.good (p : Params) (m : Compressor) : Prop :=
  m.divCount < p.cmpN
    ∧ (m.timesHeld = true → F32.isPositive m.attackTime = true ∧ F32.isPositive m.releaseTime = true)
    ∧ (m.curveHeld = true → F32.isFinite m.threshold = true ∧ F32.isPositive m.ratio = true)
    ∧ (m.envHeld = true →
        m.lastEnv = m.currentEnv ∧ (m.currentEnv = F32.zero ∨ F32.le p.cmpEps m.currentEnv = true))

/-- The sample memories and their headers are good (R27, R32; log 7). -/
def State.MemoryGood (s : State) : Prop :=
  (∀ t : TableId, (s.lut[t]).good) ∧ (∀ k : CurveId, curveGood s.ws[k]) ∧ ∀ c : Channel, (s.cb[c]).good

/-- The registers of every section and compressor are good (R35, R39, R40). -/
def State.UnitsGood (s : State) : Prop :=
  (∀ (c : Channel) (j : Slot), (s.getBq c j).good) ∧ ∀ c : Channel, (s.cmp[c]).good params

/-- What `SYS.SETRATE` establishes (R228) and every command keeps: the rate is positive, every compressor has it,
its times and its curve, and both DC-blockers hold coefficients. -/
def State.RateGood (s : State) : Prop :=
  s.sys.rateSet = true →
    F32.isPositive s.sys.sampleRate = true
      ∧ ∀ c : Channel,
        (s.cmp[c]).sampleRate = s.sys.sampleRate ∧ (s.cmp[c]).timesHeld = true ∧ (s.cmp[c]).curveHeld = true
          ∧ (s.getBq c 0).coefHeld = true ∧ (s.getBq c 1).coefHeld = true

/-- What `SYS.INIT` establishes (R230) and every command keeps: the rate is set, every ring is allocated, every
section's memory and every envelope is held. -/
def State.InitGood (s : State) : Prop :=
  s.sys.inited = true →
    s.sys.rateSet = true
      ∧ ∀ c : Channel,
        (s.cb[c]).alloc = true ∧ (s.cmp[c]).envHeld = true ∧ ∀ j : Slot, (s.getBq c j).memHeld = true

/-- The system registers are in range: `nch` in `0 .. 16` (R23), the fault code one of R261, no `info` without a
code (R262). -/
def State.SysGood (s : State) : Prop :=
  s.sys.nch ≤ Config.nchMax ∧ s.sys.fault.code.toNat ≤ 3
    ∧ (s.sys.fault.code = 0#32 → s.sys.fault.info = 0#32)

/-! ### Frames: what a command leaves as it was. `response` is the answer itself and is in no frame. -/

/-- The two states agree on the host's queue and on the count of draws. -/
def SameHost (s t : State) : Prop := t.pending = s.pending ∧ t.draws = s.draws

/-- Nothing but the answer changed: every register and every memory as before. -/
def SameButAnswer (s t : State) : Prop :=
  t.sys = s.sys ∧ t.lut = s.lut ∧ t.ws = s.ws ∧ t.cb = s.cb ∧ t.bq = s.bq ∧ t.cmp = s.cmp ∧ t.ks = s.ks
    ∧ SameHost s t

/-- Only the fault record and the answer changed (R262: "a faulting command changes no state except the fault
record"). -/
def FaultOnly (s t : State) (code info : Word) : Prop :=
  t.sys = { s.sys with fault := ⟨code, info⟩ } ∧ t.response = [code]
    ∧ t.lut = s.lut ∧ t.ws = s.ws ∧ t.cb = s.cb ∧ t.bq = s.bq ∧ t.cmp = s.cmp ∧ t.ks = s.ks ∧ SameHost s t

/-- Only table `t0` and the answer changed. -/
def OnlyLut (t0 : TableId) (s t : State) : Prop :=
  t.sys = s.sys ∧ (∀ u : TableId, u ≠ t0 → t.lut[u] = s.lut[u]) ∧ t.ws = s.ws ∧ t.cb = s.cb ∧ t.bq = s.bq
    ∧ t.cmp = s.cmp ∧ t.ks = s.ks ∧ SameHost s t

/-- Only curve `k` and the answer changed. -/
def OnlyWs (k : CurveId) (s t : State) : Prop :=
  t.sys = s.sys ∧ t.lut = s.lut ∧ (∀ u : CurveId, u ≠ k → t.ws[u] = s.ws[u]) ∧ t.cb = s.cb ∧ t.bq = s.bq
    ∧ t.cmp = s.cmp ∧ t.ks = s.ks ∧ SameHost s t

/-- Only the ring of channel `c` and the answer changed. -/
def OnlyCb (c : Channel) (s t : State) : Prop :=
  t.sys = s.sys ∧ t.lut = s.lut ∧ t.ws = s.ws ∧ (∀ u : Channel, u ≠ c → t.cb[u] = s.cb[u]) ∧ t.bq = s.bq
    ∧ t.cmp = s.cmp ∧ t.ks = s.ks ∧ SameHost s t

/-- Only section `j` of channel `c` and the answer changed. -/
def OnlyBq (c : Channel) (j : Slot) (s t : State) : Prop :=
  t.sys = s.sys ∧ t.lut = s.lut ∧ t.ws = s.ws ∧ t.cb = s.cb
    ∧ (∀ (u : Channel) (i : Slot), (u, i) ≠ (c, j) → t.getBq u i = s.getBq u i)
    ∧ t.cmp = s.cmp ∧ t.ks = s.ks ∧ SameHost s t

/-- Only the compressor of channel `c` and the answer changed. -/
def OnlyCmp (c : Channel) (s t : State) : Prop :=
  t.sys = s.sys ∧ t.lut = s.lut ∧ t.ws = s.ws ∧ t.cb = s.cb ∧ t.bq = s.bq
    ∧ (∀ u : Channel, u ≠ c → t.cmp[u] = s.cmp[u]) ∧ t.ks = s.ks ∧ SameHost s t

/-- The memory `xz1, xz2, yz1, yz2` of a section, and whether it is held. -/
def Biquad.memory (q : Biquad) : Sample × Sample × Sample × Sample × Bool := (q.xz1, q.xz2, q.yz1, q.yz2, q.memHeld)

/-! ### Selectors and readiness -/

/-- `SEL` of a row is below this (R84); the rows whose mask fixes `SEL` need no limit of their own. -/
def selLimit : Opcode → Nat
  | .lutConfig | .lutWrite | .lutEval | .lutEvalv => 8
  | .bqProcv => 4
  | _ => 16

/-- `SUB` of a row is below this (R84): a slot for the BQ rows that hold one. -/
def subLimit : Opcode → Nat
  | .bqClear | .bqProc | .bqSetBwLp2 | .bqSetBwHp2 | .bqSetLrLp2 | .bqSetLrHp2 | .bqSetAp1 | .bqLoadc | .bqProcv => 4
  | _ => 256

/-- The design command of each design id (R160 to R164). -/
def designCommand (k : Design) (c : Channel) (j : Slot) (fc : Word) : Instr :=
  match k with
  | .bwlp2 => .bqSetBwLp2 c j fc
  | .bwhp2 => .bqSetBwHp2 c j fc
  | .lrlp2 => .bqSetLrLp2 c j fc
  | .lrhp2 => .bqSetLrHp2 c j fc
  | .ap1 => .bqSetAp1 c j fc

/-- What the configuration binds open functions to is loaded (R218, R233): `LUT[4]` where `KS_UTUNE` is bound to it,
every cell of the curve that `KS_SAT` is bound to (log 12). -/
def BindingsLoaded (s : State) : Prop :=
  (params.ksUtuneBound = true → (s.lut[(4 : TableId)]).valid = true ∧ 2 ≤ (s.lut[(4 : TableId)]).length)
    ∧ ∀ k, params.ksSatCurve = some k → curveGood s.ws[k] ∧ ∀ i, i < Config.wsLen → Mem.read .curve s.ws[k] i ≠ none

/-- Channel `c` can take part in a `SYS.STEP` with these operands (R121, R152, R186, R233): what open functions are
bound to is loaded, the POW2 table gives a number for its pitch, its ring is allocated with two cells or more, its
DC-blockers and its compressor hold their values, and its glide state is finite. -/
def StepReady (s : State) (controls : StepControls) (c : Channel) (v : VoiceIn) : Prop :=
  BindingsLoaded s
    ∧ (s.lut[(1 : TableId)]).valid = true
    ∧ (∃ y, (s.lut[(1 : TableId)]).evalScalar ((frameEnv params controls s).pitch v) = .next y
        ∧ F32.isNaN y = false)
    ∧ (s.cb[c]).alloc = true ∧ (s.cb[c]).good ∧ 2 ≤ (s.cb[c]).length
    ∧ ((s.getBq c 0).coefHeld = true ∧ (s.getBq c 0).memHeld = true)
    ∧ ((s.getBq c 1).coefHeld = true ∧ (s.getBq c 1).memHeld = true)
    ∧ ((s.cmp[c]).timesHeld = true ∧ (s.cmp[c]).curveHeld = true ∧ (s.cmp[c]).envHeld = true)
    ∧ F32.isFinite (s.ks[c]).glide = true

/-- A block that has not faulted: a correct command sequence reaches no halted state (R263). -/
def Safe (s : State) : Prop := halted s = false

end Sys2Proof.Machine
end

