-- ==== Sys2Proof/Certificates/Slice0/Obligations.lean ====
section
/-! DEFINITION. The statements for the provers. `t` is the state after the command, `t.response` its answer
(`ST, R1, ..`); the frames (`OnlyCb` and the like) and the invariants are those of `Safety.lean`. -/

open Sys2Proof Sys2Proof.Machine

/-! ### Encoding -/

/-- Every command's words, whatever follows them, decode to that command (R81, R83, R84, R86). -/
def Obligations.DecodeEncodeRoundTrip : Prop :=
  ∀ (i : Instr) (rest : List Word), i.wellFormed = true → decode (encode i ++ rest) = .command i rest

/-- The decoder answers a command only for that command's own words: no second encoding, no bit ignored (R87, R88). -/
def Obligations.DecodeOnlyEncodings : Prop :=
  ∀ (ws rest : List Word) (i : Instr), decode ws = .command i rest → ws = encode i ++ rest ∧ i.wellFormed = true

/-- R88: which command words are illegal, and what an illegal command does. -/
def Obligations.IllegalCommands : Prop :=
  (∀ (w v : Word) (ws : List Word), decode (w :: ws) = .illegal v ↔
    v = w
      ∧ ((∀ o ∈ Opcode.all, w &&& o.mask ≠ o.matchWord)
        ∨ (∃ o ∈ Opcode.all, w &&& o.mask = o.matchWord
            ∧ (selLimit o ≤ selField w ∨ subLimit o ≤ subField w))
        ∨ (w = 0x03000000#32 ∧ ∃ nch rest, ws = nch :: rest ∧ 16 < nch.toNat)))
  ∧ ∀ (s : State) (ws : List Word) (w : Word) (es : List HostEvent),
      s.pending = .command ws :: es → halted s = false → decode ws = .illegal w →
        ∃ t, step s = .next t ∧ FaultOnly (s.setPending t.pending) t 1#32 w

/-- R87: no command word matches two rows of the opcode map. -/
def Obligations.OpcodeRowsDisjoint : Prop :=
  ∀ (o₁ o₂ : Opcode) (w : Word), w &&& o₁.mask = o₁.matchWord → w &&& o₂.mask = o₂.matchWord → o₁ = o₂

/-- Words written out from the spec's encodings decode to what they stand for (R86, R90, R226, R228, R233, R265). -/
def Obligations.WrittenWordsDecode : Prop :=
  decode [0x25030000#32, 0x41480000#32] = .command (.cbRdf 3 0x41480000#32) []
  ∧ decode [0x01000000#32, 0x473B8000#32] = .command (.sysSetRate 0x473B8000#32) []
  ∧ decode [0x00000000#32] = .command .sysStatus []
  ∧ decode [0x03000000#32, 1#32, 0#32, 0#32, 0x3F000000#32, 0#32, 0#32, 0#32, 0#32, 0#32, 0#32, 0x3F800000#32]
      = .command (.sysStep ⟨0#32, 0#32, 0x3F000000#32, 0#32, 0#32, 0#32, 0#32, 0#32⟩ [⟨0#32, 0x3F800000#32⟩]) []
  ∧ decode [0x12070000#32, 0#32] = .command (.lutEval 7 0#32) []
  ∧ decode [0x48050200#32, 0x3F800000#32] = .command (.bqProc4 5 0x3F800000#32) []
  ∧ decode [0x52020000#32, 0x3F000000#32] = .command (.cmpProc 2 0x3F000000#32) []
  ∧ decode [0x600F0000#32, 4095#32, 0x3F800000#32] = .command (.wsWrite 15 4095#32 0x3F800000#32) []
  ∧ decode [0x48050300#32, 0x3F800000#32] = .illegal 0x48050300#32

/-- A command stream carried as little-endian bytes comes out as the same words (R65, D28; log 30). -/
def Obligations.ByteTransportRoundTrip : Prop :=
  ∀ ws : List Word, wordsOfBytes (bytesOfWords ws) = ws

/-! ### The host's events, the halted state, reset -/

/-- A step runs the decoded command; what follows it in the same word sequence waits as the next command (log 4). -/
def Obligations.StepRunsDecoded : Prop :=
  ∀ (s : State) (ws rest : List Word) (es : List HostEvent) (i : Instr),
    s.pending = .command ws :: es → halted s = false → decode ws = .command i rest →
      step s = exec i (s.setPending (if rest = [] then es else .command rest :: es))

/-- R263: a halted block answers every command but `SYS.STATUS` with the latched code and changes nothing; it still
executes `SYS.STATUS` (R265). -/
def Obligations.HaltedBlockAnswers : Prop :=
  ∀ (s : State) (w : Word) (ws : List Word) (es : List HostEvent),
    s.pending = .command (w :: ws) :: es → halted s = true →
      (w ≠ 0#32 → ∃ t, step s = .next t ∧ t.response = [s.sys.fault.code]
        ∧ SameButAnswer (s.setPending t.pending) t)
      ∧ (w = 0#32 → ∃ t, step s = .next t ∧ t.response = [0#32, s.sys.fault.code, s.sys.fault.info]
        ∧ SameButAnswer (s.setPending t.pending) t)

/-- The model's choice (log 4): a command that the halted block or the decoder rejects takes the rest of its word
sequence with it; after the `SYS.STATUS` of a halted block the rest waits as the next command. -/
def Obligations.QueueAfterRejection : Prop :=
  ∀ (s : State) (w : Word) (ws : List Word) (es : List HostEvent),
    s.pending = .command (w :: ws) :: es →
      (halted s = true → w ≠ 0#32 → ∃ t, step s = .next t ∧ t.pending = es)
      ∧ (halted s = true → w = 0#32 →
        ∃ t, step s = .next t ∧ t.pending = if ws = [] then es else .command ws :: es)
      ∧ (halted s = false → (∃ v, decode (w :: ws) = .illegal v) → ∃ t, step s = .next t ∧ t.pending = es)

/-- R262, R269: the fault record is written once, by a command of a block that is not halted, and only hardware reset
clears it. -/
def Obligations.FaultRecordChanges : Prop :=
  ∀ s t : State, step s = .next t →
    t.sys.fault = s.sys.fault
    ∨ (halted s = false ∧ halted t = true)
    ∨ (t.sys.fault = ⟨0#32, 0#32⟩ ∧ ∃ es, s.pending = .hardwareReset :: es)

/-- What the event of hardware reset leaves (R285): nothing set, inited, valid, allocated or held, no fault (logs 5
and 6); the host's later events and the draws stay, which is the model's choice (log 20). -/
def Obligations.HardwareResetLeaves : Prop :=
  ∀ (s : State) (es : List HostEvent), s.pending = .hardwareReset :: es →
    ∃ t, step s = .next t ∧ t.pending = es ∧ t.draws = s.draws
      ∧ t.sys.rateSet = false ∧ t.sys.inited = false ∧ t.sys.nch = 0 ∧ t.sys.fault = ⟨0#32, 0#32⟩
      ∧ (∀ l : TableId, (t.lut[l]).valid = false)
      ∧ (∀ (k : CurveId) (i : Nat), Mem.read .curve t.ws[k] i = none)
      ∧ (∀ c : Channel, (t.cb[c]).alloc = false
          ∧ ((t.cmp[c]).timesHeld = false ∧ (t.cmp[c]).curveHeld = false ∧ (t.cmp[c]).envHeld = false)
          ∧ ∀ j : Slot, (t.getBq c j).coefHeld = false ∧ (t.getBq c j).memHeld = false
              ∧ (t.getBq c j).kind = none)

/-- R285: what hardware reset gives a value has it in the state after reset; no other field or cell holds a value,
which the held bits, `inited` and the unlisted cells say (log 6). The block accepts commands (R287). -/
def Obligations.ResetStateHolds : Prop :=
  halted State.reset = false ∧ State.reset.pending = []
    ∧ State.reset.sys.rateSet = false ∧ State.reset.sys.inited = false ∧ State.reset.sys.nch = 0
    ∧ State.reset.sys.fault = ⟨0#32, 0#32⟩
    ∧ (∀ l : TableId, (State.reset.lut[l]).valid = false)
    ∧ (∀ (k : CurveId) (i : Nat), Mem.read .curve State.reset.ws[k] i = none)
    ∧ ∀ c : Channel, (State.reset.cb[c]).alloc = false
        ∧ ((State.reset.cmp[c]).timesHeld = false ∧ (State.reset.cmp[c]).curveHeld = false
          ∧ (State.reset.cmp[c]).envHeld = false)
        ∧ ∀ j : Slot, (State.reset.getBq c j).coefHeld = false ∧ (State.reset.getBq c j).memHeld = false

/-- With no event pending the block waits (R287; log 1); an incomplete command changes nothing and gets no answer
(R89; log 3). -/
def Obligations.IdleAndIncomplete : Prop :=
  (∀ s : State, s.pending = [] → step s = .next s)
  ∧ ∀ (s : State) (ws : List Word) (es : List HostEvent),
      s.pending = .command ws :: es → halted s = false → decode ws = .incomplete →
        step s = .next (s.setPending es)

/-- R80, R262: a command that goes on either completes with `ST = 0` and keeps the fault record, or raises one fault
of R261 and changes nothing else. -/
def Obligations.CommandsArePrecise : Prop :=
  ∀ (i : Instr) (s t : State), exec i s = .next t →
    t.pending = s.pending
      ∧ ((∃ rs, t.response = 0#32 :: rs ∧ t.sys.fault = s.sys.fault)
        ∨ ∃ f : Cause, FaultOnly s t f.code f.info)

/-- R261, the columns "cause" and "raised by": which command can raise which fault, and the condition on the state and
the operands under which it does. A lane is out of range by R302 or by R108 (both where they differ: DEDUCED, log 21);
that a `SYS.STEP` of more than 16 voices reaches `exec` at all is log 28. -/
def Obligations.FaultSources : Prop :=
  ∀ (i : Instr) (s t : State) (code : Word), exec i s = .next t → t.response = [code] → code ≠ 0#32 →
    (code = 1#32 ∧ t.sys.fault.info = 0x03000000#32 ∧ ∃ p vs, i = .sysStep p vs ∧ 16 < vs.length)
    ∨ (code = 2#32 ∧ t.sys.fault.info = 1#32 ∧ ∃ l lo hi iv, i = .lutConfig l lo hi iv
        ∧ (F32.isFinite lo = false ∨ F32.isFinite hi = false ∨ F32.isFinite iv = false ∨ F32.lt lo hi = false
          ∨ F32.lt F32.zero iv = false ∨ 65535 * F32.toUnits iv < F32.toUnits hi - F32.toUnits lo))
    ∨ (code = 2#32 ∧ t.sys.fault.info = 2#32 ∧ ∃ l : TableId, (s.lut[l]).valid = false
        ∧ ((∃ a b, i = .lutWrite l a b) ∨ (∃ x, i = .lutEval l x) ∨ ∃ x0 x1 x2 x3, i = .lutEvalv l x0 x1 x2 x3))
    ∨ (code = 2#32 ∧ t.sys.fault.info = 3#32 ∧ ∃ l a b, i = .lutWrite l a b ∧ (s.lut[l]).valid = true
        ∧ (s.lut[l]).length ≤ u32 a)
    ∨ (code = 2#32 ∧ t.sys.fault.info = 4#32
        ∧ ((i = .sysInit ∧ 2 ^ 20 < F32.floor (F32.div s.sys.sampleRate Config.ksFmin) + 2)
          ∨ ∃ c n, i = .cbReset c n ∧ 2 ^ 20 < u32 n))
    ∨ (code = 2#32 ∧ t.sys.fault.info = 5#32 ∧ ∃ k a b, i = .wsWrite k a b ∧ 4096 ≤ u32 a)
    ∨ (code = 3#32 ∧ ∃ (l : TableId) (x : Fin 4 → Word) (j : Fin 4), i = .lutEvalv l (x 0) (x 1) (x 2) (x 3)
        ∧ t.sys.fault.info = BitVec.ofNat 32 (l.val * 256 + j.val) ∧ (s.lut[l]).valid = true
        ∧ let T := s.lut[l]
          let q := fun k : Fin 4 => F32.div (F32.sub (x k) T.minX) T.interval
          let n := fun k : Fin 4 => F32.toUnits (x k) - F32.toUnits T.minX
          let out := fun k : Fin 4 => (n k < 0 ∨ ((T.length : Int) - 1) * F32.toUnits T.interval ≤ n k)
            ∨ F32.isFinite (q k) = true ∧ (F32.floor (q k) < 0 ∨ (T.length : Int) - 2 < F32.floor (q k))
          out j ∧ ∀ k, k < j → ¬out k)

/-! ### CircularBuffer -/

/-- R124: `CB.RESET` takes the least power of two not below the request (R16), clears every cell and puts the head at
0; a request above `2 ^ 20` faults and changes nothing. -/
def Obligations.CbResetResult : Prop :=
  ∀ (s : State) (c : Channel) (n : Word),
    (u32 n ≤ 2 ^ 20 → ∃ t k, exec (.cbReset c n) s = .next t
      ∧ u32 n ≤ 2 ^ k ∧ (∀ j, u32 n ≤ 2 ^ j → k ≤ j)
      ∧ t.response = [0#32, BitVec.ofNat 32 (2 ^ k)]
      ∧ (t.cb[c]).alloc = true ∧ (t.cb[c]).k = k ∧ (t.cb[c]).length = 2 ^ k ∧ (t.cb[c]).wrapMask = 2 ^ k - 1
      ∧ (t.cb[c]).writeIndex = 0 ∧ (∀ i, (t.cb[c]).cellAt i = F32.zero)
      ∧ (∀ d : Int, (t.cb[c]).readAt d = F32.zero) ∧ OnlyCb c s t)
    ∧ (2 ^ 20 < u32 n → ∃ t, exec (.cbReset c n) s = .next t ∧ FaultOnly s t 2#32 4#32)

/-- R126: `CB.PUSH` moves the head by one and stores the sanitised value there; every older sample is one further
behind, no other cell changes. -/
def Obligations.CbPushResult : Prop :=
  ∀ (s : State) (c : Channel) (v : Word), (s.cb[c]).alloc = true →
    ∃ t, exec (.cbPush c v) s = .next t ∧ t.response = [0#32]
      ∧ (t.cb[c]).alloc = true ∧ (t.cb[c]).k = (s.cb[c]).k
      ∧ (t.cb[c]).writeIndex = ((s.cb[c]).writeIndex + 1) % (s.cb[c]).length
      ∧ (t.cb[c]).readAt 0 = (if F32.isFinite v then v else F32.zero)
      ∧ (∀ d : Int, 0 ≤ d → d ≤ (s.cb[c]).length - 2 → (t.cb[c]).readAt (d + 1) = (s.cb[c]).readAt d)
      ∧ (∀ i, i ≠ ((s.cb[c]).writeIndex + 1) % (s.cb[c]).length → (t.cb[c]).cellAt i = (s.cb[c]).cellAt i)
      ∧ OnlyCb c s t

/-- R128: `CB.WRAT` stores the sanitised value at the offset, any integer; the head does not move. -/
def Obligations.CbWratResult : Prop :=
  ∀ (s : State) (c : Channel) (d v : Word), (s.cb[c]).alloc = true →
    ∃ t, exec (.cbWrat c d v) s = .next t ∧ t.response = [0#32]
      ∧ (t.cb[c]).alloc = true ∧ (t.cb[c]).k = (s.cb[c]).k ∧ (t.cb[c]).writeIndex = (s.cb[c]).writeIndex
      ∧ (t.cb[c]).readAt d.toInt = (if F32.isFinite v then v else F32.zero)
      ∧ (∀ e : Int, e % (s.cb[c]).length ≠ d.toInt % (s.cb[c]).length →
          (t.cb[c]).readAt e = (s.cb[c]).readAt e)
      ∧ (∀ i, i ≠ (s.cb[c]).cell d.toInt → (t.cb[c]).cellAt i = (s.cb[c]).cellAt i)
      ∧ OnlyCb c s t

/-- R130: `CB.ADDAT` stores the sanitised sum at the offset. -/
def Obligations.CbAddatResult : Prop :=
  ∀ (s : State) (c : Channel) (d v : Word), (s.cb[c]).alloc = true →
    ∃ t, exec (.cbAddat c d v) s = .next t ∧ t.response = [0#32]
      ∧ (t.cb[c]).alloc = true ∧ (t.cb[c]).k = (s.cb[c]).k ∧ (t.cb[c]).writeIndex = (s.cb[c]).writeIndex
      ∧ (t.cb[c]).readAt d.toInt = F32.sanitize (F32.add ((s.cb[c]).readAt d.toInt) v)
      ∧ F32.isFinite ((t.cb[c]).readAt d.toInt) = true
      ∧ (∀ e : Int, e % (s.cb[c]).length ≠ d.toInt % (s.cb[c]).length →
          (t.cb[c]).readAt e = (s.cb[c]).readAt e)
      ∧ (∀ i, i ≠ (s.cb[c]).cell d.toInt → (t.cb[c]).cellAt i = (s.cb[c]).cellAt i)
      ∧ OnlyCb c s t

/-- R132, R64: `CB.RDI` returns the cell `(writeIndex - delay) mod length` for every signed delay, so that delays
equal modulo the length return the same; nothing changes. -/
def Obligations.CbRdiResult : Prop :=
  ∀ (s : State) (c : Channel) (d : Word), (s.cb[c]).alloc = true →
    (∃ t, exec (.cbRdi c d) s = .next t
      ∧ t.response = [0#32, (s.cb[c]).cellAt
          ((((s.cb[c]).writeIndex : Int) - d.toInt) % ((s.cb[c]).length : Int)).toNat]
      ∧ SameButAnswer s t)
    ∧ ((s.cb[c]).good → F32.isFinite ((s.cb[c]).readAt d.toInt) = true)
    ∧ ∀ (d' : Word) (m : Int), d'.toInt = d.toInt + m * (s.cb[c]).length →
        exec (.cbRdi c d') s = exec (.cbRdi c d) s

/-- R134: a fractional read at a finite delay `>= 0` interpolates between `floor(delay)` and one more. -/
def Obligations.CbRdfResult : Prop :=
  ∀ (s : State) (c : Channel) (d : Word), (s.cb[c]).alloc = true → F32.isFinite d = true →
    F32.le F32.zero d = true →
      ∃ t, exec (.cbRdf c d) s = .next t ∧ 0 ≤ F32.floor d
        ∧ t.response = [0#32, F32.lerp ((s.cb[c]).readAt (F32.floor d)) ((s.cb[c]).readAt (F32.floor d + 1))
            (F32.sub d (F32.i2s (F32.floor d)))]
        ∧ SameButAnswer s t

/-- R134 (i), R137 (L5), in binary32 (log 21): at an integer delay the fractional read returns the cell itself, but
for a cell that is `-0` or a neighbour so far off that the difference overflows. -/
def Obligations.CbRdfAtInteger : Prop :=
  ∀ (s : State) (c : Channel) (n : Nat), n < 2 ^ 24 → (s.cb[c]).alloc = true →
    F32.isFinite ((s.cb[c]).readAt n) = true → (s.cb[c]).readAt n ≠ 0x80000000#32 →
    F32.isFinite (F32.sub ((s.cb[c]).readAt (n + 1)) ((s.cb[c]).readAt n)) = true →
      ∃ t, exec (.cbRdf c (F32.i2s n)) s = .next t ∧ t.response = [0#32, (s.cb[c]).readAt n] ∧ SameButAnswer s t

/-- R121, R134 (vi): where the CB commands are outside every rule and refused. -/
def Obligations.CbRefusals : Prop :=
  ∀ (s : State) (c : Channel) (d v : Word),
    ((s.cb[c]).alloc = false →
      exec (.cbPush c v) s = .refused .notAllocated ∧ exec (.cbWrat c d v) s = .refused .notAllocated
        ∧ exec (.cbAddat c d v) s = .refused .notAllocated ∧ exec (.cbRdi c d) s = .refused .notAllocated
        ∧ exec (.cbRdf c d) s = .refused .notAllocated)
    ∧ ((s.cb[c]).alloc = true → (F32.isFinite d = false ∨ F32.le F32.zero d = false) →
        exec (.cbRdf c d) s = .refused .delayOutsideDomain)

/-! ### LookupTable -/

/-- R102: `LUT.CONFIG` accepts a header exactly when R102 does; its length `L` is the least with
`(L - 1) * interval >= maxX - minX`, over the exact values (in units of `2 ^ -149`); every sample becomes 0. -/
def Obligations.LutConfigResult : Prop :=
  ∀ (s : State) (l : TableId) (lo hi iv : Word),
    let ok := F32.isFinite lo = true ∧ F32.isFinite hi = true ∧ F32.isFinite iv = true
      ∧ F32.lt lo hi = true ∧ F32.lt F32.zero iv = true
      ∧ F32.toUnits hi - F32.toUnits lo ≤ 65535 * F32.toUnits iv
    (ok → ∃ (t : State) (L : Nat), exec (.lutConfig l lo hi iv) s = .next t
      ∧ 2 ≤ L ∧ L ≤ 65536
      ∧ F32.toUnits hi - F32.toUnits lo ≤ ((L : Int) - 1) * F32.toUnits iv
      ∧ ((L : Int) - 2) * F32.toUnits iv < F32.toUnits hi - F32.toUnits lo
      ∧ t.response = [0#32, BitVec.ofNat 32 L]
      ∧ (t.lut[l]).valid = true ∧ (t.lut[l]).minX = lo ∧ (t.lut[l]).maxX = hi ∧ (t.lut[l]).interval = iv
      ∧ (t.lut[l]).length = L ∧ (∀ i, Mem.read .table (t.lut[l]).samples i = some F32.zero)
      ∧ OnlyLut l s t)
    ∧ (¬ok → ∃ t, exec (.lutConfig l lo hi iv) s = .next t ∧ FaultOnly s t 2#32 1#32)

/-- R104: `LUT.WRITE` stores the value as given in one cell of a valid table; an empty table, then an index past the
end, fault. -/
def Obligations.LutWriteResult : Prop :=
  ∀ (s : State) (l : TableId) (i v : Word),
    ((s.lut[l]).valid = false → ∃ t, exec (.lutWrite l i v) s = .next t ∧ FaultOnly s t 2#32 2#32)
    ∧ ((s.lut[l]).valid = true → (s.lut[l]).length ≤ u32 i →
        ∃ t, exec (.lutWrite l i v) s = .next t ∧ FaultOnly s t 2#32 3#32)
    ∧ ((s.lut[l]).valid = true → u32 i < (s.lut[l]).length →
        ∃ t, exec (.lutWrite l i v) s = .next t ∧ t.response = [0#32]
          ∧ Mem.read .table (t.lut[l]).samples (u32 i) = some v
          ∧ (∀ j, j ≠ u32 i → Mem.read .table (t.lut[l]).samples j = Mem.read .table (s.lut[l]).samples j)
          ∧ (t.lut[l]).valid = true ∧ (t.lut[l]).minX = (s.lut[l]).minX ∧ (t.lut[l]).maxX = (s.lut[l]).maxX
          ∧ (t.lut[l]).interval = (s.lut[l]).interval ∧ (t.lut[l]).length = (s.lut[l]).length
          ∧ OnlyLut l s t)

/-- R106: `LUT.EVAL` interpolates between the cells at the clamped index and the next one, with the fraction of the
unclamped quotient; a table never configured faults, whatever the operand: for an operand that is not finite that is
the model's reading (DEDUCED, log 18). The index is the pseudocode's also where the quotient rounds up (log 21). -/
def Obligations.LutEvalResult : Prop :=
  ∀ (s : State) (l : TableId) (x : Word),
    let T := s.lut[l]
    let q := F32.div (F32.sub x T.minX) T.interval
    let i := min (max (F32.floor q) 0) ((T.length : Int) - 2)
    (T.valid = false → ∃ t, exec (.lutEval l x) s = .next t ∧ FaultOnly s t 2#32 2#32)
    ∧ (T.valid = true → 2 ≤ T.length → F32.isFinite x = true → F32.isFinite q = true →
        ∃ (t : State) (a b : Sample), exec (.lutEval l x) s = .next t
          ∧ Mem.read .table T.samples i.toNat = some a ∧ Mem.read .table T.samples (i.toNat + 1) = some b
          ∧ t.response = [0#32, F32.lerp a b (F32.sub q (F32.i2s (F32.floor q)))]
          ∧ SameButAnswer s t)

/-- Where a quotient or a scaled abscissa is not finite although the operand is (log 16, the model's choice):
`LUT.EVAL` and `WS.EVAL` still answer. The table index is that of the interval the operand lies in over the real
numbers, clamped; in `[minX, maxX)` the clamp does nothing (R106 (i)), and where it does nothing the fraction is that
of the interpolant, rounded once; elsewhere the fraction is free. The curve index stays even and at most 4094. -/
def Obligations.OverflowedQuotients : Prop :=
  ∀ (s : State) (l : TableId) (k : CurveId) (x : Word), F32.isFinite x = true →
    let T := s.lut[l]
    let q := F32.div (F32.sub x T.minX) T.interval
    let n := F32.toUnits x - F32.toUnits T.minX
    let d := F32.toUnits T.interval
    (T.good → T.valid = true → F32.isFinite q = false →
      let i := min (max (n / d) 0) ((T.length : Int) - 2)
      ∃ (t : State) (a b f : Sample), exec (.lutEval l x) s = .next t
        ∧ Mem.read .table T.samples i.toNat = some a ∧ Mem.read .table T.samples (i.toNat + 1) = some b
        ∧ t.response = [0#32, F32.lerp a b f] ∧ SameButAnswer s t
        ∧ (F32.le T.minX x = true → F32.lt x T.maxX = true → 0 ≤ n / d ∧ n / d ≤ (T.length : Int) - 2)
        ∧ (0 ≤ n / d → n / d ≤ (T.length : Int) - 2 →
            f = F32.pack false (F32.roundMag ((n % d).toNat * 2 ^ 149) d.toNat)))
    ∧ (curveGood s.ws[k] → (∀ i, i < 4096 → Mem.read .curve s.ws[k] i ≠ none) →
      ∃ (t : State) (idx : Nat) (a b f : Sample), exec (.wsEval k x) s = .next t
        ∧ idx % 2 = 0 ∧ idx ≤ 4094
        ∧ Mem.read .curve s.ws[k] idx = some a ∧ Mem.read .curve s.ws[k] (idx + 1) = some b
        ∧ t.response = [0#32, F32.lerp a b f] ∧ SameButAnswer s t)

/-- R108: `LUT.EVALV` answers four in-range lanes with what `LUT.EVAL` gives for each, and faults on the lowest lane
out of range (R267). A lane is out of range outside `[minX, minX + (length - 1) * interval)` over the real numbers (R302),
and where `floor(q) < 0` or `floor(q) > length - 2` for a finite `q` (R108); that both tests are made where rounding sets
them apart is the model's reading (DEDUCED, log 21). That `LUT_EMPTY` comes before an operand that is not finite is
log 18. -/
def Obligations.LutEvalvResult : Prop :=
  ∀ (s : State) (l : TableId) (x : Fin 4 → Word),
    let T := s.lut[l]
    let i := Instr.lutEvalv l (x 0) (x 1) (x 2) (x 3)
    let q := fun j : Fin 4 => F32.div (F32.sub (x j) T.minX) T.interval
    let n := fun j : Fin 4 => F32.toUnits (x j) - F32.toUnits T.minX
    let out := fun j : Fin 4 => (n j < 0 ∨ ((T.length : Int) - 1) * F32.toUnits T.interval ≤ n j)
      ∨ F32.isFinite (q j) = true ∧ (F32.floor (q j) < 0 ∨ (T.length : Int) - 2 < F32.floor (q j))
    (T.valid = false → ∃ t, exec i s = .next t ∧ FaultOnly s t 2#32 2#32)
    ∧ (T.valid = true → (∀ j, F32.isFinite (x j) = true) →
        (∀ j, out j → (∀ k, k < j → ¬out k) →
          ∃ t, exec i s = .next t ∧ FaultOnly s t 3#32 (BitVec.ofNat 32 (l.val * 256 + j.val)))
        ∧ (2 ≤ T.length → (∀ j, ¬out j) →
          ∃ (t : State) (y : Fin 4 → Word) (u : Fin 4 → State), exec i s = .next t
            ∧ (∀ j, exec (.lutEval l (x j)) s = .next (u j) ∧ (u j).response = [0#32, y j])
            ∧ t.response = [0#32, y 0, y 1, y 2, y 3] ∧ SameButAnswer s t))

/-! ### BiQuad -/

/-- R152: `BQ.PROC` is the recurrence over two past inputs and two past outputs; no coefficient changes. -/
def Obligations.BqProcResult : Prop :=
  ∀ (s : State) (c : Channel) (j : Slot) (x : Word),
    let q := s.getBq c j
    let yn := F32.sub (F32.sub (F32.add (F32.add (F32.mul q.a0 x) (F32.mul q.a1 q.xz1)) (F32.mul q.a2 q.xz2))
      (F32.mul q.b1 q.yz1)) (F32.mul q.b2 q.yz2)
    q.coefHeld = true → q.memHeld = true →
      ∃ t, exec (.bqProc c j x) s = .next t
        ∧ t.response = [0#32, F32.add (F32.mul q.c0 yn) (F32.mul q.d0 x)]
        ∧ t.getBq c j = { q with xz2 := q.xz1, xz1 := x, yz2 := q.yz1, yz1 := yn }
        ∧ OnlyBq c j s t

/-- R154: `BQ.CLEAR` zeroes the memory and nothing else. -/
def Obligations.BqClearResult : Prop :=
  ∀ (s : State) (c : Channel) (j : Slot),
    ∃ t, exec (.bqClear c j) s = .next t ∧ t.response = [0#32]
      ∧ t.getBq c j = { s.getBq c j with
          xz1 := F32.zero, xz2 := F32.zero, yz1 := F32.zero, yz2 := F32.zero, memHeld := true }
      ∧ OnlyBq c j s t

/-- R156: `BQ.LOADC` loads the seven coefficients and forgets the design; the memory is untouched. -/
def Obligations.BqLoadcResult : Prop :=
  ∀ (s : State) (c : Channel) (j : Slot) (a0 a1 a2 b1 b2 c0 d0 : Word),
    ∃ t, exec (.bqLoadc c j a0 a1 a2 b1 b2 c0 d0) s = .next t ∧ t.response = [0#32]
      ∧ t.getBq c j = { s.getBq c j with
          a0 := a0, a1 := a1, a2 := a2, b1 := b1, b2 := b2, c0 := c0, d0 := d0, coefHeld := true, kind := none }
      ∧ OnlyBq c j s t

/-- R158, for each of `BQ.SETBWLP2`, `BQ.SETBWHP2`, `BQ.SETLRLP2`, `BQ.SETLRHP2`, `BQ.SETAP1`: the cutoff is clamped;
a section already so designed stays; otherwise it takes the design's coefficients, fully wet, its memory untouched. -/
def Obligations.BqSetResult : Prop :=
  ∀ (s : State) (c : Channel) (j : Slot) (fc : Word) (k : Design) (i : Instr),
    ((k = .bwlp2 ∧ i = .bqSetBwLp2 c j fc) ∨ (k = .bwhp2 ∧ i = .bqSetBwHp2 c j fc)
      ∨ (k = .lrlp2 ∧ i = .bqSetLrLp2 c j fc) ∨ (k = .lrhp2 ∧ i = .bqSetLrHp2 c j fc)
      ∨ (k = .ap1 ∧ i = .bqSetAp1 c j fc)) →
    s.sys.rateSet = true → F32.isFinite fc = true → F32.lt F32.zero fc = true →
    let rate := s.sys.sampleRate
    let fcl := F32.min fc (F32.mul Config.nyqGuard (F32.div rate F32.two))
    let q := s.getBq c j
    let same := q.kind = some k ∧ F32.eq q.lastRate rate = true
      ∧ F32.le (F32.abs (F32.sub fcl q.lastFc)) params.recompTol = true
    let d := bqDesign params k fcl rate
    ∃ t, exec i s = .next t ∧ t.response = [0#32] ∧ OnlyBq c j s t
      ∧ (same → t.getBq c j = q)
      ∧ (¬same → t.getBq c j = { q with
          a0 := d.a0, a1 := d.a1, a2 := d.a2, b1 := d.b1, b2 := d.b2, c0 := F32.one, d0 := F32.zero
          coefHeld := true, kind := some k, lastFc := fcl, lastRate := rate })

/-- The formulas of R160 to R164, for every tangent function. That the model evaluates them is its choice (log 23): the
spec marks each as general knowledge and lets a model keep `BQ_DESIGN` uninterpreted (R159). -/
def Obligations.BqDesignFormulas : Prop :=
  ∀ (p : Params) (fcl rate : Sample),
    let th := F32.div (F32.mul Config.pi fcl) rate
    let lp := bqDesign p .bwlp2 fcl rate
    let hp := bqDesign p .bwhp2 fcl rate
    let ll := bqDesign p .lrlp2 fcl rate
    let lh := bqDesign p .lrhp2 fcl rate
    let ap := bqDesign p .ap1 fcl rate
    let cl := F32.div F32.one (p.tan th)
    let ch := p.tan th
    let den := fun c : Sample => F32.add (F32.add F32.one (F32.mul Config.sqrt2 c)) (F32.mul c c)
    let num := fun c : Sample => F32.add (F32.sub F32.one (F32.mul Config.sqrt2 c)) (F32.mul c c)
    let om := F32.mul Config.pi fcl
    let ka := F32.div om (p.tan th)
    let de := F32.add (F32.add (F32.mul ka ka) (F32.mul om om)) (F32.mul (F32.mul F32.two ka) om)
    let b1 := F32.div (F32.add (F32.sub F32.zero (F32.mul (F32.mul F32.two ka) ka)) (F32.mul (F32.mul F32.two om) om)) de
    let b2 := F32.div (F32.add (F32.add (F32.sub F32.zero (F32.mul (F32.mul F32.two ka) om)) (F32.mul ka ka))
      (F32.mul om om)) de
    let al := F32.div (F32.sub (p.tan th) F32.one) (F32.add (p.tan th) F32.one)
    (lp.a0 = F32.div F32.one (den cl) ∧ lp.a1 = F32.mul F32.two lp.a0 ∧ lp.a2 = lp.a0
      ∧ lp.b1 = F32.mul (F32.mul F32.two lp.a0) (F32.sub F32.one (F32.mul cl cl))
      ∧ lp.b2 = F32.mul lp.a0 (num cl))
    ∧ (hp.a0 = F32.div F32.one (den ch) ∧ hp.a1 = F32.sub F32.zero (F32.mul F32.two hp.a0) ∧ hp.a2 = hp.a0
      ∧ hp.b1 = F32.mul (F32.mul F32.two hp.a0) (F32.sub (F32.mul ch ch) F32.one)
      ∧ hp.b2 = F32.mul hp.a0 (num ch))
    ∧ (ll.a0 = F32.div (F32.mul om om) de ∧ ll.a1 = F32.div (F32.mul (F32.mul F32.two om) om) de
      ∧ ll.a2 = F32.div (F32.mul om om) de ∧ ll.b1 = b1 ∧ ll.b2 = b2)
    ∧ (lh.a0 = F32.div (F32.mul ka ka) de
      ∧ lh.a1 = F32.div (F32.sub F32.zero (F32.mul (F32.mul F32.two ka) ka)) de
      ∧ lh.a2 = F32.div (F32.mul ka ka) de ∧ lh.b1 = b1 ∧ lh.b2 = b2)
    ∧ (ap.a0 = al ∧ ap.a1 = F32.one ∧ ap.a2 = F32.zero ∧ ap.b1 = al ∧ ap.b2 = F32.zero)

/-- R158: a design command that the gate does not skip (the section holds another design, rate or cutoff) records a
cutoff not above `0.95 * nyquist` and not above the one asked for. -/
def Obligations.BqCutoffClamped : Prop :=
  ∀ (s t : State) (c : Channel) (j : Slot) (fc : Word) (k : Design),
    exec (designCommand k c j fc) s = .next t → F32.isPositive s.sys.sampleRate = true →
    let rate := s.sys.sampleRate
    let q := s.getBq c j
    let fcl := F32.min fc (F32.mul Config.nyqGuard (F32.div rate F32.two))
    ¬(q.kind = some k ∧ F32.eq q.lastRate rate = true
        ∧ F32.le (F32.abs (F32.sub fcl q.lastFc)) params.recompTol = true) →
      F32.le (t.getBq c j).lastFc fc = true
      ∧ F32.le (t.getBq c j).lastFc (F32.mul Config.nyqGuard (F32.div s.sys.sampleRate F32.two)) = true
      ∧ (t.getBq c j).lastRate = s.sys.sampleRate ∧ (t.getBq c j).kind = some k

/-- R168: `BQ.PROC4` is `BQ.PROC` on slot 2, then on slot 3 with the first one's mixed output. -/
def Obligations.BqProc4Result : Prop :=
  ∀ (s : State) (c : Channel) (x : Word),
    (s.getBq c 2).coefHeld = true → (s.getBq c 2).memHeld = true →
    (s.getBq c 3).coefHeld = true → (s.getBq c 3).memHeld = true →
      ∃ t u y z, exec (.bqProc4 c x) s = .next t
        ∧ exec (.bqProc c 2 x) s = .next u ∧ u.response = [0#32, y]
        ∧ (∃ v, exec (.bqProc c 3 y) u = .next v ∧ v.response = [0#32, z] ∧ t = v)
        ∧ (∀ (d : Channel) (j : Slot), (d, j) ≠ (c, 2) → (d, j) ≠ (c, 3) → t.getBq d j = s.getBq d j)
        ∧ t.sys = s.sys ∧ t.lut = s.lut ∧ t.ws = s.ws ∧ t.cb = s.cb ∧ t.cmp = s.cmp ∧ t.ks = s.ks ∧ SameHost s t

/-- R170: `BQ.PROCV` is one `BQ.PROC` on each of the four channels of its group; no lane sees another. -/
def Obligations.BqProcvResult : Prop :=
  ∀ (s : State) (g : LaneGroup) (j : Slot) (x : Fin 4 → Word) (ch : Fin 4 → Channel),
    (∀ l, (ch l).val = 4 * g.val + l.val) →
    (∀ l, (s.getBq (ch l) j).coefHeld = true ∧ (s.getBq (ch l) j).memHeld = true) →
      ∃ (t : State) (u : Fin 4 → State) (y : Fin 4 → Word),
        exec (.bqProcv g j (x 0) (x 1) (x 2) (x 3)) s = .next t
        ∧ (∀ l, exec (.bqProc (ch l) j (x l)) s = .next (u l) ∧ (u l).response = [0#32, y l]
            ∧ t.getBq (ch l) j = (u l).getBq (ch l) j)
        ∧ t.response = [0#32, y 0, y 1, y 2, y 3]
        ∧ (∀ (d : Channel) (i : Slot), (∀ l, (d, i) ≠ (ch l, j)) → t.getBq d i = s.getBq d i)
        ∧ t.sys = s.sys ∧ t.lut = s.lut ∧ t.ws = s.ws ∧ t.cb = s.cb ∧ t.cmp = s.cmp ∧ t.ks = s.ks ∧ SameHost s t

/-- R37: the memory of every section persists through every command but those that process a sample or clear it;
`SYS.INIT` clears it. -/
def Obligations.BqMemoryPersists : Prop :=
  (∀ (i : Instr) (s t : State) (c : Channel) (j : Slot), exec i s = .next t →
    (t.getBq c j).memory = (s.getBq c j).memory
    ∨ i = .bqClear c j ∨ (∃ x, i = .bqProc c j x) ∨ (∃ x, i = .bqProc4 c x ∧ 2 ≤ j.val)
    ∨ (∃ g x0 x1 x2 x3, i = .bqProcv g j x0 x1 x2 x3 ∧ c.val / 4 = g.val)
    ∨ (∃ p vs, i = .sysStep p vs ∧ c.val < vs.length ∧ j.val < 2) ∨ i = .sysInit)
  ∧ ∀ (s t : State) (c : Channel) (j : Slot), exec .sysInit s = .next t → t.response = [0#32] →
      (t.getBq c j).memory = (F32.zero, F32.zero, F32.zero, F32.zero, true)

/-! ### Compressor -/

/-- R184: `CMP.SETTIMES` sets the times and `exp(TC / (sampleRate * time))`; envelope, gain and divider untouched. -/
def Obligations.CmpSetTimesResult : Prop :=
  ∀ (s : State) (c : Channel) (a r : Word), s.sys.rateSet = true →
    F32.isPositive a = true → F32.isPositive r = true →
      ∃ t, exec (.cmpSetTimes c a r) s = .next t ∧ t.response = [0#32]
        ∧ t.cmp[c] = { s.cmp[c] with
            attackTime := a, releaseTime := r, timesHeld := true
            attackCoeff := params.exp (F32.div params.cmpTC (F32.mul (s.cmp[c]).sampleRate a))
            releaseCoeff := params.exp (F32.div params.cmpTC (F32.mul (s.cmp[c]).sampleRate r)) }
        ∧ OnlyCmp c s t

/-- R185: `CMP.SETCURVE` sets threshold and ratio; the gain is not recomputed. -/
def Obligations.CmpSetCurveResult : Prop :=
  ∀ (s : State) (c : Channel) (th ra : Word), F32.isFinite th = true → F32.isPositive ra = true →
    ∃ t, exec (.cmpSetCurve c th ra) s = .next t ∧ t.response = [0#32]
      ∧ t.cmp[c] = { s.cmp[c] with threshold := th, ratio := ra, curveHeld := true }
      ∧ OnlyCmp c s t

/-- R186: the detector and the gain computer run where `divCount = 0`; the gain is applied to every sample; the divider
counts modulo `CMP_N`, an argument of the model (R8). -/
def Obligations.CmpProcResult : Prop :=
  ∀ (s : State) (c : Channel) (x : Word),
    let m := s.cmp[c]
    m.timesHeld = true → m.curveHeld = true → m.envHeld = true →
      ∃ (t : State) (env gain : Sample), exec (.cmpProc c x) s = .next t
        ∧ t.response = [0#32, F32.mul x gain]
        ∧ (m.divCount = 0 →
            let a := F32.abs x
            let raw := F32.add (F32.mul (if F32.lt m.lastEnv a then m.attackCoeff else m.releaseCoeff)
              (F32.sub m.lastEnv a)) a
            let db := F32.mul F32.twenty (params.log10 env)
            env = (if F32.lt params.cmpEps raw then raw else params.cmpEps)
              ∧ gain = (if F32.lt m.threshold db then
                  params.pow10 (F32.div (F32.sub (F32.add m.threshold
                    (F32.div (F32.sub db m.threshold) m.ratio)) db) F32.twenty)
                else F32.one)
              ∧ t.cmp[c] = { m with currentEnv := env, lastEnv := env, gain := gain, divCount := 1 % params.cmpN })
        ∧ (m.divCount ≠ 0 → gain = m.gain ∧ t.cmp[c] = { m with divCount := (m.divCount + 1) % params.cmpN })
        ∧ OnlyCmp c s t

/-- R40: after a detector run the envelope is at least `CMP_EPS`, which is positive. -/
def Obligations.CmpEnvelopeFloor : Prop :=
  F32.isPositive params.cmpEps = true
  ∧ ∀ (s t : State) (c : Channel) (x : Word), exec (.cmpProc c x) s = .next t → (s.cmp[c]).divCount = 0 →
      F32.le params.cmpEps (t.cmp[c]).currentEnv = true ∧ (t.cmp[c]).lastEnv = (t.cmp[c]).currentEnv

/-- R189: the divider advances by one, modulo `CMP_N` (an argument of the model, R8), on each `CMP.PROC` of its channel,
alone or inside `SYS.STEP`; `SYS.INIT` zeroes it; nothing else touches it. That `CMP_N` is one or more is the model's
reading of the range `0 .. CMP_N-1` of R39 and R272 (DEDUCED, log 13). -/
def Obligations.CmpDividerCounts : Prop :=
  0 < params.cmpN ∧ ∀ (i : Instr) (s t : State) (c : Channel), exec i s = .next t →
    let old := (s.cmp[c]).divCount
    let new := (t.cmp[c]).divCount
    ((∃ x, i = .cmpProc c x) → new = (old + 1) % params.cmpN)
    ∧ (∀ p vs, i = .sysStep p vs → vs.length ≤ 16 → c.val < vs.length → new = (old + 1) % params.cmpN)
    ∧ (i = .sysInit → t.response = [0#32] → new = 0)
    ∧ ((∀ x, i ≠ .cmpProc c x) → (∀ p vs, i = .sysStep p vs → vs.length ≤ c.val) → i ≠ .sysInit → new = old)

/-- R152, R158, R184, R185, R186 with U1, U5, U6, U8: where the BQ and CMP commands are outside every rule and
refused. -/
def Obligations.BqCmpRefusals : Prop :=
  ∀ (s : State) (c : Channel) (j : Slot) (k : Design) (x y : Word),
    (((s.getBq c j).coefHeld = false ∨ (s.getBq c j).memHeld = false) →
      exec (.bqProc c j x) s = .refused .noValue
        ∧ (j = 2 → exec (.bqProc4 c x) s = .refused .noValue))
    ∧ (((s.getBq c 3).coefHeld = false ∨ (s.getBq c 3).memHeld = false) →
        exec (.bqProc4 c x) s = .refused .noValue)
    ∧ (∀ (g : LaneGroup) (x0 x1 x2 x3 : Word), c.val / 4 = g.val →
        ((s.getBq c j).coefHeld = false ∨ (s.getBq c j).memHeld = false) →
          exec (.bqProcv g j x0 x1 x2 x3) s = .refused .noValue)
    ∧ (s.sys.rateSet = false → exec (designCommand k c j x) s = .refused .rateNotSet
        ∧ exec (.cmpSetTimes c x y) s = .refused .rateNotSet)
    ∧ (s.sys.rateSet = true → F32.isPositive x = false →
        exec (designCommand k c j x) s = .refused .cutoffOutsideDomain
        ∧ exec (.cmpSetTimes c x y) s = .refused .timeOutsideDomain
        ∧ exec (.cmpSetTimes c y x) s = .refused .timeOutsideDomain)
    ∧ ((F32.isFinite x = false ∨ F32.isPositive y = false) →
        exec (.cmpSetCurve c x y) s = .refused .curveOutsideDomain)
    ∧ (((s.cmp[c]).timesHeld = false ∨ (s.cmp[c]).curveHeld = false ∨ (s.cmp[c]).envHeld = false) →
        exec (.cmpProc c x) s = .refused .noValue)

/-! ### WaveShaper -/

/-- R202: `WS.WRITE` stores the value as given in one cell of the curve; an index past 4095 faults. -/
def Obligations.WsWriteResult : Prop :=
  ∀ (s : State) (k : CurveId) (i v : Word),
    (u32 i < 4096 → ∃ t, exec (.wsWrite k i v) s = .next t ∧ t.response = [0#32]
      ∧ Mem.read .curve t.ws[k] (u32 i) = some v
      ∧ (∀ j, j ≠ u32 i → Mem.read .curve t.ws[k] j = Mem.read .curve s.ws[k] j)
      ∧ OnlyWs k s t)
    ∧ (4096 ≤ u32 i → ∃ t, exec (.wsWrite k i v) s = .next t ∧ FaultOnly s t 2#32 5#32)

/-- R203: on a curve whose 4096 cells hold values, `WS.EVAL` interpolates from the masked index, bits 11..1 of the
floor. -/
def Obligations.WsEvalResult : Prop :=
  ∀ (s : State) (k : CurveId) (x : Word),
    curveGood s.ws[k] → (∀ i, i < 4096 → Mem.read .curve s.ws[k] i ≠ none) → F32.isFinite x = true →
      let q := F32.mul (F32.sub x Config.wsMin) Config.wsScale
      F32.isFinite q = true →
        ∃ (t : State) (idx : Nat) (a b : Sample), exec (.wsEval k x) s = .next t
          ∧ (idx : Int) = F32.floor q % 4096 - F32.floor q % 2
          ∧ Mem.read .curve s.ws[k] idx = some a ∧ Mem.read .curve s.ws[k] (idx + 1) = some b
          ∧ t.response = [0#32, F32.lerp a b (F32.sub q (F32.i2s (F32.floor q)))] ∧ SameButAnswer s t

/-- R106 (iv), R108, R203 with U1: where the LUT and WS commands are outside every rule and refused. That `LUT.EVALV`
refuses an operand that is not finite although another lane is out of range is the model's reading (DEDUCED, log 18). -/
def Obligations.LutWsRefusals : Prop :=
  ∀ (s : State) (l : TableId) (k : CurveId) (x x0 x1 x2 x3 : Word),
    ((s.lut[l]).valid = true → F32.isFinite x = false → exec (.lutEval l x) s = .refused .abscissaNotFinite)
    ∧ ((s.lut[l]).valid = true →
        (F32.isFinite x0 = false ∨ F32.isFinite x1 = false ∨ F32.isFinite x2 = false ∨ F32.isFinite x3 = false) →
          exec (.lutEvalv l x0 x1 x2 x3) s = .refused .abscissaNotFinite)
    ∧ (curveGood s.ws[k] → (∃ i, i < 4096 ∧ Mem.read .curve s.ws[k] i = none) →
        exec (.wsEval k x) s = .refused .curveNotLoaded)
    ∧ ((∀ i, i < 4096 → Mem.read .curve s.ws[k] i ≠ none) → curveGood s.ws[k] → F32.isFinite x = false →
        exec (.wsEval k x) s = .refused .abscissaNotFinite)

/-! ### The system commands -/

/-- R265: `SYS.STATUS` answers the fault record, always with `ST = 0`, and changes nothing. -/
def Obligations.SysStatusResult : Prop :=
  ∀ s : State, ∃ t, exec .sysStatus s = .next t
    ∧ t.response = [0#32, s.sys.fault.code, s.sys.fault.info] ∧ SameButAnswer s t

/-- R228: `SYS.SETRATE` on every channel. -/
def Obligations.SysSetRateResult : Prop :=
  ∀ (s : State) (r : Word), F32.isPositive r = true →
    ∃ t, exec (.sysSetRate r) s = .next t ∧ t.response = [0#32]
      ∧ t.sys = { s.sys with sampleRate := r, rateSet := true }
      ∧ t.lut = s.lut ∧ t.ws = s.ws ∧ t.cb = s.cb ∧ t.ks = s.ks ∧ SameHost s t
      ∧ ∀ c : Channel,
        let m := s.cmp[c]
        let at' := if m.timesHeld then m.attackTime else params.ksCmpAttack
        let rl := if m.timesHeld then m.releaseTime else params.ksCmpRelease
        t.cmp[c] = { m with
            sampleRate := r, attackTime := at', releaseTime := rl, timesHeld := true
            attackCoeff := params.exp (F32.div params.cmpTC (F32.mul r at'))
            releaseCoeff := params.exp (F32.div params.cmpTC (F32.mul r rl))
            threshold := if m.curveHeld then m.threshold else params.ksCmpThreshold
            ratio := if m.curveHeld then m.ratio else params.ksCmpRatio
            curveHeld := true }
        ∧ (∀ j : Slot, j.val < 2 →
            t.getBq c j = (s.getBq c j).setDesign params .bwhp2 params.ksDcFreq r
              ∧ (t.getBq c j).memory = (s.getBq c j).memory)
        ∧ ∀ j : Slot, 2 ≤ j.val → t.getBq c j = s.getBq c j

/-- R228: "Idempotent": a second `SYS.SETRATE` with the same rate changes nothing. -/
def Obligations.SysSetRateIdempotent : Prop :=
  ∀ (s t : State) (r : Word), exec (.sysSetRate r) s = .next t → exec (.sysSetRate r) t = .next t

/-- R230, R231: `SYS.INIT` on every channel, and its one fault. Which draw each phase takes is the model's choice
(log 15). -/
def Obligations.SysInitResult : Prop :=
  ∀ s : State, s.sys.rateSet = true →
    let size := (F32.floor (F32.div s.sys.sampleRate Config.ksFmin) + 2).toNat
    (size ≤ 2 ^ 20 → ∃ t k, exec .sysInit s = .next t ∧ t.response = [0#32]
      ∧ size ≤ 2 ^ k ∧ (∀ j, size ≤ 2 ^ j → k ≤ j)
      ∧ t.sys = { s.sys with nch := 0, inited := true } ∧ t.lut = s.lut ∧ t.ws = s.ws ∧ t.pending = s.pending
      ∧ t.draws = s.draws + 7 * 16
      ∧ ∀ c : Channel,
        ((t.cb[c]).alloc = true ∧ (t.cb[c]).k = k ∧ (t.cb[c]).writeIndex = 0
          ∧ ∀ i, (t.cb[c]).cellAt i = F32.zero)
        ∧ (∀ j : Slot, t.getBq c j = { s.getBq c j with
            xz1 := F32.zero, xz2 := F32.zero, yz1 := F32.zero, yz2 := F32.zero, memHeld := true })
        ∧ t.cmp[c] = { s.cmp[c] with
            lastEnv := F32.zero, currentEnv := F32.zero, gain := F32.one, divCount := 0, envHeld := true }
        ∧ (∀ j : Fin 7, (t.ks[c]).phase[j] = params.draw (s.draws + 7 * c.val + j.val)
            ∧ F32.le F32.zero (t.ks[c]).phase[j] = true ∧ F32.lt (t.ks[c]).phase[j] F32.one = true)
        ∧ (t.ks[c]).lastWet = F32.zero ∧ (t.ks[c]).lastOut = F32.zero
        ∧ (t.ks[c]).glide = params.ksGlide0 ∧ (t.ks[c]).targetFreq = params.ksGlide0
        ∧ F32.le Config.ksFmin params.ksGlide0 = true ∧ F32.le params.ksGlide0 Config.ksFmax = true)
    ∧ (2 ^ 20 < size → ∃ t, exec .sysInit s = .next t ∧ FaultOnly s t 2#32 4#32)

/-- R226, R233: `SYS.STEP` completes whenever the block is initialised, the operands are finite and every active
channel has what it reads (`StepReady`: a ring of two cells or more, log 26, a POW2 table that gives a number, what
open functions are bound to loaded, logs 12 and 19, a finite glide state). -/
def Obligations.SysStepCompletes : Prop :=
  ∀ (s : State) (p : StepControls) (vs : List VoiceIn), vs.length ≤ 16 → s.sys.inited = true →
    F32.isPositive s.sys.sampleRate = true → stepOperandsFinite p vs = true →
    (∀ (c : Channel) (h : c.val < vs.length), StepReady s p c vs[c.val]) →
      ∃ t, exec (.sysStep p vs) s = .next t
        ∧ t.response = 0#32 :: BitVec.ofNat 32 vs.length
            :: ((List.finRange 16).take vs.length).map (fun c : Channel => (t.ks[c]).lastOut)
        ∧ t.sys = { s.sys with nch := vs.length }

/-- R234 to R240: the seven steps of the voice on an active channel, with its two draws. The model's choices in it:
which draws (log 15), that `KS_TAPDELAY` may depend on the ring's length and what `KS_UTUNE` and `KS_SAT` are bound to
(log 12), the phase after an increment that is not finite (log 17). -/
def Obligations.SysStepVoice : Prop :=
  ∀ (s t : State) (p : StepControls) (vs : List VoiceIn) (c : Channel) (h : c.val < vs.length),
    vs.length ≤ 16 → exec (.sysStep p vs) s = .next t →
    let v := vs[c.val]
    let V := s.ks[c]
    let V' := t.ks[c]
    let len := (s.cb[c]).length
    let uNoise := params.draw (s.draws + 2 * c.val)
    let uStretch := params.draw (s.draws + 2 * c.val + 1)
    let pitch := F32.add (F32.add v.vPitch p.octave) (F32.div p.semitone F32.twelve)
    let rate := s.sys.sampleRate
    let fmax := F32.min Config.ksFmax (F32.div rate F32.two)
    let f := V'.glide
    let index := F32.clamp (F32.mul (F32.div F32.one f) rate) F32.zero (F32.i2s ((len : Int) - 2))
    let wet := (s.cb[c]).readFrac index
    let xin := params.ksExcite v.vIn uNoise
    let input := (s.getBq c 0).mixed xin
    let fb := F32.clamp p.feedback params.ksFbMin params.ksFbMax
    let st := F32.clamp p.stretch params.ksStMin params.ksStMax
    let dry := if F32.lt uStretch (F32.div F32.one (params.ksStretch f st)) then
        F32.add (F32.add (F32.mul F32.half input) (F32.mul V.lastWet fb)) (F32.mul F32.half wet)
      else F32.add input wet
    let uc := min (u32 p.ucount) 7
    let um := F32.clamp p.umix params.ksMixMin params.ksMixMax
    let mix := ((List.finRange 7).take uc).foldl
      (fun m (j : Fin 7) => F32.add m (F32.mul (params.ksSide um)
        ((t.cb[c]).readFrac (params.ksTapDelay len index V'.phase[j]))))
      (F32.mul (params.ksCentre um) wet)
    let o := (s.getBq c 1).mixed mix
    (∃ y w, exec (.lutEval 1 pitch) s = .next w ∧ w.response = [0#32, y]
        ∧ V'.targetFreq = F32.clamp (F32.mul params.ksF0 y) Config.ksFmin fmax)
      ∧ V'.glide = params.ksGlide V.glide V'.targetFreq p.glide rate
      ∧ t.getBq c 0 = (s.getBq c 0).advance xin
      ∧ t.cmp[c] = (s.cmp[c]).advance params dry
      ∧ t.cb[c] = (s.cb[c]).push (F32.mul dry (t.cmp[c]).gain)
      ∧ V'.lastWet = wet
      ∧ (∃ ut, (if params.ksUtuneBound then
              ∃ w, exec (.lutEval 4 p.utune) s = .next w ∧ w.response = [0#32, ut]
            else ut = params.ksUtune p.utune)
          ∧ ∀ j : Fin 7,
            let ph := F32.add V.phase[j] (F32.div (F32.mul ut (params.ksSpread j)) index)
            (j.val < uc → F32.isFinite ph = true → V'.phase[j] = F32.sub ph (F32.i2s (F32.floor ph)))
              ∧ (j.val < uc → F32.isFinite ph = false →
                  F32.le F32.zero V'.phase[j] = true ∧ F32.lt V'.phase[j] F32.one = true)
              ∧ (uc ≤ j.val → V'.phase[j] = V.phase[j]))
      ∧ t.getBq c 1 = (s.getBq c 1).advance mix
      ∧ match params.ksSatCurve with
        | none => V'.lastOut = params.ksSat o
        | some k => F32.isFinite (params.ksSatIn o) = true →
            ∃ y w, exec (.wsEval k (params.ksSatIn o)) s = .next w ∧ w.response = [0#32, y]
              ∧ V'.lastOut = params.ksSatOut y

/-- R233: what a `SYS.STEP` of `nch` channels leaves as it was, and its one fault (log 28). That it takes two draws a
channel is R233's; the counter is the model's own (log 15). -/
def Obligations.SysStepFrame : Prop :=
  ∀ (s : State) (p : StepControls) (vs : List VoiceIn),
    (16 < vs.length → ∃ t, exec (.sysStep p vs) s = .next t ∧ FaultOnly s t 1#32 0x03000000#32)
    ∧ ∀ t, vs.length ≤ 16 → exec (.sysStep p vs) s = .next t →
        t.sys = { s.sys with nch := vs.length } ∧ t.draws = s.draws + 2 * vs.length ∧ t.pending = s.pending
        ∧ t.lut = s.lut ∧ t.ws = s.ws
        ∧ (∀ (c : Channel) (j : Slot), 2 ≤ j.val → t.getBq c j = s.getBq c j)
        ∧ ∀ c : Channel, vs.length ≤ c.val →
            t.cb[c] = s.cb[c] ∧ t.cmp[c] = s.cmp[c] ∧ t.ks[c] = s.ks[c]
              ∧ t.getBq c 0 = s.getBq c 0 ∧ t.getBq c 1 = s.getBq c 1

/-- R238, R126: a `SYS.STEP` pushes exactly one sample on the line of each active channel: the new sample is finite
and every older one is one further behind. -/
def Obligations.SysStepPushesOne : Prop :=
  ∀ (s t : State) (p : StepControls) (vs : List VoiceIn) (c : Channel),
    vs.length ≤ 16 → exec (.sysStep p vs) s = .next t → c.val < vs.length →
      (t.cb[c]).k = (s.cb[c]).k
      ∧ F32.isFinite ((t.cb[c]).readAt 0) = true
      ∧ ∀ d : Int, 0 ≤ d → d ≤ (s.cb[c]).length - 2 → (t.cb[c]).readAt (d + 1) = (s.cb[c]).readAt d

/-- R71: what a channel holds after a `SYS.STEP` depends on that channel alone, the rate, the read-only tables and
curves, the controls and the draws: two blocks that agree there agree after the step, whatever their other channels
hold. Which tables and curves it reads is configuration (logs 11 and 12), so agreement is asked on all of them; each
channel has draws of its own numbers (log 15). -/
def Obligations.ChannelIndependence : Prop :=
  ∀ (s₁ s₂ t₁ t₂ : State) (p : StepControls) (vs₁ vs₂ : List VoiceIn) (c : Channel),
    s₁.sys.sampleRate = s₂.sys.sampleRate → s₁.lut = s₂.lut → s₁.ws = s₂.ws → s₁.draws = s₂.draws →
    s₁.part c = s₂.part c → vs₁.length = vs₂.length → vs₁[c.val]? = vs₂[c.val]? →
    exec (.sysStep p vs₁) s₁ = .next t₁ → exec (.sysStep p vs₂) s₂ = .next t₂ →
      t₁.part c = t₂.part c

/-- R228, R230, R226, R233 with U1, U8, U9: where the system commands are outside every rule and refused. The part
of `SYS.STEP` on an active channel does not go on, for any configuration, while the table or the curve that it binds
`KS_UTUNE` or `KS_SAT` to is not loaded (R233; logs 12 and 19). -/
def Obligations.SysRefusals : Prop :=
  ∀ (s : State) (r : Word) (p : StepControls) (vs : List VoiceIn),
    (F32.isPositive r = false → exec (.sysSetRate r) s = .refused .rateOutsideDomain)
    ∧ (s.sys.rateSet = false → exec .sysInit s = .refused .rateNotSet)
    ∧ (vs.length ≤ 16 → s.sys.inited = false → exec (.sysStep p vs) s = .refused .notInitialised)
    ∧ (vs.length ≤ 16 → s.sys.inited = true → stepOperandsFinite p vs = false →
        exec (.sysStep p vs) s = .refused .operandNotFinite)
    ∧ (vs.length ≤ 16 → vs ≠ [] → s.sys.inited = true → stepOperandsFinite p vs = true →
        (s.lut[(1 : TableId)]).valid = false → exec (.sysStep p vs) s = .refused .pow2NotLoaded)
    ∧ ∀ (e : FrameEnv) (v : VoiceIn) (u₁ u₂ o : Sample) (ch : ChannelPart) (k : CurveId),
        (e.par.ksUtuneBound = true → e.spread.valid = false →
          e.tuning = .refused .spreadNotLoaded ∧ ∀ ch', e.frame v u₁ u₂ ch ≠ .next ch')
        ∧ (e.par.ksSatCurve = some k → curveGood e.curves[k] →
            (∃ i, i < 4096 ∧ Mem.read .curve e.curves[k] i = none) →
              e.saturate o = .refused .curveNotLoaded ∧ ∀ ch', e.frame v u₁ u₂ ch ≠ .next ch')

/-! ### The whole machine -/

/-- R60, R74: which commands can change a table, a curve or a ring. -/
def Obligations.MemoryWriters : Prop :=
  ∀ (i : Instr) (s t : State), exec i s = .next t →
    (∀ l : TableId, t.lut[l] ≠ s.lut[l] → (∃ a b c, i = .lutConfig l a b c) ∨ ∃ a v, i = .lutWrite l a v)
    ∧ (∀ k : CurveId, t.ws[k] ≠ s.ws[k] → ∃ a v, i = .wsWrite k a v)
    ∧ ∀ c : Channel, t.cb[c] ≠ s.cb[c] →
        (∃ n, i = .cbReset c n) ∨ (∃ v, i = .cbPush c v) ∨ (∃ d v, i = .cbWrat c d v)
          ∨ (∃ d v, i = .cbAddat c d v) ∨ i = .sysInit ∨ ∃ p vs, i = .sysStep p vs ∧ c.val < vs.length

/-- R27, R32, log 7: every step keeps the tables, the curves and the rings good: headers as R27, heads and cells in
range, every ring sample finite, every memory in its canonical form. -/
def Obligations.MemoryGoodKept : Prop :=
  ∀ s t : State, s.MemoryGood → step s = .next t → t.MemoryGood

/-- R23, R24, R35, R39, R40, R228, R230: every step keeps the registers good: what `SYS.SETRATE` and `SYS.INIT`
establish stays, no register leaves its range, every compressor keeps the system's rate. -/
def Obligations.RegistersGoodKept : Prop :=
  ∀ s t : State, s.UnitsGood → s.RateGood → s.InitGood → s.SysGood → step s = .next t →
    t.UnitsGood ∧ t.RateGood ∧ t.InitGood ∧ t.SysGood

/-- The state after reset is good. -/
def Obligations.ResetIsGood : Prop :=
  State.reset.MemoryGood ∧ State.reset.UnitsGood ∧ State.reset.RateGood ∧ State.reset.InitGood
    ∧ State.reset.SysGood
end

