-- ==== Sys2Proof/Laws/Decode.lean ====
section
/-! SUPPORT. The command words of every row: the row each matches, and its selector fields (R81, R84, R87). -/

namespace Sys2Proof

theorem header_sysStatus : Opcode.ofWord (commandWord 0x00 0 0) = some .sysStatus
    ∧ selField (commandWord 0x00 0 0) = 0 ∧ subField (commandWord 0x00 0 0) = 0 := by decide

theorem header_sysSetRate : Opcode.ofWord (commandWord 0x01 0 0) = some .sysSetRate
    ∧ selField (commandWord 0x01 0 0) = 0 ∧ subField (commandWord 0x01 0 0) = 0 := by decide

theorem header_sysInit : Opcode.ofWord (commandWord 0x02 0 0) = some .sysInit
    ∧ selField (commandWord 0x02 0 0) = 0 ∧ subField (commandWord 0x02 0 0) = 0 := by decide

theorem header_sysStep : Opcode.ofWord (commandWord 0x03 0 0) = some .sysStep
    ∧ selField (commandWord 0x03 0 0) = 0 ∧ subField (commandWord 0x03 0 0) = 0 := by decide

theorem header_lutConfig : ∀ t : TableId, Opcode.ofWord (commandWord 0x10 t.val 0) = some .lutConfig
    ∧ selField (commandWord 0x10 t.val 0) = t.val ∧ subField (commandWord 0x10 t.val 0) = 0 := by decide

theorem header_lutWrite : ∀ t : TableId, Opcode.ofWord (commandWord 0x11 t.val 0) = some .lutWrite
    ∧ selField (commandWord 0x11 t.val 0) = t.val ∧ subField (commandWord 0x11 t.val 0) = 0 := by decide

theorem header_lutEval : ∀ t : TableId, Opcode.ofWord (commandWord 0x12 t.val 0) = some .lutEval
    ∧ selField (commandWord 0x12 t.val 0) = t.val ∧ subField (commandWord 0x12 t.val 0) = 0 := by decide

theorem header_lutEvalv : ∀ t : TableId, Opcode.ofWord (commandWord 0x13 t.val 0) = some .lutEvalv
    ∧ selField (commandWord 0x13 t.val 0) = t.val ∧ subField (commandWord 0x13 t.val 0) = 0 := by decide

theorem header_cbReset : ∀ c : Channel, Opcode.ofWord (commandWord 0x20 c.val 0) = some .cbReset
    ∧ selField (commandWord 0x20 c.val 0) = c.val ∧ subField (commandWord 0x20 c.val 0) = 0 := by decide

theorem header_cbPush : ∀ c : Channel, Opcode.ofWord (commandWord 0x21 c.val 0) = some .cbPush
    ∧ selField (commandWord 0x21 c.val 0) = c.val ∧ subField (commandWord 0x21 c.val 0) = 0 := by decide

theorem header_cbWrat : ∀ c : Channel, Opcode.ofWord (commandWord 0x22 c.val 0) = some .cbWrat
    ∧ selField (commandWord 0x22 c.val 0) = c.val ∧ subField (commandWord 0x22 c.val 0) = 0 := by decide

theorem header_cbAddat : ∀ c : Channel, Opcode.ofWord (commandWord 0x23 c.val 0) = some .cbAddat
    ∧ selField (commandWord 0x23 c.val 0) = c.val ∧ subField (commandWord 0x23 c.val 0) = 0 := by decide

theorem header_cbRdi : ∀ c : Channel, Opcode.ofWord (commandWord 0x24 c.val 0) = some .cbRdi
    ∧ selField (commandWord 0x24 c.val 0) = c.val ∧ subField (commandWord 0x24 c.val 0) = 0 := by decide

theorem header_cbRdf : ∀ c : Channel, Opcode.ofWord (commandWord 0x25 c.val 0) = some .cbRdf
    ∧ selField (commandWord 0x25 c.val 0) = c.val ∧ subField (commandWord 0x25 c.val 0) = 0 := by decide

theorem header_bqClear : ∀ c : Channel, ∀ j : Slot, Opcode.ofWord (commandWord 0x40 c.val j.val) = some .bqClear
    ∧ selField (commandWord 0x40 c.val j.val) = c.val ∧ subField (commandWord 0x40 c.val j.val) = j.val := by decide

theorem header_bqProc : ∀ c : Channel, ∀ j : Slot, Opcode.ofWord (commandWord 0x41 c.val j.val) = some .bqProc
    ∧ selField (commandWord 0x41 c.val j.val) = c.val ∧ subField (commandWord 0x41 c.val j.val) = j.val := by decide

theorem header_bqSetBwLp2 : ∀ c : Channel, ∀ j : Slot, Opcode.ofWord (commandWord 0x42 c.val j.val) = some .bqSetBwLp2
    ∧ selField (commandWord 0x42 c.val j.val) = c.val ∧ subField (commandWord 0x42 c.val j.val) = j.val := by decide

theorem header_bqSetBwHp2 : ∀ c : Channel, ∀ j : Slot, Opcode.ofWord (commandWord 0x43 c.val j.val) = some .bqSetBwHp2
    ∧ selField (commandWord 0x43 c.val j.val) = c.val ∧ subField (commandWord 0x43 c.val j.val) = j.val := by decide

theorem header_bqSetLrLp2 : ∀ c : Channel, ∀ j : Slot, Opcode.ofWord (commandWord 0x44 c.val j.val) = some .bqSetLrLp2
    ∧ selField (commandWord 0x44 c.val j.val) = c.val ∧ subField (commandWord 0x44 c.val j.val) = j.val := by decide

theorem header_bqSetLrHp2 : ∀ c : Channel, ∀ j : Slot, Opcode.ofWord (commandWord 0x45 c.val j.val) = some .bqSetLrHp2
    ∧ selField (commandWord 0x45 c.val j.val) = c.val ∧ subField (commandWord 0x45 c.val j.val) = j.val := by decide

theorem header_bqSetAp1 : ∀ c : Channel, ∀ j : Slot, Opcode.ofWord (commandWord 0x46 c.val j.val) = some .bqSetAp1
    ∧ selField (commandWord 0x46 c.val j.val) = c.val ∧ subField (commandWord 0x46 c.val j.val) = j.val := by decide

theorem header_bqLoadc : ∀ c : Channel, ∀ j : Slot, Opcode.ofWord (commandWord 0x47 c.val j.val) = some .bqLoadc
    ∧ selField (commandWord 0x47 c.val j.val) = c.val ∧ subField (commandWord 0x47 c.val j.val) = j.val := by decide

theorem header_bqProc4 : ∀ c : Channel, Opcode.ofWord (commandWord 0x48 c.val 2) = some .bqProc4
    ∧ selField (commandWord 0x48 c.val 2) = c.val ∧ subField (commandWord 0x48 c.val 2) = 2 := by decide

theorem header_bqProcv : ∀ g : LaneGroup, ∀ j : Slot, Opcode.ofWord (commandWord 0x49 g.val j.val) = some .bqProcv
    ∧ selField (commandWord 0x49 g.val j.val) = g.val ∧ subField (commandWord 0x49 g.val j.val) = j.val := by decide

theorem header_cmpSetTimes : ∀ c : Channel, Opcode.ofWord (commandWord 0x50 c.val 0) = some .cmpSetTimes
    ∧ selField (commandWord 0x50 c.val 0) = c.val ∧ subField (commandWord 0x50 c.val 0) = 0 := by decide

theorem header_cmpSetCurve : ∀ c : Channel, Opcode.ofWord (commandWord 0x51 c.val 0) = some .cmpSetCurve
    ∧ selField (commandWord 0x51 c.val 0) = c.val ∧ subField (commandWord 0x51 c.val 0) = 0 := by decide

theorem header_cmpProc : ∀ c : Channel, Opcode.ofWord (commandWord 0x52 c.val 0) = some .cmpProc
    ∧ selField (commandWord 0x52 c.val 0) = c.val ∧ subField (commandWord 0x52 c.val 0) = 0 := by decide

theorem header_wsWrite : ∀ k : CurveId, Opcode.ofWord (commandWord 0x60 k.val 0) = some .wsWrite
    ∧ selField (commandWord 0x60 k.val 0) = k.val ∧ subField (commandWord 0x60 k.val 0) = 0 := by decide

theorem header_wsEval : ∀ k : CurveId, Opcode.ofWord (commandWord 0x61 k.val 0) = some .wsEval
    ∧ selField (commandWord 0x61 k.val 0) = k.val ∧ subField (commandWord 0x61 k.val 0) = 0 := by decide

/-- A word is its four fields (R81). -/
theorem word_ext {w v : Word} (h3 : w.extractLsb' 24 8 = v.extractLsb' 24 8)
    (h2 : w.extractLsb' 16 8 = v.extractLsb' 16 8) (h1 : w.extractLsb' 8 8 = v.extractLsb' 8 8)
    (h0 : w.extractLsb' 0 8 = v.extractLsb' 0 8) : w = v := by
  apply BitVec.eq_of_toNat_eq
  have e3 := congrArg BitVec.toNat h3
  have e2 := congrArg BitVec.toNat h2
  have e1 := congrArg BitVec.toNat h1
  have e0 := congrArg BitVec.toNat h0
  simp only [BitVec.extractLsb'_toNat, Nat.shiftRight_eq_div_pow] at e0 e1 e2 e3
  have := w.isLt; have := v.isLt
  omega

/-- A masked comparison, field by field. -/
theorem and_eq_iff (w m k : Word) : w &&& m = k ↔
    w.extractLsb' 24 8 &&& m.extractLsb' 24 8 = k.extractLsb' 24 8
    ∧ w.extractLsb' 16 8 &&& m.extractLsb' 16 8 = k.extractLsb' 16 8
    ∧ w.extractLsb' 8 8 &&& m.extractLsb' 8 8 = k.extractLsb' 8 8
    ∧ w.extractLsb' 0 8 &&& m.extractLsb' 0 8 = k.extractLsb' 0 8 := by
  constructor
  · rintro rfl; simp only [BitVec.extractLsb'_and, and_self]
  · rintro ⟨h3, h2, h1, h0⟩
    apply word_ext <;> rw [BitVec.extractLsb'_and] <;> assumption

/-- The rows whose mask holds `SEL` at 0 (R87). -/
def Opcode.fixesSel : Opcode → Bool
  | .sysStatus | .sysSetRate | .sysInit | .sysStep => true
  | _ => false

/-- The rows whose mask holds `SUB` at the match's value (R87). -/
def Opcode.fixesSub : Opcode → Bool
  | .bqClear | .bqProc | .bqSetBwLp2 | .bqSetBwHp2 | .bqSetLrLp2 | .bqSetLrHp2 | .bqSetAp1 | .bqLoadc | .bqProcv => false
  | _ => true

theorem and_ff (b : BitVec 8) : b &&& 255#8 = b := by
  have : (255#8 : BitVec 8) = BitVec.allOnes 8 := by decide
  rw [this, BitVec.and_allOnes]

/-- A word matches a row exactly when its fields are the row's (R87). -/
theorem Opcode.matches_iff (o : Opcode) (w : Word) : w &&& o.mask = o.matchWord ↔
    opField w = o.code ∧ zeroField w = 0 ∧ (o.fixesSel = true → selField w = 0)
      ∧ (o.fixesSub = true → subField w = o.fixedSub) := by
  rw [and_eq_iff]
  have hm3 : o.mask.extractLsb' 24 8 = 255#8 := by cases o <;> decide
  have hm0 : o.mask.extractLsb' 0 8 = 255#8 := by cases o <;> decide
  have hm2 : o.mask.extractLsb' 16 8 = if o.fixesSel then 255#8 else 0#8 := by cases o <;> decide
  have hm1 : o.mask.extractLsb' 8 8 = if o.fixesSub then 255#8 else 0#8 := by cases o <;> decide
  have hk3 : o.matchWord.extractLsb' 24 8 = BitVec.ofNat 8 o.code := by cases o <;> decide
  have hk2 : o.matchWord.extractLsb' 16 8 = 0#8 := by cases o <;> decide
  have hk1 : o.matchWord.extractLsb' 8 8 = BitVec.ofNat 8 o.fixedSub := by cases o <;> decide
  have hk0 : o.matchWord.extractLsb' 0 8 = 0#8 := by cases o <;> decide
  have hc : o.code < 256 := by cases o <;> decide
  have hf : o.fixedSub < 256 := by cases o <;> decide
  have hf' : o.fixesSub = false → o.fixedSub = 0 := by cases o <;> decide
  rw [hm3, hm2, hm1, hm0, hk3, hk2, hk1, hk0, and_ff, and_ff]
  unfold opField selField subField zeroField
  simp only [← BitVec.toNat_inj, BitVec.toNat_ofNat, Nat.reducePow, Nat.mod_eq_of_lt hc, Nat.mod_eq_of_lt hf]
  cases h2 : o.fixesSel <;> cases h1 : o.fixesSub <;> simp [hf', h1, and_ff] <;> tauto

theorem commandWord_fields (op sel sub : Nat) :
    opField (commandWord op sel sub) = op % 256 ∧ selField (commandWord op sel sub) = sel % 256
      ∧ subField (commandWord op sel sub) = sub % 256 ∧ zeroField (commandWord op sel sub) = 0 := by
  have h := Nat.mod_lt op (y := 256) (by decide)
  have h' := Nat.mod_lt sel (y := 256) (by decide)
  have h'' := Nat.mod_lt sub (y := 256) (by decide)
  have e : (commandWord op sel sub).toNat = (op % 256) * 16777216 + (sel % 256) * 65536 + (sub % 256) * 256 := by
    simp only [commandWord, BitVec.toNat_append, BitVec.toNat_ofNat, Nat.reducePow]
    rw [← Nat.shiftLeft_add_eq_or_of_lt (i := 8) (by omega), ← Nat.shiftLeft_add_eq_or_of_lt (i := 8) (by omega),
      ← Nat.shiftLeft_add_eq_or_of_lt (i := 8) (by omega)]
    simp only [Nat.shiftLeft_eq]
    omega
  simp only [opField, selField, subField, zeroField, BitVec.extractLsb'_toNat, Nat.shiftRight_eq_div_pow, e,
    Nat.reducePow]
  omega

/-- A word with `ZERO = 0` is the command word of its fields (R81). -/
theorem eq_commandWord {w : Word} (h : zeroField w = 0) : w = commandWord (opField w) (selField w) (subField w) := by
  obtain ⟨h3, h2, h1, h0⟩ := commandWord_fields (opField w) (selField w) (subField w)
  have l3 : opField w < 256 := (w.extractLsb' 24 8).isLt
  have l2 : selField w < 256 := (w.extractLsb' 16 8).isLt
  have l1 : subField w < 256 := (w.extractLsb' 8 8).isLt
  rw [Nat.mod_eq_of_lt l3] at h3
  rw [Nat.mod_eq_of_lt l2] at h2
  rw [Nat.mod_eq_of_lt l1] at h1
  exact word_ext (BitVec.eq_of_toNat_eq h3.symm) (BitVec.eq_of_toNat_eq h2.symm) (BitVec.eq_of_toNat_eq h1.symm)
    (BitVec.eq_of_toNat_eq (h.trans h0.symm))

/-- The row a word selects is one it matches (R87). -/
theorem Opcode.matches_of_ofWord {w : Word} {o : Opcode} (h : Opcode.ofWord w = some o) :
    w &&& o.mask = o.matchWord := by
  have := List.find?_some h
  simpa using this

/-- The port voltages of `SYS.STEP` read back (R226). -/
theorem takeVoices_voiceWords (vs : List VoiceIn) (rest : List Word) :
    takeVoices vs.length (voiceWords vs ++ rest) = some (vs, rest) := by
  induction vs with
  | nil => rfl
  | cons v vs ih => simp [voiceWords, takeVoices, ih]

/-- Port voltages come only from their own words (R226). -/
theorem takeVoices_some {n : Nat} {ws rest : List Word} {vs : List VoiceIn} (h : takeVoices n ws = some (vs, rest)) :
    ws = voiceWords vs ++ rest ∧ vs.length = n := by
  induction n generalizing ws vs with
  | zero => cases h; exact ⟨rfl, rfl⟩
  | succ n ih =>
    match ws with
    | [] => simp [takeVoices] at h
    | [_] => simp [takeVoices] at h
    | p :: v :: ws =>
      simp only [takeVoices] at h
      split at h
      · rename_i vs' rest' he
        cases h
        obtain ⟨rfl, h2⟩ := ih he
        exact ⟨rfl, by simp [h2]⟩
      · cases h

end Sys2Proof
end

