-- ==== Sys2Proof/Laws/Float.lean ====
section
/-! SUPPORT. Laws of the arithmetic on `S` (R12, R13, R15): classes of values, exact selections, the operations that
cannot give a NaN, and that rounding is the identity on values of the format. -/

namespace Sys2Proof.Machine.F32

/-! ### Patterns and classes -/

theorem mag_lt (a : Sample) : mag a < 2 ^ 31 := Nat.mod_lt _ (by decide)

theorem toNat_eq (a : Sample) : a.toNat = if sign a then 2 ^ 31 + mag a else mag a := by
  have h := a.isLt
  simp only [sign, mag, BitVec.msb_eq_decide, decide_eq_true_eq]
  split_ifs <;> omega

/-- A sample is its sign and its magnitude. -/
theorem pack_sign_mag (a : Sample) : pack (sign a) (mag a) = a := by
  apply BitVec.eq_of_toNat_eq
  have h := a.isLt
  rw [pack, ← toNat_eq, BitVec.toNat_ofNat]
  omega

theorem sign_pack {s : Bool} {m : Nat} (h : m < 2 ^ 31) : sign (pack s m) = s := by
  cases s <;> simp [sign, pack, BitVec.msb_eq_decide, BitVec.toNat_ofNat] <;> omega

theorem mag_pack {s : Bool} {m : Nat} (h : m < 2 ^ 31) : mag (pack s m) = m := by
  cases s <;> simp [mag, pack, BitVec.toNat_ofNat] <;> omega

theorem ext_sign_mag {a b : Sample} (hs : sign a = sign b) (hm : mag a = mag b) : a = b := by
  rw [← pack_sign_mag a, ← pack_sign_mag b, hs, hm]

theorem isNaN_eq_false_of_isFinite {a : Sample} (h : isFinite a = true) : isNaN a = false := by
  simp [isFinite, isNaN] at *; omega

theorem isInf_eq_false_of_isFinite {a : Sample} (h : isFinite a = true) : isInf a = false := by
  simp [isFinite, isInf] at *; omega

theorem isFinite_of_not {a : Sample} (h1 : isNaN a = false) (h2 : isInf a = false) : isFinite a = true := by
  simp [isFinite, isNaN, isInf] at *; omega

@[simp] theorem isFinite_zero : isFinite zero = true := by decide
@[simp] theorem isFinite_one : isFinite one = true := by decide

/-- What `sanitize` gives is finite (R15, R32 (iii)). -/
@[simp] theorem isFinite_sanitize (v : Sample) : isFinite (sanitize v) = true := by
  unfold sanitize; split_ifs with h
  · exact h
  · exact isFinite_zero

theorem sanitize_of_isFinite {v : Sample} (h : isFinite v = true) : sanitize v = v := by simp [sanitize, h]

theorem sanitize_of_not_isFinite {v : Sample} (h : isFinite v = false) : sanitize v = zero := by simp [sanitize, h]

/-! ### Order -/

theorem lt_iff {a b : Sample} (ha : isNaN a = false) (hb : isNaN b = false) : lt a b = true ↔ key a < key b := by
  simp [lt, ha, hb]

theorem le_iff {a b : Sample} (ha : isNaN a = false) (hb : isNaN b = false) : le a b = true ↔ key a ≤ key b := by
  simp [le, ha, hb]

theorem not_isNaN_of_lt {a b : Sample} (h : lt a b = true) : isNaN a = false ∧ isNaN b = false := by
  simp [lt] at h; exact h.1

theorem not_isNaN_of_le {a b : Sample} (h : le a b = true) : isNaN a = false ∧ isNaN b = false := by
  simp [le] at h; exact h.1

theorem le_of_lt {a b : Sample} (h : lt a b = true) : le a b = true := by
  obtain ⟨ha, hb⟩ := not_isNaN_of_lt h
  rw [lt_iff ha hb] at h; rw [le_iff ha hb]; omega

theorem le_refl {a : Sample} (h : isNaN a = false) : le a a = true := by rw [le_iff h h]

theorem le_trans {a b c : Sample} (h1 : le a b = true) (h2 : le b c = true) : le a c = true := by
  obtain ⟨ha, hb⟩ := not_isNaN_of_le h1
  obtain ⟨-, hc⟩ := not_isNaN_of_le h2
  rw [le_iff ha hb] at h1; rw [le_iff hb hc] at h2; rw [le_iff ha hc]; omega

theorem le_of_not_lt {a b : Sample} (ha : isNaN a = false) (hb : isNaN b = false) (h : lt a b = false) :
    le b a = true := by
  rw [le_iff hb ha]
  by_contra hc
  have : lt a b = true := (lt_iff ha hb).2 (by omega)
  simp [h] at this

/-- A value between two finite values is finite. -/
theorem isFinite_of_le_le {a b c : Sample} (ha : isFinite a = true) (hc : isFinite c = true)
    (h1 : le a b = true) (h2 : le b c = true) : isFinite b = true := by
  obtain ⟨hna, hnb⟩ := not_isNaN_of_le h1
  obtain ⟨-, hnc⟩ := not_isNaN_of_le h2
  rw [le_iff hna hnb] at h1
  rw [le_iff hnb hnc] at h2
  simp only [isFinite, decide_eq_true_eq, isNaN, decide_eq_false_iff_not] at *
  simp only [key] at h1 h2
  split_ifs at h1 h2 <;> omega

/-! ### Selections (R12) -/

theorem min_eq_or (a b : Sample) : min a b = a ∨ min a b = b := by unfold min; split_ifs <;> simp
theorem max_eq_or (a b : Sample) : max a b = a ∨ max a b = b := by unfold max; split_ifs <;> simp

theorem min_le_right {a b : Sample} (ha : isNaN a = false) (hb : isNaN b = false) : le (min a b) b = true := by
  unfold min
  split_ifs with h1 h2 h3
  · exact le_of_lt h1
  · exact le_refl hb
  · exact le_of_not_lt hb ha (by simpa using h2)
  · exact le_refl hb

theorem min_le_left {a b : Sample} (ha : isNaN a = false) (hb : isNaN b = false) : le (min a b) a = true := by
  unfold min
  split_ifs with h1 h2 h3
  · exact le_refl ha
  · exact le_of_lt h2
  · exact le_refl ha
  · exact le_of_not_lt ha hb (by simpa using h1)

theorem right_le_max {a b : Sample} (ha : isNaN a = false) (hb : isNaN b = false) : le b (max a b) = true := by
  unfold max
  split_ifs with h1 h2 h3
  · exact le_of_lt h1
  · exact le_refl hb
  · exact le_of_not_lt ha hb (by simpa using h2)
  · exact le_refl hb

/-- A clamp of a value that is not a NaN lies between its bounds. -/
theorem clamp_between {a lo hi : Sample} (ha : isNaN a = false) (h : le lo hi = true) :
    le lo (clamp a lo hi) = true ∧ le (clamp a lo hi) hi = true := by
  obtain ⟨hlo, hhi⟩ := not_isNaN_of_le h
  have hm : isNaN (max a lo) = false := by rcases max_eq_or a lo with e | e <;> rw [e] <;> assumption
  refine ⟨?_, min_le_right hm hhi⟩
  unfold clamp
  rcases min_eq_or (max a lo) hi with e | e <;> rw [e]
  · exact right_le_max ha hlo
  · exact h

/-- A clamp between finite bounds is finite, for a value that is not a NaN. -/
theorem isFinite_clamp {a lo hi : Sample} (ha : isNaN a = false) (hlo : isFinite lo = true)
    (hhi : isFinite hi = true) (h : le lo hi = true) : isFinite (clamp a lo hi) = true :=
  isFinite_of_le_le hlo hhi (clamp_between ha h).1 (clamp_between ha h).2

/-! ### NaN -/

theorem isNaN_nan (op : Config.ArithOp) (a b : Sample) : isNaN (nan op a b) = true := by
  unfold nan
  simp only
  split_ifs with h
  · exact h
  · generalize Config.nanBits op a b = n
    have h1 : (n ||| 0x7F800000#32 ||| 0x00400000#32) &&& 0x7FFFFFFF#32
        = (n &&& 0x7FFFFFFF#32) ||| 0x7FC00000#32 := by
      apply BitVec.eq_of_getLsbD_eq
      intro i hi
      interval_cases i <;> simp
    have h2 : 0x7FC00000 ≤ ((n ||| 0x7F800000#32 ||| 0x00400000#32) &&& 0x7FFFFFFF#32).toNat := by
      rw [h1, BitVec.toNat_or]; exact Nat.right_le_or
    rw [BitVec.toNat_and, show (0x7FFFFFFF#32 : BitVec 32).toNat = 2 ^ 31 - 1 from rfl,
      Nat.and_two_pow_sub_one_eq_mod] at h2
    rw [isNaN, decide_eq_true_eq]
    exact Nat.lt_of_lt_of_le (by decide) h2

theorem isNaN_pack {s : Bool} {m : Nat} (h : m ≤ infMag) : isNaN (pack s m) = false := by
  have h' : m < 2 ^ 31 := Nat.lt_of_le_of_lt h (by decide)
  rw [isNaN, mag_pack h', decide_eq_false_iff_not]
  exact Nat.not_lt.2 h

theorem roundMag_le (n d : Nat) : roundMag n d ≤ infMag := by
  unfold roundMag
  simp only
  split_ifs
  · exact Nat.le_refl _
  · exact Nat.min_le_right _ _

theorem isNaN_addNum {a b : Sample} (ha : isNaN a = false) (hb : isNaN b = false) : isNaN (addNum a b) = false := by
  unfold addNum
  simp only
  split_ifs
  · exact ha
  · exact hb
  · exact isNaN_pack (Nat.zero_le _)
  · exact isNaN_pack (roundMag_le _ _)

/-- The sum of two finite values is not a NaN. -/
theorem isNaN_add {a b : Sample} (ha : isFinite a = true) (hb : isFinite b = true) : isNaN (add a b) = false := by
  simp only [add, isNaN_eq_false_of_isFinite ha, isNaN_eq_false_of_isFinite hb, isInf_eq_false_of_isFinite ha,
    Bool.or_false, Bool.false_and, Bool.false_eq_true, ↓reduceIte]
  exact isNaN_addNum (isNaN_eq_false_of_isFinite ha) (isNaN_eq_false_of_isFinite hb)

/-- The product of two finite values is not a NaN. -/
theorem isNaN_mul {a b : Sample} (ha : isFinite a = true) (hb : isFinite b = true) : isNaN (mul a b) = false := by
  simp only [mul, isNaN_eq_false_of_isFinite ha, isNaN_eq_false_of_isFinite hb, isInf_eq_false_of_isFinite ha,
    isInf_eq_false_of_isFinite hb, Bool.or_false, Bool.false_and, Bool.and_false, Bool.false_eq_true, ↓reduceIte]
  exact isNaN_pack (roundMag_le _ _)

/-- The product of a value that is not a NaN and a finite one that is not 0 is not a NaN. -/
theorem isNaN_mul_of_ne_zero {a b : Sample} (ha : isNaN a = false) (hb : isFinite b = true)
    (hz : isZero b = false) : isNaN (mul a b) = false := by
  simp only [mul, ha, isNaN_eq_false_of_isFinite hb, isInf_eq_false_of_isFinite hb, hz,
    Bool.or_false, Bool.and_false, Bool.false_eq_true, ↓reduceIte]
  split_ifs
  · exact isNaN_pack (Nat.le_refl _)
  · exact isNaN_pack (roundMag_le _ _)

/-- The product of a finite value other than 0 and a value that is not a NaN is not a NaN. -/
theorem isNaN_mul_of_ne_zero_left {a b : Sample} (ha : isFinite a = true) (hz : isZero a = false)
    (hb : isNaN b = false) : isNaN (mul a b) = false := by
  unfold mul
  simp only [isNaN_eq_false_of_isFinite ha, isInf_eq_false_of_isFinite ha, hb, hz, Bool.or_false, Bool.false_and,
    Bool.false_eq_true, if_false]
  apply isNaN_pack
  split_ifs
  · exact Nat.le_refl _
  · exact roundMag_le _ _

/-- The quotient of a finite value other than 0 by a value that is not a NaN is not a NaN. -/
theorem isNaN_div {a b : Sample} (ha : isFinite a = true) (hz : isZero a = false) (hb : isNaN b = false) :
    isNaN (div a b) = false := by
  simp only [div, isNaN_eq_false_of_isFinite ha, hb, isInf_eq_false_of_isFinite ha, hz,
    Bool.or_false, Bool.false_and, Bool.false_eq_true, ↓reduceIte, Bool.false_or]
  split_ifs
  · exact isNaN_pack (Nat.le_refl _)
  · exact isNaN_pack (Nat.zero_le _)
  · exact isNaN_pack (roundMag_le _ _)

/-- A clamp between finite bounds, crossed or not, is finite for a value that is not a NaN. -/
theorem isFinite_clamp_of_finite {a lo hi : Sample} (ha : isNaN a = false) (hlo : isFinite lo = true)
    (hhi : isFinite hi = true) : isFinite (clamp a lo hi) = true := by
  cases h : le lo hi with
  | true => exact isFinite_clamp ha hlo hhi h
  | false =>
    have n1 := isNaN_eq_false_of_isFinite hlo
    have n2 := isNaN_eq_false_of_isFinite hhi
    have hlt : lt hi lo = true := by
      by_contra hc
      have := le_of_not_lt n2 n1 (by simpa using hc)
      rw [h] at this; exact absurd this (by simp)
    have hm : isNaN (max a lo) = false := by
      rcases max_eq_or a lo with e | e <;> rw [e] <;> assumption
    have h2 : le lo (max a lo) = true := right_le_max ha n1
    rw [lt_iff n2 n1] at hlt
    rw [le_iff n1 hm] at h2
    have hk : lt hi (max a lo) = true := by rw [lt_iff n2 hm]; omega
    have hk' : lt (max a lo) hi = false := by
      by_contra hc
      simp only [Bool.not_eq_false] at hc
      rw [lt_iff hm n2] at hc; omega
    unfold clamp min
    rw [hk', hk]; simpa using hhi

/-! ### Exactness -/

theorem ulps_small {m : Nat} (h : m < 2 ^ 23) : ulps m = m := if_pos h

theorem ulps_normal {m : Nat} (h : ¬m < 2 ^ 23) : ulps m = (2 ^ 23 + m % 2 ^ 23) * 2 ^ (m / 2 ^ 23 - 1) := if_neg h

theorem ulps_lt {m : Nat} (h : m < infMag) : ulps m < 2 ^ 24 * 2 ^ 253 := by
  have h : m < 0x7F800000 := h
  unfold ulps
  split_ifs with h1
  · exact Nat.lt_trans h1 (by decide)
  · have h2 : m / 2 ^ 23 - 1 ≤ 253 := by omega
    have h3 : 2 ^ 23 + m % 2 ^ 23 < 2 ^ 24 := by omega
    calc (2 ^ 23 + m % 2 ^ 23) * 2 ^ (m / 2 ^ 23 - 1)
        < 2 ^ 24 * 2 ^ (m / 2 ^ 23 - 1) := by
          exact Nat.mul_lt_mul_of_pos_right h3 (Nat.two_pow_pos _)
      _ ≤ 2 ^ 24 * 2 ^ 253 := Nat.mul_le_mul_left _ (Nat.pow_le_pow_right (by decide) h2)

theorem nearestEven_mul {m d : Nat} (hd : 0 < d) : nearestEven (m * d) d = m := by
  unfold nearestEven
  rw [Nat.mul_mod_left, Nat.mul_div_cancel _ hd]
  rw [if_neg]
  omega

/-- Rounding gives back a magnitude of the format. -/
theorem roundMag_ulps {m : Nat} (h : m < infMag) : roundMag (ulps m) 1 = m := by
  have hlt := ulps_lt h
  unfold roundMag
  simp only [Nat.div_one, Nat.one_mul]
  rw [if_neg (Nat.not_le.2 (Nat.lt_of_lt_of_le hlt (by decide)))]
  have hm : m < 0x7F800000 := h
  by_cases h1 : m < 2 ^ 23
  · have hu : ulps m = m := ulps_small h1
    have hlog : Nat.log2 m - 23 = 0 := by
      rcases Nat.eq_zero_or_pos m with h0 | h0
      · subst h0; rfl
      · have := (Nat.log2_lt (by omega)).2 h1; omega
    rw [hu, hlog, Nat.pow_zero, Nat.zero_mul, Nat.zero_add]
    have := nearestEven_mul (m := m) (d := 1) (by decide)
    rw [Nat.mul_one] at this
    rw [this]; exact Nat.min_eq_left (Nat.le_of_lt h)
  · have hu := ulps_normal h1
    set e := m / 2 ^ 23 - 1 with he
    have hlog : Nat.log2 (ulps m) - 23 = e := by
      have hne : ulps m ≠ 0 := by rw [hu]; positivity
      have hlo : 2 ^ (23 + e) ≤ ulps m := by
        rw [hu, Nat.pow_add]; exact Nat.mul_le_mul_right _ (by omega)
      have hhi : ulps m < 2 ^ (24 + e) := by
        rw [hu, Nat.pow_add]; exact Nat.mul_lt_mul_of_pos_right (by omega) (Nat.two_pow_pos _)
      have a1 := (Nat.le_log2 hne).2 hlo
      have a2 := (Nat.log2_lt hne).2 hhi
      omega
    rw [hlog, hu, nearestEven_mul (Nat.two_pow_pos _),
      show e * 2 ^ 23 + (2 ^ 23 + m % 2 ^ 23) = m by omega]
    exact Nat.min_eq_left (Nat.le_of_lt h)

theorem ulps_eq_zero {m : Nat} : ulps m = 0 ↔ m = 0 := by
  unfold ulps
  split_ifs with h
  · rfl
  · constructor
    · intro h'
      have : 0 < (2 ^ 23 + m % 2 ^ 23) * 2 ^ (m / 2 ^ 23 - 1) := by positivity
      omega
    · intro h'; omega

theorem toUnits_eq_zero {a : Sample} : toUnits a = 0 ↔ isZero a = true := by
  unfold toUnits isZero
  rw [decide_eq_true_eq, ← ulps_eq_zero (m := mag a)]
  split_ifs <;> omega

/-- `-a` has the other sign and the same magnitude. -/
theorem sign_neg (a : Sample) : sign (neg a) = !sign a := by
  have : (0x80000000#32 : BitVec 32).msb = true := by decide
  simp [sign, neg, BitVec.msb_xor, this]

theorem mag_neg (a : Sample) : mag (neg a) = mag a := by
  have h : (neg a).toNat % 2 ^ 31 = a.toNat % 2 ^ 31 := by
    rw [neg, BitVec.toNat_xor, ← Nat.and_two_pow_sub_one_eq_mod, ← Nat.and_two_pow_sub_one_eq_mod,
      Nat.and_xor_distrib_right]
    simp
  exact h

theorem toUnits_neg (a : Sample) : toUnits (neg a) = -toUnits a := by
  simp only [toUnits, sign_neg, mag_neg]
  cases sign a <;> simp

/-- `a - a = +0` for a finite `a`. -/
theorem sub_self {a : Sample} (h : isFinite a = true) : sub a a = zero := by
  have hn : isInf (neg a) = false := by simp [isInf, mag_neg]; simp [isFinite] at h; omega
  simp only [sub, isNaN_eq_false_of_isFinite h, isInf_eq_false_of_isFinite h, Bool.or_false, Bool.false_and,
    Bool.false_eq_true, ↓reduceIte, addNum, hn, toUnits_neg, sign_neg]
  rw [if_pos (by omega)]
  cases sign a <;> rfl

/-- `a + z = a` for a zero `z` and a finite `a` other than 0. -/
theorem add_zero_right {a z : Sample} (h : isFinite a = true) (ha : isZero a = false) (hz : isZero z = true) :
    add a z = a := by
  have hzf : isFinite z = true := by simp [isZero, isFinite] at *; omega
  simp only [add, isNaN_eq_false_of_isFinite h, isNaN_eq_false_of_isFinite hzf, isInf_eq_false_of_isFinite h,
    isInf_eq_false_of_isFinite hzf, Bool.or_false, Bool.false_and, Bool.false_eq_true, ↓reduceIte, addNum]
  have h0 : toUnits z = 0 := toUnits_eq_zero.2 hz
  have hne : toUnits a ≠ 0 := fun e => by simp [toUnits_eq_zero.1 e] at ha
  rw [h0, add_zero, if_neg hne]
  have hm : mag a < infMag := by simpa [isFinite] using h
  have hpos : 0 < ulps (mag a) := by
    rcases Nat.eq_zero_or_pos (ulps (mag a)) with e | e
    · exact absurd (by simp [toUnits, e]) hne
    · exact e
  have habs : (toUnits a).natAbs = ulps (mag a) := by unfold toUnits; split_ifs <;> omega
  rw [habs, roundMag_ulps hm]
  have hs : decide (toUnits a < 0) = sign a := by
    unfold toUnits
    cases sign a
    · simp
    · simp; omega
  rw [hs, pack_sign_mag]

theorem ulps_mono {m n : Nat} (h : m < n) : ulps m < ulps n := by
  have step : ∀ k, ulps k < ulps (k + 1) := by
    intro k
    unfold ulps
    split_ifs with h1 h2 h2
    · omega
    · have : k + 1 = 2 ^ 23 := by omega
      rw [this]
      norm_num
      omega
    · omega
    · by_cases hw : (k + 1) % 2 ^ 23 = 0
      · have e1 : k % 2 ^ 23 = 2 ^ 23 - 1 := by omega
        have e2 : (k + 1) / 2 ^ 23 - 1 = k / 2 ^ 23 - 1 + 1 := by omega
        have hp := Nat.two_pow_pos (k / 2 ^ 23 - 1)
        rw [hw, e1, e2]
        generalize k / 2 ^ 23 - 1 = j at *
        have hj : 2 ^ (j + 1) = 2 ^ j * 2 := Nat.pow_succ _ _
        rw [hj]
        generalize 2 ^ j = x at *
        omega
      · have e1 : (k + 1) % 2 ^ 23 = k % 2 ^ 23 + 1 := by omega
        have e2 : (k + 1) / 2 ^ 23 = k / 2 ^ 23 := by omega
        rw [e1, e2]
        exact Nat.mul_lt_mul_of_pos_right (by omega) (Nat.two_pow_pos _)
  induction n with
  | zero => omega
  | succ n ih =>
    rcases Nat.lt_or_ge m n with h' | h'
    · exact Nat.lt_trans (ih h') (step n)
    · have : m = n := by omega
      subst this; exact step m

/-- The order of two values that are not NaN is the order of their exact values. -/
theorem toUnits_lt_of_lt {a b : Sample} (h : lt a b = true) : toUnits a < toUnits b := by
  obtain ⟨ha, hb⟩ := not_isNaN_of_lt h
  rw [lt_iff ha hb] at h
  have mono : ∀ {m n : Nat}, m ≤ n → ulps m ≤ ulps n := fun {m n} hmn => by
    rcases Nat.lt_or_ge m n with h' | h'
    · exact Nat.le_of_lt (ulps_mono h')
    · have : m = n := by omega
      subst this; exact Nat.le_refl _
  unfold key at h
  unfold toUnits
  split_ifs at h ⊢ with h1 h2 h2
  · have := ulps_mono (m := mag b) (n := mag a) (by omega); omega
  · rcases Nat.eq_zero_or_pos (mag b) with e | e
    · have := ulps_mono (m := 0) (n := mag a) (by omega)
      have z : ulps 0 = 0 := rfl
      omega
    · have := ulps_mono e
      have z : ulps 0 = 0 := rfl
      omega
  · omega
  · have := ulps_mono (m := mag a) (n := mag b) (by omega); omega

theorem toUnits_le_of_le {a b : Sample} (h : le a b = true) : toUnits a ≤ toUnits b := by
  by_cases hl : lt a b = true
  · exact Int.le_of_lt (toUnits_lt_of_lt hl)
  · simp only [le, Bool.and_eq_true, Bool.not_eq_true', decide_eq_true_eq] at h
    simp only [lt, h.1.1, h.1.2, Bool.not_false, Bool.true_and, decide_eq_true_eq] at hl
    have hk : key a = key b := by omega
    unfold key at hk
    unfold toUnits
    have z : ulps 0 = 0 := rfl
    split_ifs at hk ⊢
    · rw [show mag a = mag b by omega]
    · rw [show mag a = 0 by omega, show mag b = 0 by omega]; omega
    · rw [show mag a = 0 by omega, show mag b = 0 by omega]; omega
    · rw [show mag a = mag b by omega]

theorem isZero_of_isPositive {a : Sample} (h : isPositive a = true) : isZero a = false := by
  simp only [isPositive, Bool.and_eq_true] at h
  have := h.2
  simp only [lt, Bool.and_eq_true, decide_eq_true_eq] at this
  simp only [isZero, decide_eq_false_iff_not]
  intro h0
  have h2 := this.2
  simp only [key, h0] at h2
  revert h2
  simp [sign, mag]

theorem isFinite_of_isPositive {a : Sample} (h : isPositive a = true) : isFinite a = true := by
  simp only [isPositive, Bool.and_eq_true] at h; exact h.1

theorem key_zero : key zero = 0 := by decide

/-- A value that is `>= 0` has no sign, or is a zero. -/
theorem sign_of_nonneg {a : Sample} (h : le zero a = true) : sign a = false ∨ mag a = 0 := by
  have hn := not_isNaN_of_le h
  rw [le_iff hn.1 hn.2, key_zero] at h
  unfold key at h
  split at h
  · right; omega
  · rename_i hx; left; simpa using hx

/-- The floor of a value that is `>= 0` (R12). -/
theorem floor_nonneg {a : Sample} (hf : isFinite a = true) (h : le zero a = true) : 0 ≤ floor a := by
  unfold floor; rw [if_pos hf]
  apply Int.ediv_nonneg _ (by positivity)
  unfold toUnits
  rcases sign_of_nonneg h with h | h
  · rw [h]; simp
  · rw [h]; have : ulps 0 = 0 := by decide
    rw [this]; simp

/-- Every natural number below `2 ^ 24` is a value of `S`. -/
theorem mag_nat (n : Nat) (hn : n < 2 ^ 24) : ∃ m, m < infMag ∧ ulps m = n * 2 ^ 149 := by
  rcases Nat.eq_zero_or_pos n with rfl | h0
  · exact ⟨0, by decide, by decide⟩
  · have h1 : 2 ^ n.log2 ≤ n := Nat.log2_self_le (by omega)
    have h2 : n < 2 ^ (n.log2 + 1) := (Nat.log2_lt (by omega)).1 (Nat.lt_succ_self _)
    have he : n.log2 < 24 := (Nat.log2_lt (by omega)).2 hn
    generalize n.log2 = e at *
    have e1 : 2 ^ e * 2 ^ (23 - e) = 2 ^ 23 := by rw [← Nat.pow_add]; congr 1; omega
    have l1 : 2 ^ 23 ≤ n * 2 ^ (23 - e) := by rw [← e1]; exact Nat.mul_le_mul_right _ h1
    have l2 : n * 2 ^ (23 - e) < 2 ^ 24 := by
      have : 2 ^ (e + 1) * 2 ^ (23 - e) = 2 ^ 24 := by rw [← Nat.pow_add]; congr 1; omega
      rw [← this]; exact Nat.mul_lt_mul_of_pos_right h2 (by positivity)
    generalize hk : n * 2 ^ (23 - e) = k at *
    refine ⟨(e + 127) * 2 ^ 23 + (k - 2 ^ 23), ?_, ?_⟩
    · simp only [infMag]; omega
    · rw [ulps_normal (by omega)]
      have d1 : ((e + 127) * 2 ^ 23 + (k - 2 ^ 23)) % 2 ^ 23 = k - 2 ^ 23 := by omega
      have d2 : ((e + 127) * 2 ^ 23 + (k - 2 ^ 23)) / 2 ^ 23 - 1 = e + 126 := by omega
      rw [d1, d2, Nat.add_sub_cancel' l1, ← hk, Nat.mul_assoc, ← Nat.pow_add]
      exact congrArg (n * 2 ^ ·) (by omega)

/-- `i2s` is exact below `2 ^ 24`, and `floor` undoes it (R12). -/
theorem i2s_nat (n : Nat) (hn : n < 2 ^ 24) : isFinite (i2s n) = true ∧ sign (i2s n) = false ∧ floor (i2s n) = n := by
  obtain ⟨m, hm, hu⟩ := mag_nat n hn
  have hr : roundMag ((n : Int).natAbs * 2 ^ 149) 1 = m := by
    rw [Int.natAbs_natCast, ← hu, roundMag_ulps hm]
  have hm31 : m < 2 ^ 31 := by simp only [infMag] at hm; omega
  have hp : i2s n = pack false m := by
    unfold i2s; rw [hr]; congr 1
  have hs : sign (i2s n) = false := by rw [hp]; exact sign_pack hm31
  have hg : mag (i2s n) = m := by rw [hp]; exact mag_pack hm31
  have hf : isFinite (i2s n) = true := by unfold isFinite; rw [hg]; simpa using hm
  refine ⟨hf, hs, ?_⟩
  unfold floor toUnits
  rw [if_pos hf, hs, hg, hu]
  push_cast
  simp

theorem le_zero_of_sign {a : Sample} (hf : isFinite a = true) (hs : sign a = false) : le zero a = true := by
  rw [le_iff (by decide) (isNaN_eq_false_of_isFinite hf), key_zero]
  unfold key; rw [hs]; simp

/-- The smaller of a finite value and a value with no sign, not a NaN, is finite. -/
theorem isFinite_min {a b : Sample} (ha : isFinite a = true) (h0 : sign b = false) (hn : isNaN b = false) :
    isFinite (min a b) = true := by
  rcases min_eq_or a b with e | e
  · rw [e]; exact ha
  · have hl := min_le_left (isNaN_eq_false_of_isFinite ha) hn
    rw [e] at hl ⊢
    refine isFinite_of_le_le isFinite_zero ha ?_ hl
    rw [le_iff (by decide) hn, key_zero]; unfold key; rw [h0]; simp

theorem sign_of_isPositive {a : Sample} (h : isPositive a = true) : sign a = false := by
  have hz := isZero_of_isPositive h
  simp only [isPositive, Bool.and_eq_true] at h
  rcases sign_of_nonneg (le_of_lt h.2) with h1 | h1
  · exact h1
  · simp [isZero, h1] at hz

/-- Half a positive rate is not a NaN and has no sign. -/
theorem half_isPositive {r : Sample} (h : isPositive r = true) :
    isNaN (div r two) = false ∧ sign (div r two) = false := by
  have hf := isFinite_of_isPositive h
  refine ⟨isNaN_div hf (isZero_of_isPositive h) (by decide), ?_⟩
  have a1 : isNaN two = false := by decide
  have a2 : isInf two = false := by decide
  have a3 : isZero two = false := by decide
  have a4 : sign two = false := by decide
  unfold div
  simp only [isNaN_eq_false_of_isFinite hf, isInf_eq_false_of_isFinite hf, a1, a2, a3, a4, sign_of_isPositive h,
    Bool.or_false, Bool.and_false, Bool.false_eq_true, if_false]
  apply sign_pack
  have := roundMag_le (ulps (mag r) * 2 ^ 149) (ulps (mag two))
  simp only [infMag] at this; omega

/-- A zero times a finite value is a zero. -/
theorem mul_zero_left {b : Sample} (hb : isFinite b = true) : mul zero b = pack (sign b) 0 := by
  have h1 := isNaN_eq_false_of_isFinite hb
  have h2 := isInf_eq_false_of_isFinite hb
  have a1 : isNaN zero = false := by decide
  have a2 : isInf zero = false := by decide
  have a3 : sign zero = false := by decide
  have a4 : ulps (mag zero) = 0 := by decide
  unfold mul
  simp only [h1, h2, a1, a2, a3, a4, Bool.or_false, Bool.false_and, Bool.and_false, Bool.false_eq_true, if_false, Nat.zero_mul]
  have : roundMag 0 (2 ^ 149) = 0 := by decide
  rw [this]; simp

/-- `lerp(a, b, 0) = a` where it holds in binary32 (R13; log 21). -/
theorem lerp_zero {a b : Sample} (ha : isFinite a = true) (hn : a ≠ 0x80000000#32)
    (hd : isFinite (sub b a) = true) : lerp a b zero = a := by
  unfold lerp
  rw [mul_zero_left hd]
  cases hz : isZero a with
  | false =>
    apply add_zero_right ha hz
    have := mag_pack (s := sign (sub b a)) (m := 0) (by decide)
    simp only [isZero, this, decide_true]
  | true =>
    have hm : mag a = 0 := by simpa [isZero] using hz
    have hs : sign a = false := by
      cases h : sign a with
      | false => rfl
      | true => exfalso; apply hn; rw [← pack_sign_mag a, h, hm]; rfl
    have : a = zero := by rw [← pack_sign_mag a, hs, hm]; rfl
    subst this
    cases sign (sub b zero) <;> decide

end Sys2Proof.Machine.F32

namespace Sys2Proof.Machine

/-! ### The constrained parameters (R8, R218, R222) -/

theorem keepWithin_between {lo hi v d : Sample} (h1 : F32.le lo d = true) (h2 : F32.le d hi = true) :
    F32.le lo (keepWithin lo hi v d) = true ∧ F32.le (keepWithin lo hi v d) hi = true := by
  unfold keepWithin
  split_ifs with h
  · simp only [Bool.and_eq_true] at h; exact ⟨h.1.2, h.2⟩
  · exact ⟨h1, h2⟩

theorem isPositive_keepPositive (v : Sample) : F32.isPositive (keepPositive v) = true := by
  unfold keepPositive; split_ifs with h
  · exact h
  · decide

theorem keepNonNegative_spec (v : Sample) :
    F32.isFinite (keepNonNegative v) = true ∧ F32.le F32.zero (keepNonNegative v) = true := by
  unfold keepNonNegative; split_ifs with h
  · simpa only [Bool.and_eq_true] using h
  · decide

/-- Every draw lies in `[0, 1)` (R222). -/
theorem inUnit_draw (n : Nat) : inUnit (params.draw n) = true := by
  show inUnit (keepUnit (Config.draw n)) = true
  unfold keepUnit; split_ifs with h
  · exact h
  · decide

/-- The glide lies between its two ends (R218). -/
theorem isFinite_glide {prev target glide rate : Sample} (h1 : F32.isFinite prev = true)
    (h2 : F32.isFinite target = true) : F32.isFinite (params.ksGlide prev target glide rate) = true := by
  show F32.isFinite (glideWithin prev target (Config.ksGlide prev target glide rate)) = true
  generalize Config.ksGlide prev target glide rate = v
  have n1 := F32.isNaN_eq_false_of_isFinite h1
  have n2 := F32.isNaN_eq_false_of_isFinite h2
  unfold glideWithin
  simp only [h1, h2, Bool.and_self, if_true]
  split_ifs with h
  · obtain ⟨a, b⟩ := keepWithin_between (v := v) h (F32.le_refl n2)
    exact F32.isFinite_of_le_le h1 h2 a b
  · have h' : F32.lt target prev = true := by
      by_contra hc
      exact h (F32.le_of_not_lt n2 n1 (by simpa using hc))
    obtain ⟨a, b⟩ := keepWithin_between (v := v) (F32.le_refl n2) (F32.le_of_lt h')
    exact F32.isFinite_of_le_le h2 h1 a b

end Sys2Proof.Machine
end

