-- ==== Sys2Proof/Laws/Memory.lean ====
section
/-! SUPPORT. Laws of the sample memories: read after write, writes elsewhere, and the canonical form (R61, R70;
log 7). -/

namespace Sys2Proof.Machine

theorem Mem.find_insert (m : Mem) (i j : Nat) (v : Sample) :
    Mem.find (Mem.insert m i v) j = if i = j then some v else Mem.find m j := by
  induction m with
  | nil => simp [Mem.insert, Mem.find]
  | cons e m ih =>
    obtain ⟨a, w⟩ := e
    simp only [Mem.insert]
    split_ifs <;> simp only [Mem.find, ih] <;> split_ifs <;> first | rfl | omega

theorem Mem.find_erase (m : Mem) (i j : Nat) :
    Mem.find (Mem.erase m i) j = if i = j then none else Mem.find m j := by
  induction m with
  | nil => simp [Mem.erase, Mem.find]
  | cons e m ih =>
    obtain ⟨a, w⟩ := e
    simp only [Mem.erase]
    split_ifs <;> simp only [Mem.find, ih] <;> split_ifs <;> first | rfl | omega

/-- Reading the cell just written gives the value written. -/
theorem Mem.read_write_same (sp : Space) (m : Mem) (i : Nat) (v : Sample) :
    Mem.read sp (Mem.write sp m i v) i = some v := by
  unfold Mem.read Mem.write
  split_ifs with h
  · simp [Mem.find_erase, h]
  · simp [Mem.find_insert]

/-- A write leaves every other cell alone. -/
theorem Mem.read_write_other (sp : Space) (m : Mem) {i j : Nat} (h : i ≠ j) (v : Sample) :
    Mem.read sp (Mem.write sp m i v) j = Mem.read sp m j := by
  unfold Mem.read Mem.write
  split_ifs <;> simp [Mem.find_erase, Mem.find_insert, h]

theorem Mem.read_write (sp : Space) (m : Mem) (i j : Nat) (v : Sample) :
    Mem.read sp (Mem.write sp m i v) j = if i = j then some v else Mem.read sp m j := by
  split_ifs with h
  · subst h; exact Mem.read_write_same sp m i v
  · exact Mem.read_write_other sp m h v

theorem Mem.risingFrom_mono {m : Mem} {a b : Nat} (h : a ≤ b) (hm : Mem.risingFrom b m = true) :
    Mem.risingFrom a m = true := by
  cases m with
  | nil => rfl
  | cons e m => simp only [Mem.risingFrom, Bool.and_eq_true, decide_eq_true_eq] at hm ⊢; exact ⟨by omega, hm.2⟩

theorem Mem.risingFrom_erase {m : Mem} (a i : Nat) (hm : Mem.risingFrom a m = true) :
    Mem.risingFrom a (Mem.erase m i) = true := by
  induction m generalizing a with
  | nil => rfl
  | cons e m ih =>
    simp only [Mem.risingFrom, Bool.and_eq_true, decide_eq_true_eq] at hm
    simp only [Mem.erase]
    split_ifs with h
    · exact Mem.risingFrom_mono (by omega) (ih _ hm.2)
    · simp only [Mem.risingFrom, Bool.and_eq_true, decide_eq_true_eq]; exact ⟨hm.1, ih _ hm.2⟩

theorem Mem.risingFrom_insert {m : Mem} {a i : Nat} (v : Sample) (hi : a ≤ i) (hm : Mem.risingFrom a m = true) :
    Mem.risingFrom a (Mem.insert m i v) = true := by
  induction m generalizing a with
  | nil => simp [Mem.insert, Mem.risingFrom, hi]
  | cons e m ih =>
    simp only [Mem.risingFrom, Bool.and_eq_true, decide_eq_true_eq] at hm
    simp only [Mem.insert]
    split_ifs with h1 h2 <;> simp only [Mem.risingFrom, Bool.and_eq_true, decide_eq_true_eq]
    · exact ⟨hi, by omega, hm.2⟩
    · subst h2; exact ⟨hi, hm.2⟩
    · exact ⟨hm.1, ih (by omega) hm.2⟩

theorem Mem.mem_erase {m : Mem} {i : Nat} {e : Nat × Sample} (h : e ∈ Mem.erase m i) : e ∈ m := by
  induction m with
  | nil => simp [Mem.erase] at h
  | cons x m ih =>
    simp only [Mem.erase] at h
    split_ifs at h
    · exact List.mem_cons_of_mem _ (ih h)
    · rcases List.mem_cons.1 h with h | h
      · exact h ▸ List.mem_cons_self
      · exact List.mem_cons_of_mem _ (ih h)

theorem Mem.mem_insert {m : Mem} {i : Nat} {v : Sample} {e : Nat × Sample} (h : e ∈ Mem.insert m i v) :
    e = (i, v) ∨ e ∈ m := by
  induction m with
  | nil => simpa [Mem.insert] using h
  | cons x m ih =>
    simp only [Mem.insert] at h
    split_ifs at h
    · simpa using h
    · rcases List.mem_cons.1 h with h | h
      · exact .inl h
      · exact .inr (List.mem_cons_of_mem _ h)
    · rcases List.mem_cons.1 h with h | h
      · exact .inr (h ▸ List.mem_cons_self)
      · exact (ih h).imp id (List.mem_cons_of_mem _)

/-- An entry of a memory after a write is the one written, not a value unlisted cells read as, or an old one. -/
theorem Mem.mem_write {sp : Space} {m : Mem} {i : Nat} {v : Sample} {e : Nat × Sample}
    (h : e ∈ Mem.write sp m i v) : (e = (i, v) ∧ sp.unlisted ≠ some v) ∨ e ∈ m := by
  unfold Mem.write at h
  split_ifs at h with hv
  · exact .inr (Mem.mem_erase h)
  · exact (Mem.mem_insert h).imp (fun h => ⟨h, hv⟩) id

/-- Every write keeps the canonical form. -/
theorem Mem.wf_write {sp : Space} {m : Mem} (hm : Mem.wf sp m = true) (i : Nat) (v : Sample) :
    Mem.wf sp (Mem.write sp m i v) = true := by
  simp only [Mem.wf, Bool.and_eq_true, List.all_eq_true, decide_eq_true_eq] at hm ⊢
  refine ⟨?_, fun e he => ?_⟩
  · unfold Mem.write
    split_ifs
    · exact Mem.risingFrom_erase _ _ hm.1
    · exact Mem.risingFrom_insert _ (Nat.zero_le _) hm.1
  · rcases Mem.mem_write he with ⟨rfl, h⟩ | h
    · exact h
    · exact hm.2 e h

/-- A write below `n` keeps every listed index below `n`. -/
theorem Mem.below_write {sp : Space} {m : Mem} {n : Nat} (hm : Mem.below n m = true) {i : Nat} (hi : i < n)
    (v : Sample) : Mem.below n (Mem.write sp m i v) = true := by
  simp only [Mem.below, List.all_eq_true, decide_eq_true_eq] at hm ⊢
  intro e he
  rcases Mem.mem_write he with ⟨rfl, -⟩ | h
  · exact hi
  · exact hm e h

/-- Writing a finite value keeps every listed cell finite. -/
theorem Mem.allFinite_write {sp : Space} {m : Mem} (hm : Mem.allFinite m = true) (i : Nat) {v : Sample}
    (hv : F32.isFinite v = true) : Mem.allFinite (Mem.write sp m i v) = true := by
  simp only [Mem.allFinite, List.all_eq_true] at hm ⊢
  intro e he
  rcases Mem.mem_write he with ⟨rfl, -⟩ | h
  · exact hv
  · exact hm e h

@[simp] theorem Mem.wf_nil (sp : Space) : Mem.wf sp [] = true := rfl
@[simp] theorem Mem.below_nil (n : Nat) : Mem.below n [] = true := rfl
@[simp] theorem Mem.allFinite_nil : Mem.allFinite [] = true := rfl

/-- The value of an empty memory's cell is what the memory's unlisted cells read as. -/
@[simp] theorem Mem.read_nil (sp : Space) (i : Nat) : Mem.read sp [] i = sp.unlisted := rfl

/-- A listed cell's value is one of the entries. -/
theorem Mem.find_mem {m : Mem} {i : Nat} {v : Sample} (h : Mem.find m i = some v) : (i, v) ∈ m := by
  induction m with
  | nil => simp [Mem.find] at h
  | cons e m ih =>
    simp only [Mem.find] at h
    split_ifs at h with hj
    · cases h; subst hj; exact List.mem_cons_self
    · exact List.mem_cons_of_mem _ (ih h)

/-- Two canonical memories that read alike everywhere are the same list (log 7). -/
theorem Mem.eq_of_read_eq {sp : Space} {m n : Mem} (hm : Mem.wf sp m = true) (hn : Mem.wf sp n = true)
    (h : ∀ i, Mem.read sp m i = Mem.read sp n i) : m = n := by
  have key : ∀ (m n : Mem) (a : Nat), Mem.risingFrom a m = true → Mem.risingFrom a n = true →
      (∀ e ∈ m, sp.unlisted ≠ some e.2) → (∀ e ∈ n, sp.unlisted ≠ some e.2) →
      (∀ i, Mem.read sp m i = Mem.read sp n i) → m = n := by
    have none_below : ∀ (m : Mem) (a i : Nat), Mem.risingFrom a m = true → i < a → Mem.find m i = none := by
      intro m
      induction m with
      | nil => intros; rfl
      | cons e m ih =>
        intro a i h hi
        simp only [Mem.risingFrom, Bool.and_eq_true, decide_eq_true_eq] at h
        simp only [Mem.find]
        rw [if_neg (by omega)]
        exact ih _ _ h.2 (by omega)
    have head : ∀ (e : Nat × Sample) (m : Mem) (a : Nat), Mem.risingFrom a (e :: m) = true →
        Mem.read sp (e :: m) e.1 = some e.2 := by
      intro e m a _
      simp [Mem.read, Mem.find]
    have absent : ∀ (m : Mem) (a i : Nat), Mem.risingFrom a m = true → i < a → Mem.read sp m i = sp.unlisted := by
      intro m a i hm hi
      simp [Mem.read, none_below m a i hm hi]
    intro m
    induction m with
    | nil =>
      intro n a _ hn _ hnv h
      cases n with
      | nil => rfl
      | cons e n =>
        exact absurd ((head e n a hn).symm.trans (h e.1).symm) (fun h' => hnv e List.mem_cons_self (by simpa [Mem.read, Mem.find] using h'.symm))
    | cons e m ih =>
      intro n a hm hn hmv hnv h
      cases n with
      | nil =>
        exact absurd ((head e m a hm).symm.trans (h e.1)) (fun h' => hmv e List.mem_cons_self (by simpa [Mem.read, Mem.find] using h'.symm))
      | cons f n =>
        have h1 := (head e m a hm).symm.trans (h e.1)
        have h2 := (head f n a hn).symm.trans (h f.1).symm
        have hm' := hm
        have hn' := hn
        simp only [Mem.risingFrom, Bool.and_eq_true, decide_eq_true_eq] at hm' hn'
        have hef : e.1 = f.1 := by
          rcases Nat.lt_trichotomy e.1 f.1 with hlt | heq | hlt
          · have : Mem.read sp (f :: n) e.1 = sp.unlisted := by
              apply absent _ f.1 _ _ hlt
              simp only [Mem.risingFrom, Bool.and_eq_true, decide_eq_true_eq]; exact ⟨Nat.le_refl _, hn'.2⟩
            exact absurd (h1.trans this).symm (hmv e List.mem_cons_self)
          · exact heq
          · have : Mem.read sp (e :: m) f.1 = sp.unlisted := by
              apply absent _ e.1 _ _ hlt
              simp only [Mem.risingFrom, Bool.and_eq_true, decide_eq_true_eq]; exact ⟨Nat.le_refl _, hm'.2⟩
            exact absurd (h2.trans this).symm (hnv f List.mem_cons_self)
        have hv : e.2 = f.2 := by
          have := h1
          rw [hef] at this
          simpa [Mem.read, Mem.find] using this
        have he : e = f := Prod.ext hef hv
        subst he
        congr 1
        refine ih n (e.1 + 1) hm'.2 hn'.2 (fun x hx => hmv x (List.mem_cons_of_mem _ hx))
          (fun x hx => hnv x (List.mem_cons_of_mem _ hx)) fun i => ?_
        by_cases hi : i = e.1
        · subst hi
          rw [absent m _ _ hm'.2 (Nat.lt_succ_self _), absent n _ _ hn'.2 (Nat.lt_succ_self _)]
        · have := h i
          simpa [Mem.read, Mem.find, Ne.symm hi] using this
  simp only [Mem.wf, Bool.and_eq_true, List.all_eq_true, decide_eq_true_eq] at hm hn
  exact key m n 0 hm.1 hn.1 hm.2 hn.2 h

/-- A canonical memory below `n` lists at most `n` cells, and `n` exactly when it lists every one. -/
theorem Mem.length_le_of_rising {m : Mem} {a n : Nat} (h : Mem.risingFrom a m = true) (hb : Mem.below n m = true) (ha : a ≤ n) :
    m.length + a ≤ n ∧ (m.length + a = n ↔ ∀ i, a ≤ i → i < n → Mem.find m i ≠ none) := by
  induction m generalizing a with
  | nil =>
    simp only [List.length_nil, Mem.find]
    refine ⟨by omega, fun h i h1 h2 => by omega, fun h => ?_⟩
    by_contra hne
    exact h a (le_refl _) (by omega) rfl
  | cons e m ih =>
    obtain ⟨j, v⟩ := e
    simp only [Mem.risingFrom, Bool.and_eq_true, decide_eq_true_eq] at h
    simp only [Mem.below, List.all_cons, Bool.and_eq_true, decide_eq_true_eq] at hb
    obtain ⟨h1, h2⟩ := ih h.2 hb.2 (by omega)
    refine ⟨by simp only [List.length_cons]; omega, ?_⟩
    simp only [List.length_cons]
    constructor
    · intro hl i hi1 hi2
      have hj : j = a := by omega
      subst hj
      simp only [Mem.find]
      split_ifs with he
      · simp
      · exact h2.1 (by omega) i (by omega) hi2
    · intro hall
      have hj : j = a := by
        by_contra hne
        have := hall a (le_refl _) (by omega)
        simp only [Mem.find] at this
        rw [if_neg (by omega)] at this
        have hno : ∀ (m : Mem) (b : Nat), Mem.risingFrom b m = true → a < b → Mem.find m a = none := by
          intro m
          induction m with
          | nil => intros; rfl
          | cons e m ih =>
            intro b hb hab
            obtain ⟨k, w⟩ := e
            simp only [Mem.risingFrom, Bool.and_eq_true, decide_eq_true_eq] at hb
            simp only [Mem.find]
            rw [if_neg (by omega)]
            exact ih (k + 1) hb.2 (by omega)
        exact this (hno m (j+1) h.2 (by omega))
      subst hj
      have := h2.2 fun i h1 h2 => by
        have := hall i (by omega) h2
        simp only [Mem.find] at this
        rwa [if_neg (by omega)] at this
      omega

end Sys2Proof.Machine
end

