-- ==== Sys2Proof/Laws/State.lean ====
section
/-! SUPPORT. One lemma per field per update of the state, and what an instance reads as after an update. -/

namespace Sys2Proof.Machine

section fields

variable (s : State)

@[simp] theorem State.setLut_sys (t : TableId) (x : Lut) : (s.setLut t x).sys = s.sys := rfl
@[simp] theorem State.setLut_lut (t : TableId) (x : Lut) : (s.setLut t x).lut = s.lut.set t x := rfl
@[simp] theorem State.setLut_ws (t : TableId) (x : Lut) : (s.setLut t x).ws = s.ws := rfl
@[simp] theorem State.setLut_cb (t : TableId) (x : Lut) : (s.setLut t x).cb = s.cb := rfl
@[simp] theorem State.setLut_bq (t : TableId) (x : Lut) : (s.setLut t x).bq = s.bq := rfl
@[simp] theorem State.setLut_cmp (t : TableId) (x : Lut) : (s.setLut t x).cmp = s.cmp := rfl
@[simp] theorem State.setLut_ks (t : TableId) (x : Lut) : (s.setLut t x).ks = s.ks := rfl
@[simp] theorem State.setLut_draws (t : TableId) (x : Lut) : (s.setLut t x).draws = s.draws := rfl
@[simp] theorem State.setLut_pending (t : TableId) (x : Lut) : (s.setLut t x).pending = s.pending := rfl
@[simp] theorem State.setLut_response (t : TableId) (x : Lut) : (s.setLut t x).response = s.response := rfl

@[simp] theorem State.setWs_sys (k : CurveId) (x : Mem) : (s.setWs k x).sys = s.sys := rfl
@[simp] theorem State.setWs_lut (k : CurveId) (x : Mem) : (s.setWs k x).lut = s.lut := rfl
@[simp] theorem State.setWs_ws (k : CurveId) (x : Mem) : (s.setWs k x).ws = s.ws.set k x := rfl
@[simp] theorem State.setWs_cb (k : CurveId) (x : Mem) : (s.setWs k x).cb = s.cb := rfl
@[simp] theorem State.setWs_bq (k : CurveId) (x : Mem) : (s.setWs k x).bq = s.bq := rfl
@[simp] theorem State.setWs_cmp (k : CurveId) (x : Mem) : (s.setWs k x).cmp = s.cmp := rfl
@[simp] theorem State.setWs_ks (k : CurveId) (x : Mem) : (s.setWs k x).ks = s.ks := rfl
@[simp] theorem State.setWs_draws (k : CurveId) (x : Mem) : (s.setWs k x).draws = s.draws := rfl
@[simp] theorem State.setWs_pending (k : CurveId) (x : Mem) : (s.setWs k x).pending = s.pending := rfl
@[simp] theorem State.setWs_response (k : CurveId) (x : Mem) : (s.setWs k x).response = s.response := rfl

@[simp] theorem State.setCb_sys (c : Channel) (x : Ring) : (s.setCb c x).sys = s.sys := rfl
@[simp] theorem State.setCb_lut (c : Channel) (x : Ring) : (s.setCb c x).lut = s.lut := rfl
@[simp] theorem State.setCb_ws (c : Channel) (x : Ring) : (s.setCb c x).ws = s.ws := rfl
@[simp] theorem State.setCb_cb (c : Channel) (x : Ring) : (s.setCb c x).cb = s.cb.set c x := rfl
@[simp] theorem State.setCb_bq (c : Channel) (x : Ring) : (s.setCb c x).bq = s.bq := rfl
@[simp] theorem State.setCb_cmp (c : Channel) (x : Ring) : (s.setCb c x).cmp = s.cmp := rfl
@[simp] theorem State.setCb_ks (c : Channel) (x : Ring) : (s.setCb c x).ks = s.ks := rfl
@[simp] theorem State.setCb_draws (c : Channel) (x : Ring) : (s.setCb c x).draws = s.draws := rfl
@[simp] theorem State.setCb_pending (c : Channel) (x : Ring) : (s.setCb c x).pending = s.pending := rfl
@[simp] theorem State.setCb_response (c : Channel) (x : Ring) : (s.setCb c x).response = s.response := rfl

@[simp] theorem State.setBq_sys (c : Channel) (j : Slot) (x : Biquad) : (s.setBq c j x).sys = s.sys := rfl
@[simp] theorem State.setBq_lut (c : Channel) (j : Slot) (x : Biquad) : (s.setBq c j x).lut = s.lut := rfl
@[simp] theorem State.setBq_ws (c : Channel) (j : Slot) (x : Biquad) : (s.setBq c j x).ws = s.ws := rfl
@[simp] theorem State.setBq_cb (c : Channel) (j : Slot) (x : Biquad) : (s.setBq c j x).cb = s.cb := rfl
@[simp] theorem State.setBq_bq (c : Channel) (j : Slot) (x : Biquad) : (s.setBq c j x).bq = s.bq.set c (s.bq[c].set j x) := rfl
@[simp] theorem State.setBq_cmp (c : Channel) (j : Slot) (x : Biquad) : (s.setBq c j x).cmp = s.cmp := rfl
@[simp] theorem State.setBq_ks (c : Channel) (j : Slot) (x : Biquad) : (s.setBq c j x).ks = s.ks := rfl
@[simp] theorem State.setBq_draws (c : Channel) (j : Slot) (x : Biquad) : (s.setBq c j x).draws = s.draws := rfl
@[simp] theorem State.setBq_pending (c : Channel) (j : Slot) (x : Biquad) : (s.setBq c j x).pending = s.pending := rfl
@[simp] theorem State.setBq_response (c : Channel) (j : Slot) (x : Biquad) : (s.setBq c j x).response = s.response := rfl

@[simp] theorem State.setCmp_sys (c : Channel) (x : Compressor) : (s.setCmp c x).sys = s.sys := rfl
@[simp] theorem State.setCmp_lut (c : Channel) (x : Compressor) : (s.setCmp c x).lut = s.lut := rfl
@[simp] theorem State.setCmp_ws (c : Channel) (x : Compressor) : (s.setCmp c x).ws = s.ws := rfl
@[simp] theorem State.setCmp_cb (c : Channel) (x : Compressor) : (s.setCmp c x).cb = s.cb := rfl
@[simp] theorem State.setCmp_bq (c : Channel) (x : Compressor) : (s.setCmp c x).bq = s.bq := rfl
@[simp] theorem State.setCmp_cmp (c : Channel) (x : Compressor) : (s.setCmp c x).cmp = s.cmp.set c x := rfl
@[simp] theorem State.setCmp_ks (c : Channel) (x : Compressor) : (s.setCmp c x).ks = s.ks := rfl
@[simp] theorem State.setCmp_draws (c : Channel) (x : Compressor) : (s.setCmp c x).draws = s.draws := rfl
@[simp] theorem State.setCmp_pending (c : Channel) (x : Compressor) : (s.setCmp c x).pending = s.pending := rfl
@[simp] theorem State.setCmp_response (c : Channel) (x : Compressor) : (s.setCmp c x).response = s.response := rfl

@[simp] theorem State.setKs_sys (c : Channel) (x : Voice) : (s.setKs c x).sys = s.sys := rfl
@[simp] theorem State.setKs_lut (c : Channel) (x : Voice) : (s.setKs c x).lut = s.lut := rfl
@[simp] theorem State.setKs_ws (c : Channel) (x : Voice) : (s.setKs c x).ws = s.ws := rfl
@[simp] theorem State.setKs_cb (c : Channel) (x : Voice) : (s.setKs c x).cb = s.cb := rfl
@[simp] theorem State.setKs_bq (c : Channel) (x : Voice) : (s.setKs c x).bq = s.bq := rfl
@[simp] theorem State.setKs_cmp (c : Channel) (x : Voice) : (s.setKs c x).cmp = s.cmp := rfl
@[simp] theorem State.setKs_ks (c : Channel) (x : Voice) : (s.setKs c x).ks = s.ks.set c x := rfl
@[simp] theorem State.setKs_draws (c : Channel) (x : Voice) : (s.setKs c x).draws = s.draws := rfl
@[simp] theorem State.setKs_pending (c : Channel) (x : Voice) : (s.setKs c x).pending = s.pending := rfl
@[simp] theorem State.setKs_response (c : Channel) (x : Voice) : (s.setKs c x).response = s.response := rfl

@[simp] theorem State.setPending_sys (x : List HostEvent) : (s.setPending x).sys = s.sys := rfl
@[simp] theorem State.setPending_lut (x : List HostEvent) : (s.setPending x).lut = s.lut := rfl
@[simp] theorem State.setPending_ws (x : List HostEvent) : (s.setPending x).ws = s.ws := rfl
@[simp] theorem State.setPending_cb (x : List HostEvent) : (s.setPending x).cb = s.cb := rfl
@[simp] theorem State.setPending_bq (x : List HostEvent) : (s.setPending x).bq = s.bq := rfl
@[simp] theorem State.setPending_cmp (x : List HostEvent) : (s.setPending x).cmp = s.cmp := rfl
@[simp] theorem State.setPending_ks (x : List HostEvent) : (s.setPending x).ks = s.ks := rfl
@[simp] theorem State.setPending_draws (x : List HostEvent) : (s.setPending x).draws = s.draws := rfl
@[simp] theorem State.setPending_pending (x : List HostEvent) : (s.setPending x).pending = x := rfl
@[simp] theorem State.setPending_response (x : List HostEvent) : (s.setPending x).response = s.response := rfl

@[simp] theorem State.respond_sys (x : List Word) : (s.respond x).sys = s.sys := rfl
@[simp] theorem State.respond_lut (x : List Word) : (s.respond x).lut = s.lut := rfl
@[simp] theorem State.respond_ws (x : List Word) : (s.respond x).ws = s.ws := rfl
@[simp] theorem State.respond_cb (x : List Word) : (s.respond x).cb = s.cb := rfl
@[simp] theorem State.respond_bq (x : List Word) : (s.respond x).bq = s.bq := rfl
@[simp] theorem State.respond_cmp (x : List Word) : (s.respond x).cmp = s.cmp := rfl
@[simp] theorem State.respond_ks (x : List Word) : (s.respond x).ks = s.ks := rfl
@[simp] theorem State.respond_draws (x : List Word) : (s.respond x).draws = s.draws := rfl
@[simp] theorem State.respond_pending (x : List Word) : (s.respond x).pending = s.pending := rfl
@[simp] theorem State.respond_response (x : List Word) : (s.respond x).response = x := rfl

@[simp] theorem State.latch_sys (code info : Word) : (s.latch code info).sys = { s.sys with fault := ⟨code, info⟩ } := rfl
@[simp] theorem State.latch_lut (code info : Word) : (s.latch code info).lut = s.lut := rfl
@[simp] theorem State.latch_ws (code info : Word) : (s.latch code info).ws = s.ws := rfl
@[simp] theorem State.latch_cb (code info : Word) : (s.latch code info).cb = s.cb := rfl
@[simp] theorem State.latch_bq (code info : Word) : (s.latch code info).bq = s.bq := rfl
@[simp] theorem State.latch_cmp (code info : Word) : (s.latch code info).cmp = s.cmp := rfl
@[simp] theorem State.latch_ks (code info : Word) : (s.latch code info).ks = s.ks := rfl
@[simp] theorem State.latch_draws (code info : Word) : (s.latch code info).draws = s.draws := rfl
@[simp] theorem State.latch_pending (code info : Word) : (s.latch code info).pending = s.pending := rfl
@[simp] theorem State.latch_response (code info : Word) : (s.latch code info).response = s.response := rfl

@[simp] theorem State.setLut_getBq (t : TableId) (x : Lut) (u : Channel) (i : Slot) :
    (s.setLut t x).getBq u i = s.getBq u i := rfl
@[simp] theorem State.setWs_getBq (k : CurveId) (x : Mem) (u : Channel) (i : Slot) :
    (s.setWs k x).getBq u i = s.getBq u i := rfl
@[simp] theorem State.setCb_getBq (c : Channel) (x : Ring) (u : Channel) (i : Slot) :
    (s.setCb c x).getBq u i = s.getBq u i := rfl
@[simp] theorem State.setCmp_getBq (c : Channel) (x : Compressor) (u : Channel) (i : Slot) :
    (s.setCmp c x).getBq u i = s.getBq u i := rfl
@[simp] theorem State.setKs_getBq (c : Channel) (x : Voice) (u : Channel) (i : Slot) :
    (s.setKs c x).getBq u i = s.getBq u i := rfl
@[simp] theorem State.setPending_getBq (x : List HostEvent) (u : Channel) (i : Slot) :
    (s.setPending x).getBq u i = s.getBq u i := rfl
@[simp] theorem State.respond_getBq (x : List Word) (u : Channel) (i : Slot) :
    (s.respond x).getBq u i = s.getBq u i := rfl
@[simp] theorem State.latch_getBq (code info : Word) (u : Channel) (i : Slot) :
    (s.latch code info).getBq u i = s.getBq u i := rfl

/-! ### Reading an instance after an update -/

theorem State.lut_setLut (t u : TableId) (x : Lut) : (s.setLut t x).lut[u] = if u = t then x else s.lut[u] := by
  simp [Vector.getElem_set, Fin.val_inj, eq_comm]

theorem State.ws_setWs (k u : CurveId) (x : Mem) : (s.setWs k x).ws[u] = if u = k then x else s.ws[u] := by
  simp [Vector.getElem_set, Fin.val_inj, eq_comm]

theorem State.cb_setCb (c u : Channel) (x : Ring) : (s.setCb c x).cb[u] = if u = c then x else s.cb[u] := by
  simp [Vector.getElem_set, Fin.val_inj, eq_comm]

theorem State.cmp_setCmp (c u : Channel) (x : Compressor) :
    (s.setCmp c x).cmp[u] = if u = c then x else s.cmp[u] := by
  simp [Vector.getElem_set, Fin.val_inj, eq_comm]

theorem State.ks_setKs (c u : Channel) (x : Voice) : (s.setKs c x).ks[u] = if u = c then x else s.ks[u] := by
  simp [Vector.getElem_set, Fin.val_inj, eq_comm]

theorem State.getBq_setBq (c u : Channel) (j i : Slot) (x : Biquad) :
    (s.setBq c j x).getBq u i = if u = c ∧ i = j then x else s.getBq u i := by
  by_cases h1 : u = c
  · subst h1
    by_cases h2 : i = j
    · subst h2; simp [State.getBq]
    · simp [State.getBq, Fin.val_inj, h2, Ne.symm h2]
  · simp [State.getBq, Fin.val_inj, h1, Ne.symm h1]

@[simp] theorem State.getBq_setBq_same (c : Channel) (j : Slot) (x : Biquad) : (s.setBq c j x).getBq c j = x := by
  simp [State.getBq_setBq]

end fields

/-- Two families of sections are the same when every section is. -/
theorem State.bq_ext {s t : State} (h : ∀ (c : Channel) (j : Slot), t.getBq c j = s.getBq c j) : t.bq = s.bq := by
  apply Vector.ext
  intro i hi
  apply Vector.ext
  intro j hj
  exact h ⟨i, hi⟩ ⟨j, hj⟩

/-! ### The reset state -/

@[simp] theorem State.reset_sys : State.reset.sys = System.reset := rfl
@[simp] theorem State.reset_draws : State.reset.draws = 0 := rfl
@[simp] theorem State.reset_pending : State.reset.pending = [] := rfl
@[simp] theorem State.reset_response : State.reset.response = [] := rfl
@[simp] theorem State.reset_lut (t : TableId) : State.reset.lut[t] = Lut.reset := by simp [State.reset]
@[simp] theorem State.reset_ws (k : CurveId) : State.reset.ws[k] = [] := by simp [State.reset]
@[simp] theorem State.reset_cb (c : Channel) : State.reset.cb[c] = Ring.reset := by simp [State.reset]
@[simp] theorem State.reset_getBq (c : Channel) (j : Slot) : State.reset.getBq c j = Biquad.reset := by
  simp [State.reset, State.getBq]
@[simp] theorem State.reset_cmp (c : Channel) : State.reset.cmp[c] = Compressor.reset := by simp [State.reset]
@[simp] theorem State.reset_ks (c : Channel) : State.reset.ks[c] = Voice.reset := by simp [State.reset]

end Sys2Proof.Machine
end

