-- ==== Sys2Proof/Laws/Ops.lean ====
section
/-! SUPPORT. For each shared operation, once, everything it can do. -/

namespace Sys2Proof.Machine

/-! ### Outcomes -/

@[simp] theorem andThen_next {α β : Type} (a : α) (f : α → Answer β) : andThen (.next a) f = f a := rfl

/-- A composed command goes on exactly when both parts do. -/
theorem andThen_eq_next {α β : Type} {x : Answer α} {f : α → Answer β} {b : β} :
    andThen x f = .next b ↔ ∃ a, x = .next a ∧ f a = .next b := by
  cases x <;> simp [andThen]

/-- A required condition: the command goes on exactly when it holds and the rest goes on. -/
theorem require_eq_next {α : Type} {ok : Bool} {r : Refusal} {x : Answer α} {b : α} :
    require ok r x = .next b ↔ ok = true ∧ x = .next b := by
  cases ok <;> simp [require]

@[simp] theorem require_true {α : Type} (r : Refusal) (x : Answer α) : require true r x = x := rfl

/-- An answered command always goes on (R80). -/
theorem answer_eq_next {s t : State} {ws : List Word} : answer s ws = .next t ↔ t = s.respond (0#32 :: ws) := by
  simp [answer, eq_comm]

/-- `raise` always goes on; only the record and the answer change (R262). -/
theorem raise_eq_next {f : Cause} {s t : State} :
    raise f s = .next t ↔ t = (s.latch f.code f.info).respond [f.code] := by
  simp [raise, eq_comm]

/-- The fault codes of R261 are 1, 2 and 3. -/
theorem Cause.code_pos (f : Cause) : f.code ≠ 0#32 ∧ f.code.toNat ≤ 3 := by
  cases f <;> simp [Cause.code]

/-! ### Next power of two (R16) -/

theorem le_npow2 (n : Nat) : n ≤ npow2 n := by
  unfold npow2 npow2Log
  split_ifs with h
  · omega
  · have := (Nat.log2_lt (n := n - 1) (k := Nat.log2 (n - 1) + 1) (by omega)).1 (Nat.lt_succ_self _)
    omega

theorem npow2Log_le {n j : Nat} (h : n ≤ 2 ^ j) : npow2Log n ≤ j := by
  unfold npow2Log
  split_ifs with h1
  · omega
  · have := (Nat.log2_lt (n := n - 1) (k := j) (by omega)).2 (by omega)
    omega

/-- `npow2(n)` is the least power of two not below `n` (R16). -/
theorem npow2_le {n j : Nat} (h : n ≤ 2 ^ j) : npow2 n ≤ 2 ^ j :=
  Nat.pow_le_pow_right (by decide) (npow2Log_le h)

/-! ### Rings -/

theorem Ring.length_pos (r : Ring) : 0 < r.length := Nat.two_pow_pos _

/-- A ring index is always in range (R61, R64). -/
theorem Ring.cell_lt (r : Ring) (d : Int) : r.cell d < r.length := by
  have h := r.length_pos
  have h1 := Int.emod_nonneg ((r.writeIndex : Int) - d) (b := (r.length : Int)) (by omega)
  have h2 := Int.emod_lt_of_pos ((r.writeIndex : Int) - d) (b := (r.length : Int)) (by omega)
  unfold Ring.cell
  omega

/-- The physical index as an integer (R63). -/
theorem Ring.cell_cast (r : Ring) (d : Int) : ((r.cell d : Nat) : Int) = ((r.writeIndex : Int) - d) % (r.length : Int) := by
  have h := r.length_pos
  have h1 := Int.emod_nonneg ((r.writeIndex : Int) - d) (b := (r.length : Int)) (by omega)
  unfold Ring.cell
  omega

/-- Two offsets name one cell exactly when they are equal modulo the length (R64). -/
theorem Ring.cell_eq_iff (r : Ring) (d e : Int) :
    r.cell d = r.cell e ↔ d % (r.length : Int) = e % (r.length : Int) := by
  rw [← Int.ofNat_inj, r.cell_cast, r.cell_cast, Int.emod_eq_emod_iff_emod_sub_eq_zero,
    Int.emod_eq_emod_iff_emod_sub_eq_zero, show (r.writeIndex : Int) - d - (r.writeIndex - e) = -(d - e) by omega,
    ← Int.dvd_iff_emod_eq_zero, ← Int.dvd_iff_emod_eq_zero, Int.dvd_neg]

/-- The head's own cell (R122). -/
theorem Ring.cell_zero (r : Ring) : r.cell 0 = r.writeIndex % r.length := by
  rw [← Int.ofNat_inj, r.cell_cast]; simp

/-- Wrap-around (R64). -/
theorem Ring.readAt_congr (r : Ring) {d e : Int} (h : d % (r.length : Int) = e % (r.length : Int)) :
    r.readAt d = r.readAt e := by
  unfold Ring.readAt; rw [(r.cell_eq_iff d e).2 h]

@[simp] theorem Ring.store_alloc (r : Ring) (i : Nat) (v : Sample) : (r.store i v).alloc = r.alloc := rfl
@[simp] theorem Ring.store_k (r : Ring) (i : Nat) (v : Sample) : (r.store i v).k = r.k := rfl
@[simp] theorem Ring.store_writeIndex (r : Ring) (i : Nat) (v : Sample) :
    (r.store i v).writeIndex = r.writeIndex := rfl
@[simp] theorem Ring.store_length (r : Ring) (i : Nat) (v : Sample) : (r.store i v).length = r.length := rfl
@[simp] theorem Ring.store_cell (r : Ring) (i : Nat) (v : Sample) (d : Int) : (r.store i v).cell d = r.cell d := rfl

/-- A store changes the one cell, to the sanitised value (R15, R61). -/
theorem Ring.store_cellAt (r : Ring) (i j : Nat) (v : Sample) :
    (r.store i v).cellAt j = if i = j then F32.sanitize v else r.cellAt j := by
  unfold Ring.cellAt Ring.store
  simp only [Mem.read_write]
  split_ifs <;> rfl

@[simp] theorem Ring.push_alloc (r : Ring) (v : Sample) : (r.push v).alloc = r.alloc := rfl
@[simp] theorem Ring.push_k (r : Ring) (v : Sample) : (r.push v).k = r.k := rfl
@[simp] theorem Ring.push_length (r : Ring) (v : Sample) : (r.push v).length = r.length := rfl
@[simp] theorem Ring.push_writeIndex (r : Ring) (v : Sample) :
    (r.push v).writeIndex = (r.writeIndex + 1) % r.length := rfl

/-- A push stores in the one cell the head moves to (R126). -/
theorem Ring.push_cellAt (r : Ring) (v : Sample) (j : Nat) :
    (r.push v).cellAt j = if (r.writeIndex + 1) % r.length = j then F32.sanitize v else r.cellAt j :=
  Ring.store_cellAt _ _ _ _

/-- After a push the old offset `d` is `d + 1` (R126). -/
theorem Ring.push_cell_succ (r : Ring) (v : Sample) (d : Int) : (r.push v).cell (d + 1) = r.cell d := by
  have hl := r.length_pos
  rw [← Int.ofNat_inj, Ring.cell_cast, Ring.cell_cast, Ring.push_length, Ring.push_writeIndex]
  rw [Int.emod_eq_emod_iff_emod_sub_eq_zero, ← Int.dvd_iff_emod_eq_zero]
  push_cast
  have h := Int.emod_add_mul_ediv ((r.writeIndex : Int) + 1) (r.length : Int)
  exact ⟨-(((r.writeIndex : Int) + 1) / r.length), by rw [Int.mul_neg]; omega⟩

theorem Ring.push_cell_zero (r : Ring) (v : Sample) : (r.push v).cell 0 = (r.writeIndex + 1) % r.length := by
  rw [Ring.cell_zero, Ring.push_writeIndex, Ring.push_length, Nat.mod_mod]

/-- R137 (L1), the new sample. -/
theorem Ring.push_readAt_zero (r : Ring) (v : Sample) : (r.push v).readAt 0 = F32.sanitize v := by
  unfold Ring.readAt; rw [Ring.push_cell_zero, Ring.push_cellAt, if_pos rfl]

/-- R137 (L1), the older samples. -/
theorem Ring.push_readAt_succ (r : Ring) (v : Sample) {d : Int} (h0 : 0 ≤ d) (h1 : d ≤ (r.length : Int) - 2) :
    (r.push v).readAt (d + 1) = r.readAt d := by
  have hne : (r.push v).cell 0 ≠ (r.push v).cell (d + 1) := by
    rw [Ne, Ring.cell_eq_iff, Ring.push_length, Int.zero_emod, Int.emod_eq_of_lt (by omega) (by omega)]; omega
  unfold Ring.readAt
  rw [Ring.push_cellAt, ← Ring.push_cell_zero r v, if_neg hne, Ring.push_cell_succ]

/-- R137 (L3). -/
theorem Ring.writeAt_readAt (r : Ring) (d e : Int) (v : Sample) :
    (r.writeAt d v).readAt e
      = if d % (r.length : Int) = e % (r.length : Int) then F32.sanitize v else r.readAt e := by
  unfold Ring.writeAt Ring.readAt
  rw [Ring.store_cell, Ring.store_cellAt]
  simp only [r.cell_eq_iff]

/-- R137 (L4). -/
theorem Ring.addAt_readAt (r : Ring) (d e : Int) (v : Sample) :
    (r.addAt d v).readAt e
      = if d % (r.length : Int) = e % (r.length : Int) then F32.sanitize (F32.add (r.readAt d) v) else r.readAt e :=
  Ring.writeAt_readAt r d e (F32.add (r.readAt d) v)

/-- R137 (L6). -/
theorem Ring.cleared_readAt (k : Nat) (d : Int) : (Ring.cleared k).readAt d = F32.zero := rfl

theorem Ring.good_cleared {k : Nat} (h : k ≤ Config.cbKmax) : (Ring.cleared k).good :=
  ⟨h, Nat.two_pow_pos _, rfl, rfl, rfl⟩

/-- R32 of every store inside the ring. -/
theorem Ring.good_store {r : Ring} (h : r.good) {i : Nat} (hi : i < r.length) (v : Sample) : (r.store i v).good :=
  ⟨h.1, h.2.1, Mem.wf_write h.2.2.1 i _, Mem.below_write h.2.2.2.1 hi _,
    Mem.allFinite_write h.2.2.2.2 i (F32.isFinite_sanitize v)⟩

theorem Ring.good_push {r : Ring} (h : r.good) (v : Sample) : (r.push v).good :=
  Ring.good_store (r := { r with writeIndex := (r.writeIndex + 1) % r.length })
    ⟨h.1, Nat.mod_lt _ r.length_pos, h.2.2⟩ (Nat.mod_lt _ r.length_pos) v

theorem Ring.good_writeAt {r : Ring} (h : r.good) (d : Int) (v : Sample) : (r.writeAt d v).good :=
  Ring.good_store h (r.cell_lt d) v

theorem Ring.good_addAt {r : Ring} (h : r.good) (d : Int) (v : Sample) : (r.addAt d v).good :=
  Ring.good_store h (r.cell_lt d) _

/-- Every sample of a good ring is finite (R32 (iii), R137 (L7)). -/
theorem Ring.isFinite_cellAt {r : Ring} (h : r.good) (i : Nat) : F32.isFinite (r.cellAt i) = true := by
  unfold Ring.cellAt Mem.read
  cases hf : Mem.find r.buffer i with
  | none => rfl
  | some v =>
    have := h.2.2.2.2
    simp only [Mem.allFinite, List.all_eq_true] at this
    exact this _ (Mem.find_mem hf)

end Sys2Proof.Machine
end

