-- ==== Sys2Proof/Laws/Exec.lean ====
section
/-! SUPPORT. For each meaning, once, when it goes on and with which state. -/

namespace Sys2Proof.Machine

variable {s t : State}

/-- A part of a command that may raise: it goes on with `x` where `p` holds, with the raised fault elsewhere. -/
theorem ite_raise_eq_next {p : Prop} [Decidable p] {x : Answer State} {f : Cause} :
    (if p then x else raise f s) = .next t
      ↔ (p ∧ x = .next t) ∨ (¬p ∧ t = (s.latch f.code f.info).respond [f.code]) := by
  split_ifs with h <;> simp [h, raise_eq_next]

/-! ### LUT -/

theorem Lut.cell_eq_next {l : Lut} {i : Nat} {v : Sample} :
    l.cell i = .next v ↔ i < l.length ∧ v = (Mem.read .table l.samples i).getD F32.zero := by
  unfold Lut.cell; split_ifs with h <;> simp [h, eq_comm]

/-- Interpolation goes on exactly when both cells exist (R61, R106). -/
theorem Lut.interpolate_eq_next {l : Lut} {i : Int} {f y : Sample} :
    l.interpolate i f = .next y
      ↔ 0 ≤ i ∧ i.toNat + 1 < l.length
          ∧ y = F32.lerp ((Mem.read .table l.samples i.toNat).getD F32.zero)
            ((Mem.read .table l.samples (i.toNat + 1)).getD F32.zero) f := by
  unfold Lut.interpolate
  split_ifs with h
  · simp; omega
  · simp only [andThen_eq_next, Lut.cell_eq_next]
    constructor
    · rintro ⟨a, ⟨_, rfl⟩, b, ⟨h2, rfl⟩, he⟩
      exact ⟨by omega, h2, by simpa using he.symm⟩
    · rintro ⟨_, h2, rfl⟩
      exact ⟨_, ⟨by omega, rfl⟩, _, ⟨h2, rfl⟩, rfl⟩

/-- The clamped index is in the table (R61, R106). -/
theorem Lut.clampIndex_bounds {l : Lut} (h : 2 ≤ l.length) (i : Int) :
    0 ≤ l.clampIndex i ∧ l.clampIndex i ≤ (l.length : Int) - 2 := by
  unfold Lut.clampIndex; omega

/-- A table of two cells or more answers every finite abscissa (R106). -/
theorem Lut.evalScalar_eq {l : Lut} (h : 2 ≤ l.length) {x : Sample} (hx : F32.isFinite x = true) :
    l.evalScalar x = .next
      (F32.lerp ((Mem.read .table l.samples (l.clampIndex (l.index x)).toNat).getD F32.zero)
        ((Mem.read .table l.samples ((l.clampIndex (l.index x)).toNat + 1)).getD F32.zero) (l.fraction x)) := by
  have hb := Lut.clampIndex_bounds h (l.index x)
  unfold Lut.evalScalar
  rw [hx, require_true]
  exact Lut.interpolate_eq_next.2 ⟨hb.1, by omega, rfl⟩

/-- Where the quotient is finite the index and the fraction are its own (R106). -/
theorem Lut.index_fraction_of_finite {l : Lut} {x : Sample} (h : F32.isFinite (l.quotient x) = true) :
    l.index x = F32.floor (l.quotient x)
      ∧ l.fraction x = F32.sub (l.quotient x) (F32.i2s (F32.floor (l.quotient x))) := by
  simp only [Lut.index, Lut.fraction, F32.fracPart, h, if_true, and_self]

/-- Where it is not, the index is that of the interval `x` lies in, and in the table the fraction is that of `x` in it,
rounded once (R106 (i); log 16). -/
theorem Lut.index_fraction_of_overflow {l : Lut} {x : Sample} (h : F32.isFinite (l.quotient x) = false) :
    l.index x = l.offset x / F32.toUnits l.interval
      ∧ (l.outside x = false →
          l.fraction x = F32.ratio (l.offset x % F32.toUnits l.interval).toNat (F32.toUnits l.interval).toNat) := by
  simp only [Lut.index, Lut.fraction, h, Bool.false_eq_true, if_false]
  exact ⟨trivial, fun hd => by rw [hd, if_neg Bool.false_ne_true]⟩

/-- No evaluation reads `maxX` (R26). -/
theorem Lut.evalScalar_maxX (l : Lut) (v x : Sample) : ({ l with maxX := v } : Lut).evalScalar x = l.evalScalar x := rfl
theorem Lut.evalLane_maxX (l : Lut) (v x : Sample) : ({ l with maxX := v } : Lut).evalLane x = l.evalLane x := rfl
theorem Lut.laneOut_maxX (l : Lut) (v x : Sample) : ({ l with maxX := v } : Lut).laneOut x = l.laneOut x := rfl

theorem Lut.outside_iff {l : Lut} {x : Sample} :
    l.outside x = true ↔ l.offset x < 0 ∨ ((l.length : Int) - 1) * F32.toUnits l.interval ≤ l.offset x := by
  simp only [Lut.outside, Bool.or_eq_true, decide_eq_true_eq]

/-- The test of a lane (R108, R302). -/
theorem Lut.laneOut_iff {l : Lut} {x : Sample} :
    l.laneOut x = true
      ↔ (l.offset x < 0 ∨ ((l.length : Int) - 1) * F32.toUnits l.interval ≤ l.offset x)
          ∨ F32.isFinite (l.quotient x) = true
            ∧ (F32.floor (l.quotient x) < 0 ∨ (l.length : Int) - 2 < F32.floor (l.quotient x)) := by
  simp only [Lut.laneOut, Lut.outside_iff, Bool.or_eq_true, Bool.and_eq_true, decide_eq_true_eq]

/-- An abscissa of the table lies in one of its intervals, over the real numbers. -/
theorem Lut.offset_of_not_outside {l : Lut} {x : Sample} (h2 : 2 ≤ l.length) (h : l.outside x = false) :
    0 ≤ l.offset x / F32.toUnits l.interval ∧ l.offset x / F32.toUnits l.interval ≤ (l.length : Int) - 2 := by
  have h := mt Lut.outside_iff.2 (Bool.eq_false_iff.1 h)
  simp only [not_or, not_lt, not_le] at h
  have hpos : 0 < F32.toUnits l.interval := by
    by_contra hc
    have := Int.mul_nonpos_of_nonneg_of_nonpos (by omega : 0 ≤ (l.length : Int) - 1) (by omega : F32.toUnits l.interval ≤ 0)
    omega
  refine ⟨Int.ediv_nonneg h.1 (by omega), ?_⟩
  have := Int.ediv_lt_of_lt_mul hpos h.2
  omega

/-- A lane in range has its index in the table. -/
theorem Lut.index_of_laneOut {l : Lut} {x : Sample} (h2 : 2 ≤ l.length) (h : l.laneOut x = false) :
    0 ≤ l.index x ∧ l.index x ≤ (l.length : Int) - 2 := by
  simp only [Lut.laneOut, Bool.or_eq_false_iff] at h
  cases hq : F32.isFinite (l.quotient x) with
  | false => rw [(Lut.index_fraction_of_overflow hq).1]; exact Lut.offset_of_not_outside h2 h.1
  | true =>
    rw [(Lut.index_fraction_of_finite hq).1]
    simpa only [hq, Bool.true_and, Bool.or_eq_false_iff, decide_eq_false_iff_not, not_lt] using h.2

/-- No lane is out of range. -/
theorem Lut.firstOut_eq_none {l : Lut} {xs : List Sample} {j : Nat} :
    l.firstOut j xs = none ↔ ∀ x ∈ xs, l.laneOut x = false := by
  induction xs generalizing j with
  | nil => simp [Lut.firstOut]
  | cons x xs ih =>
    simp only [Lut.firstOut, List.forall_mem_cons]
    split_ifs with h
    · simp [h]
    · simp [h, ih]

/-- The lane it answers is the lowest one out of range (R108, R267). -/
theorem Lut.firstOut_eq_some {l : Lut} {xs : List Sample} {j n : Nat} :
    l.firstOut j xs = some n
      ↔ ∃ (i : Nat) (h : i < xs.length), n = j + i ∧ l.laneOut xs[i] = true ∧ ∀ k (hk : k < i), l.laneOut xs[k] = false := by
  induction xs generalizing j with
  | nil => simp [Lut.firstOut]
  | cons x xs ih =>
    simp only [Lut.firstOut]
    split_ifs with h
    · constructor
      · rintro ⟨⟩
        exact ⟨0, by simp, rfl, h, fun k hk => absurd hk (Nat.not_lt_zero k)⟩
      · rintro ⟨_ | i, hi, rfl, _, hk⟩
        · rfl
        · have := hk 0 (Nat.succ_pos i)
          simp only [List.getElem_cons_zero] at this
          rw [h] at this; cases this
    · rw [ih]
      constructor
      · rintro ⟨i, hi, rfl, ho, hk⟩
        refine ⟨i + 1, by simp; exact hi, by omega, by simpa using ho, fun k hk' => ?_⟩
        cases k with
        | zero => simpa using h
        | succ k => simpa using hk k (by omega)
      · rintro ⟨_ | i, hi, rfl, ho, hk⟩
        · exact absurd (by simpa using ho) h
        · exact ⟨i, by simpa using hi, by omega, by simpa using ho, fun k hk' => by simpa using hk (k + 1) (by omega)⟩

/-- In range the clamp does nothing (R106 (i), R108). -/
theorem Lut.evalLane_eq {l : Lut} {x : Sample} (h2 : 2 ≤ l.length) (hx : F32.isFinite x = true)
    (h : l.laneOut x = false) : l.evalLane x = l.evalScalar x := by
  have := Lut.index_of_laneOut h2 h
  have : l.clampIndex (l.index x) = l.index x := by unfold Lut.clampIndex; omega
  rw [Lut.evalLane, Lut.evalScalar, hx, require_true, this]

theorem execLutConfig_eq_next {tt : TableId} {a b c : Word} :
    execLutConfig tt a b c s = .next t
      ↔ ((headerOk (f32 a) (f32 b) (f32 c) = true ∧ tableLength (f32 a) (f32 b) (f32 c) ≤ Config.lutLmax)
          ∧ t = (s.setLut tt ⟨true, f32 a, f32 b, f32 c, tableLength (f32 a) (f32 b) (f32 c), []⟩).respond
            [0#32, u32Result (tableLength (f32 a) (f32 b) (f32 c))])
        ∨ (¬(headerOk (f32 a) (f32 b) (f32 c) = true ∧ tableLength (f32 a) (f32 b) (f32 c) ≤ Config.lutLmax)
          ∧ t = (s.latch 2#32 1#32).respond [2#32]) := by
  simp only [execLutConfig, ite_raise_eq_next, answer_eq_next, Bool.and_eq_true, decide_eq_true_eq]; rfl

theorem execLutWrite_eq_next {tt : TableId} {i v : Word} :
    execLutWrite tt i v s = .next t
      ↔ ((s.lut[tt]).valid = true
          ∧ ((u32 i < (s.lut[tt]).length
              ∧ t = (s.setLut tt
                  { s.lut[tt] with samples := Mem.write .table (s.lut[tt]).samples (u32 i) (f32 v) }).respond [0#32])
            ∨ (¬u32 i < (s.lut[tt]).length ∧ t = (s.latch 2#32 3#32).respond [2#32])))
        ∨ (¬(s.lut[tt]).valid = true ∧ t = (s.latch 2#32 2#32).respond [2#32]) := by
  simp only [execLutWrite, ite_raise_eq_next, answer_eq_next]; rfl

theorem execLutEval_eq_next {tt : TableId} {x : Word} :
    execLutEval tt x s = .next t
      ↔ ((s.lut[tt]).valid = true ∧ ∃ y, (s.lut[tt]).evalScalar (f32 x) = .next y ∧ t = s.respond [0#32, y])
        ∨ (¬(s.lut[tt]).valid = true ∧ t = (s.latch 2#32 2#32).respond [2#32]) := by
  simp only [execLutEval, ite_raise_eq_next, answer_eq_next, andThen_eq_next]; rfl

/-- `LUT.EVALV` raises or only answers (R108). -/
theorem execLutEvalv_eq_next {tt : TableId} {x0 x1 x2 x3 : Word} (h : execLutEvalv tt x0 x1 x2 x3 s = .next t) :
    (∃ y0 y1 y2 y3, (s.lut[tt]).valid = true ∧ t = s.respond [0#32, y0, y1, y2, y3])
      ∨ ∃ f : Cause, t = (s.latch f.code f.info).respond [f.code] := by
  unfold execLutEvalv at h
  rcases ite_raise_eq_next.1 h with ⟨hv, h⟩ | ⟨_, rfl⟩
  · obtain ⟨_, h⟩ := require_eq_next.1 h
    split at h
    · exact .inr ⟨_, raise_eq_next.1 h⟩
    · simp only [andThen_eq_next, answer_eq_next] at h
      obtain ⟨y0, _, y1, _, y2, _, y3, _, rfl⟩ := h
      exact .inl ⟨y0, y1, y2, y3, hv, rfl⟩
  · exact .inr ⟨.lutEmpty, rfl⟩

/-! ### CB -/

theorem execCbReset_eq_next {c : Channel} {n : Word} :
    execCbReset c n s = .next t
      ↔ (npow2Log (u32 n) ≤ Config.cbKmax
          ∧ t = (s.setCb c (Ring.cleared (npow2Log (u32 n)))).respond [0#32, u32Result (npow2 (u32 n))])
        ∨ (¬npow2Log (u32 n) ≤ Config.cbKmax ∧ t = (s.latch 2#32 4#32).respond [2#32]) := by
  unfold execCbReset; rw [ite_raise_eq_next, answer_eq_next]; rfl

theorem execCbPush_eq_next {c : Channel} {v : Word} :
    execCbPush c v s = .next t
      ↔ (s.cb[c]).alloc = true ∧ t = (s.setCb c ((s.cb[c]).push (f32 v))).respond [0#32] := by
  simp only [execCbPush, require_eq_next, answer_eq_next]

theorem execCbWrat_eq_next {c : Channel} {d v : Word} :
    execCbWrat c d v s = .next t
      ↔ (s.cb[c]).alloc = true ∧ t = (s.setCb c ((s.cb[c]).writeAt (i32 d) (f32 v))).respond [0#32] := by
  simp only [execCbWrat, require_eq_next, answer_eq_next]

theorem execCbAddat_eq_next {c : Channel} {d v : Word} :
    execCbAddat c d v s = .next t
      ↔ (s.cb[c]).alloc = true ∧ t = (s.setCb c ((s.cb[c]).addAt (i32 d) (f32 v))).respond [0#32] := by
  simp only [execCbAddat, require_eq_next, answer_eq_next]

theorem execCbRdi_eq_next {c : Channel} {d : Word} :
    execCbRdi c d s = .next t
      ↔ (s.cb[c]).alloc = true ∧ t = s.respond [0#32, (s.cb[c]).readAt (i32 d)] := by
  simp only [execCbRdi, require_eq_next, answer_eq_next]

theorem Ring.tap_eq_next {r : Ring} {d y : Sample} :
    r.tap d = .next y ↔ r.alloc = true ∧ delayOk d = true ∧ y = r.readFrac d := by
  unfold Ring.tap
  rw [require_eq_next, require_eq_next]
  constructor
  · rintro ⟨h1, h2, h⟩; cases h; exact ⟨h1, h2, rfl⟩
  · rintro ⟨h1, h2, rfl⟩; exact ⟨h1, h2, rfl⟩

theorem execCbRdf_eq_next {c : Channel} {d : Word} :
    execCbRdf c d s = .next t
      ↔ (s.cb[c]).alloc = true ∧ delayOk (f32 d) = true ∧ t = s.respond [0#32, (s.cb[c]).readFrac (f32 d)] := by
  simp only [execCbRdf, andThen_eq_next, answer_eq_next, Ring.tap_eq_next]
  constructor
  · rintro ⟨y, ⟨h1, h2, rfl⟩, rfl⟩; exact ⟨h1, h2, rfl⟩
  · rintro ⟨h1, h2, rfl⟩; exact ⟨_, ⟨h1, h2, rfl⟩, rfl⟩

/-! ### BQ -/

theorem Biquad.process_eq_next {q q' : Biquad} {x y : Sample} :
    q.process x = .next (q', y) ↔ q.coefHeld = true ∧ q.memHeld = true ∧ q' = q.advance x ∧ y = q.mixed x := by
  simp only [Biquad.process, require_eq_next, Bool.and_eq_true]
  constructor
  · rintro ⟨⟨h1, h2⟩, h⟩; cases h; exact ⟨h1, h2, rfl, rfl⟩
  · rintro ⟨h1, h2, rfl, rfl⟩; exact ⟨⟨h1, h2⟩, rfl⟩

theorem bqProcAt_eq_next {c : Channel} {j : Slot} {x y : Sample} :
    bqProcAt c j x s = .next (t, y)
      ↔ (s.getBq c j).coefHeld = true ∧ (s.getBq c j).memHeld = true
          ∧ t = s.setBq c j ((s.getBq c j).advance x) ∧ y = (s.getBq c j).mixed x := by
  simp only [bqProcAt, andThen_eq_next]
  constructor
  · rintro ⟨⟨q, z⟩, h, he⟩
    obtain ⟨h1, h2, rfl, rfl⟩ := Biquad.process_eq_next.1 h
    cases he; exact ⟨h1, h2, rfl, rfl⟩
  · rintro ⟨h1, h2, rfl, rfl⟩
    exact ⟨(_, _), Biquad.process_eq_next.2 ⟨h1, h2, rfl, rfl⟩, rfl⟩

theorem execBqClear_eq_next {c : Channel} {j : Slot} :
    execBqClear c j s = .next t ↔ t = (s.setBq c j (s.getBq c j).clear).respond [0#32] := answer_eq_next

theorem execBqProc_eq_next {c : Channel} {j : Slot} {x : Word} :
    execBqProc c j x s = .next t
      ↔ (s.getBq c j).coefHeld = true ∧ (s.getBq c j).memHeld = true
          ∧ t = (s.setBq c j ((s.getBq c j).advance (f32 x))).respond [0#32, (s.getBq c j).mixed (f32 x)] := by
  simp only [execBqProc, andThen_eq_next, answer_eq_next]
  constructor
  · rintro ⟨⟨u, y⟩, h, rfl⟩
    obtain ⟨h1, h2, rfl, rfl⟩ := bqProcAt_eq_next.1 h
    exact ⟨h1, h2, rfl⟩
  · rintro ⟨h1, h2, rfl⟩
    exact ⟨(_, _), bqProcAt_eq_next.2 ⟨h1, h2, rfl, rfl⟩, rfl⟩

theorem bqSet_eq_next {k : Design} {c : Channel} {j : Slot} {fc : Sample} :
    bqSet k c j fc s = .next t
      ↔ s.sys.rateSet = true ∧ F32.isPositive fc = true
          ∧ t = (s.setBq c j ((s.getBq c j).setDesign params k fc s.sys.sampleRate)).respond [0#32] := by
  simp only [bqSet, require_eq_next, answer_eq_next]

theorem execBqLoadc_eq_next {c : Channel} {j : Slot} {a0 a1 a2 b1 b2 c0 d0 : Word} :
    execBqLoadc c j a0 a1 a2 b1 b2 c0 d0 s = .next t
      ↔ t = (s.setBq c j
          { s.getBq c j with
            a0 := f32 a0, a1 := f32 a1, a2 := f32 a2, b1 := f32 b1, b2 := f32 b2, c0 := f32 c0, d0 := f32 d0
            coefHeld := true, kind := none }).respond [0#32] := answer_eq_next

/-- `BQ.PROC4` advances slot 2 by `x` and slot 3 by what slot 2 gives (R168). -/
theorem execBqProc4_eq_next {c : Channel} {x : Word} :
    execBqProc4 c x s = .next t
      ↔ ((s.getBq c 2).coefHeld = true ∧ (s.getBq c 2).memHeld = true)
          ∧ ((s.getBq c 3).coefHeld = true ∧ (s.getBq c 3).memHeld = true)
          ∧ t = ((s.setBq c 2 ((s.getBq c 2).advance (f32 x))).setBq c 3
              ((s.getBq c 3).advance ((s.getBq c 2).mixed (f32 x)))).respond
            [0#32, (s.getBq c 3).mixed ((s.getBq c 2).mixed (f32 x))] := by
  simp only [execBqProc4, andThen_eq_next, answer_eq_next]
  have h3 : ∀ q, (s.setBq c 2 q).getBq c 3 = s.getBq c 3 := fun q => by
    rw [State.getBq_setBq, if_neg (by simp)]
  constructor
  · rintro ⟨⟨u, y⟩, h, ⟨v, z⟩, h', rfl⟩
    obtain ⟨h1, h2, rfl, rfl⟩ := bqProcAt_eq_next.1 h
    obtain ⟨h4, h5, rfl, rfl⟩ := bqProcAt_eq_next.1 h'
    simp only [h3] at h4 h5 ⊢
    exact ⟨⟨h1, h2⟩, ⟨h4, h5⟩, trivial⟩
  · rintro ⟨⟨h1, h2⟩, ⟨h4, h5⟩, rfl⟩
    exact ⟨(_, _), bqProcAt_eq_next.2 ⟨h1, h2, rfl, rfl⟩, (_, _),
      bqProcAt_eq_next.2 ⟨by rw [h3]; exact h4, by rw [h3]; exact h5, rfl, rfl⟩, by rw [h3]⟩

theorem laneChannel_ne (g : LaneGroup) {i j : Fin Config.lanes} (h : i ≠ j) : laneChannel g i ≠ laneChannel g j := by
  intro he; apply h
  have := congrArg Fin.val he
  simp only [laneChannel] at this
  exact Fin.ext (by omega)

/-- `BQ.PROCV` advances the four sections, each by its own lane (R170). -/
theorem execBqProcv_eq_next {g : LaneGroup} {j : Slot} {x0 x1 x2 x3 : Word} :
    execBqProcv g j x0 x1 x2 x3 s = .next t
      ↔ (∀ l, (s.getBq (laneChannel g l) j).coefHeld = true ∧ (s.getBq (laneChannel g l) j).memHeld = true)
          ∧ t = ((((s.setBq (laneChannel g 0) j ((s.getBq (laneChannel g 0) j).advance (f32 x0))).setBq
                (laneChannel g 1) j ((s.getBq (laneChannel g 1) j).advance (f32 x1))).setBq
                (laneChannel g 2) j ((s.getBq (laneChannel g 2) j).advance (f32 x2))).setBq
                (laneChannel g 3) j ((s.getBq (laneChannel g 3) j).advance (f32 x3))).respond
            [0#32, (s.getBq (laneChannel g 0) j).mixed (f32 x0), (s.getBq (laneChannel g 1) j).mixed (f32 x1),
              (s.getBq (laneChannel g 2) j).mixed (f32 x2), (s.getBq (laneChannel g 3) j).mixed (f32 x3)] := by
  simp only [execBqProcv, andThen_eq_next, answer_eq_next]
  have hne : ∀ {i k : Fin Config.lanes}, i ≠ k → ∀ (u : State) q,
      (u.setBq (laneChannel g i) j q).getBq (laneChannel g k) j = u.getBq (laneChannel g k) j := by
    intro i k h u q
    rw [State.getBq_setBq, if_neg]
    exact fun he => laneChannel_ne g h he.1.symm
  have a01 : (0 : Fin Config.lanes) ≠ 1 := by decide
  have a02 : (0 : Fin Config.lanes) ≠ 2 := by decide
  have a03 : (0 : Fin Config.lanes) ≠ 3 := by decide
  have a12 : (1 : Fin Config.lanes) ≠ 2 := by decide
  have a13 : (1 : Fin Config.lanes) ≠ 3 := by decide
  have a23 : (2 : Fin Config.lanes) ≠ 3 := by decide
  constructor
  · rintro ⟨⟨u0, y0⟩, h0, ⟨u1, y1⟩, h1, ⟨u2, y2⟩, h2, ⟨u3, y3⟩, h3, rfl⟩
    obtain ⟨p0, q0, rfl, rfl⟩ := bqProcAt_eq_next.1 h0
    obtain ⟨p1, q1, rfl, rfl⟩ := bqProcAt_eq_next.1 h1
    obtain ⟨p2, q2, rfl, rfl⟩ := bqProcAt_eq_next.1 h2
    obtain ⟨p3, q3, rfl, rfl⟩ := bqProcAt_eq_next.1 h3
    simp only [hne a01, hne a02, hne a03, hne a12, hne a13, hne a23] at *
    refine ⟨fun l => ?_, trivial⟩
    fin_cases l
    exacts [⟨p0, q0⟩, ⟨p1, q1⟩, ⟨p2, q2⟩, ⟨p3, q3⟩]
  · rintro ⟨h, rfl⟩
    refine ⟨(_, _), bqProcAt_eq_next.2 ⟨(h 0).1, (h 0).2, rfl, rfl⟩, (_, _), bqProcAt_eq_next.2 ⟨?_, ?_, rfl, rfl⟩,
      (_, _), bqProcAt_eq_next.2 ⟨?_, ?_, rfl, rfl⟩, (_, _), bqProcAt_eq_next.2 ⟨?_, ?_, rfl, rfl⟩, ?_⟩ <;>
      simp only [hne a01, hne a02, hne a03, hne a12, hne a13, hne a23, (h 1).1, (h 1).2, (h 2).1, (h 2).2, (h 3).1,
        (h 3).2]

/-! ### CMP -/

theorem execCmpSetTimes_eq_next {c : Channel} {a r : Word} :
    execCmpSetTimes c a r s = .next t
      ↔ s.sys.rateSet = true ∧ (F32.isPositive (f32 a) = true ∧ F32.isPositive (f32 r) = true)
          ∧ t = (s.setCmp c ((s.cmp[c]).setTimes params (f32 a) (f32 r))).respond [0#32] := by
  simp only [execCmpSetTimes, require_eq_next, answer_eq_next, Bool.and_eq_true]

theorem execCmpSetCurve_eq_next {c : Channel} {th ra : Word} :
    execCmpSetCurve c th ra s = .next t
      ↔ (F32.isFinite (f32 th) = true ∧ F32.isPositive (f32 ra) = true)
          ∧ t = (s.setCmp c ((s.cmp[c]).setCurve (f32 th) (f32 ra))).respond [0#32] := by
  simp only [execCmpSetCurve, require_eq_next, answer_eq_next, Bool.and_eq_true]

theorem Compressor.process_eq_next {p : Params} {m m' : Compressor} {x y : Sample} :
    m.process p x = .next (m', y)
      ↔ (m.timesHeld = true ∧ m.curveHeld = true ∧ m.envHeld = true)
          ∧ m' = m.advance p x ∧ y = F32.mul x (m.advance p x).gain := by
  simp only [Compressor.process, require_eq_next, Bool.and_eq_true]
  constructor
  · rintro ⟨⟨⟨h1, h2⟩, h3⟩, h⟩; cases h; exact ⟨⟨h1, h2, h3⟩, rfl, rfl⟩
  · rintro ⟨⟨h1, h2, h3⟩, rfl, rfl⟩; exact ⟨⟨⟨h1, h2⟩, h3⟩, rfl⟩

theorem execCmpProc_eq_next {c : Channel} {x : Word} :
    execCmpProc c x s = .next t
      ↔ ((s.cmp[c]).timesHeld = true ∧ (s.cmp[c]).curveHeld = true ∧ (s.cmp[c]).envHeld = true)
          ∧ t = (s.setCmp c ((s.cmp[c]).advance params (f32 x))).respond
            [0#32, F32.mul (f32 x) ((s.cmp[c]).advance params (f32 x)).gain] := by
  simp only [execCmpProc, andThen_eq_next, answer_eq_next]
  constructor
  · rintro ⟨⟨m, y⟩, h, rfl⟩
    obtain ⟨h1, rfl, rfl⟩ := Compressor.process_eq_next.1 h
    exact ⟨h1, rfl⟩
  · rintro ⟨h1, rfl⟩
    exact ⟨(_, _), Compressor.process_eq_next.2 ⟨h1, rfl, rfl⟩, rfl⟩

/-! ### WS -/

/-- A curve is loaded exactly when each of its cells reads as a value (R203). -/
theorem curveLoaded_iff {m : Mem} (h : curveGood m) :
    curveLoaded m = true ↔ ∀ i, i < 4096 → Mem.read .curve m i ≠ none := by
  have hr : Mem.risingFrom 0 m = true := by
    have := h.1; simp only [Mem.wf, Bool.and_eq_true] at this; exact this.1
  have := (Mem.length_le_of_rising hr h.2 (Nat.zero_le _)).2
  simp only [curveLoaded, decide_eq_true_eq]
  have hread : ∀ i, Mem.read .curve m i = Mem.find m i := by
    intro i; unfold Mem.read; cases Mem.find m i <;> rfl
  simp only [hread]
  constructor
  · intro h i hi; exact this.1 (by omega) i (Nat.zero_le _) hi
  · intro h; have := this.2 fun i _ hi => h i hi; omega

/-- The masked index: bits 11..1 of the floor, even (R203 (i)). -/
theorem wsIndex_eq (x : Sample) : (wsIndex x : Int) = F32.floor (wsQuotient x) % 4096 - F32.floor (wsQuotient x) % 2
   ∧ wsIndex x % 2 = 0 ∧ wsIndex x ≤ 4094 := by
  unfold wsIndex maskInt
  generalize F32.floor (wsQuotient x) = i
  have h0 := Int.emod_nonneg i (b := 2 ^ 32) (by decide)
  have h1 := Int.emod_lt_of_pos i (b := 2 ^ 32) (by decide)
  generalize hn : (i % 2 ^ 32).toNat = n
  have hi : i % 2 ^ 32 = n := by omega
  have hand : n &&& Config.wsMask = n % 4096 - n % 2 := by
    have e1 : n / 2 &&& 2047 = n / 2 % 2048 := Nat.and_two_pow_sub_one_eq_mod (n / 2) 11
    have e2 : (n &&& 4094) / 2 = n / 2 &&& 2047 := Nat.and_div_two
    have e3 : (n &&& 4094) % 2 = 0 := by
      have := Nat.and_mod_two_pow (a := n) (b := 4094) (n := 1)
      simpa using this
    show n &&& 4094 = _
    omega
  rw [hand]
  omega

/-- A loaded curve answers every abscissa (R203). -/
theorem curveAt_completes {m : Mem} (h : ∀ i, i < Config.wsLen → Mem.read .curve m i ≠ none) (x : Sample) :
    ∃ a b, Mem.read .curve m (wsIndex x) = some a ∧ Mem.read .curve m (wsIndex x + 1) = some b
      ∧ curveAt m x = .next (F32.lerp a b (F32.fracPart (wsQuotient x))) := by
  have hi := (wsIndex_eq x).2.2
  obtain ⟨a, ha⟩ := Option.ne_none_iff_exists'.1 (h (wsIndex x) (by show _ < 4096; omega))
  obtain ⟨b, hb⟩ := Option.ne_none_iff_exists'.1 (h (wsIndex x + 1) (by show _ < 4096; omega))
  exact ⟨a, b, ha, hb, by rw [curveAt, ha, hb]⟩

theorem execWsWrite_eq_next {k : CurveId} {i v : Word} :
    execWsWrite k i v s = .next t
      ↔ (u32 i < Config.wsLen
          ∧ t = (s.setWs k (Mem.write .curve (s.ws[k]) (u32 i) (f32 v))).respond [0#32])
        ∨ (¬u32 i < Config.wsLen ∧ t = (s.latch 2#32 5#32).respond [2#32]) := by
  simp only [execWsWrite, ite_raise_eq_next, answer_eq_next]; rfl

theorem execWsEval_eq_next {k : CurveId} {x : Word} :
    execWsEval k x s = .next t
      ↔ curveLoaded (s.ws[k]) = true ∧ F32.isFinite (f32 x) = true
          ∧ ∃ y, curveAt (s.ws[k]) (f32 x) = .next y ∧ t = s.respond [0#32, y] := by
  simp only [execWsEval, require_eq_next, andThen_eq_next, answer_eq_next]

/-! ### SYS -/

theorem execSysStatus_eq_next :
    execSysStatus s = .next t ↔ t = s.respond [0#32, s.sys.fault.code, s.sys.fault.info] := answer_eq_next

theorem execSysSetRate_eq_next {r : Word} :
    execSysSetRate r s = .next t
      ↔ F32.isPositive (f32 r) = true ∧ t = (setRate params (f32 r) s).respond [0#32] := by
  simp only [execSysSetRate, require_eq_next, answer_eq_next]

theorem execSysInit_eq_next :
    execSysInit s = .next t
      ↔ s.sys.rateSet = true
          ∧ ((npow2Log (ksMinSize s.sys.sampleRate) ≤ Config.cbKmax
              ∧ t = (initAll params (npow2Log (ksMinSize s.sys.sampleRate)) s).respond [0#32])
            ∨ (¬npow2Log (ksMinSize s.sys.sampleRate) ≤ Config.cbKmax
              ∧ t = (s.latch 2#32 4#32).respond [2#32])) := by
  simp only [execSysInit, require_eq_next, ite_raise_eq_next, answer_eq_next]; rfl

theorem execSysStep_eq_next {p : StepControls} {vs : List VoiceIn} :
    execSysStep p vs s = .next t
      ↔ (Config.nchMax < vs.length ∧ t = (s.latch 1#32 0x03000000#32).respond [1#32])
        ∨ (vs.length ≤ Config.nchMax ∧ s.sys.inited = true ∧ stepOperandsFinite p vs = true
          ∧ ∃ u, stepChannels (frameEnv params p s) s.draws (activeChannels vs) s = .next u
            ∧ t = (finishStep vs.length u).respond (0#32 :: stepResults vs u)) := by
  unfold execSysStep
  split_ifs with h
  · simp only [raise_eq_next, h, true_and]
    constructor
    · exact .inl
    · rintro (h' | ⟨h', _⟩)
      · exact h'
      · omega
  · simp only [require_eq_next, andThen_eq_next, answer_eq_next, h, false_and, false_or]
    constructor
    · rintro ⟨a, b, c⟩; exact ⟨by omega, a, b, c⟩
    · rintro ⟨_, a, b, c⟩; exact ⟨a, b, c⟩

end Sys2Proof.Machine
end

