-- ==== Sys2Proof/Laws/PerInstr.lean ====
section
/-! SUPPORT. The family `HeaderWord`: the command word of every instruction selects its own row and carries its own
selectors (R81, R84, R87). -/

namespace Sys2Proof.Laws.HeaderWord

open Sys2Proof

/-- The first word of the encoding matches the row of the command, and no other, and `SEL` and `SUB` read back. -/
def Statement (i : Instr) : Prop :=
  ∃ w ws, encode i = w :: ws ∧ Opcode.ofWord w = some i.opcode ∧ selField w = i.sel ∧ subField w = i.sub

theorem sysStatus : Statement (.sysStatus) :=
  ⟨_, _, rfl, header_sysStatus⟩

theorem sysSetRate (rate : Word) : Statement (.sysSetRate rate) :=
  ⟨_, _, rfl, header_sysSetRate⟩

theorem sysInit : Statement (.sysInit) :=
  ⟨_, _, rfl, header_sysInit⟩

theorem sysStep (controls : StepControls) (voices : List VoiceIn) : Statement (.sysStep controls voices) :=
  ⟨_, _, rfl, header_sysStep⟩

theorem lutConfig (t : TableId) (minX : Word) (maxX : Word) (interval : Word) : Statement (.lutConfig t minX maxX interval) :=
  ⟨_, _, rfl, header_lutConfig t⟩

theorem lutWrite (t : TableId) (index : Word) (value : Word) : Statement (.lutWrite t index value) :=
  ⟨_, _, rfl, header_lutWrite t⟩

theorem lutEval (t : TableId) (x : Word) : Statement (.lutEval t x) :=
  ⟨_, _, rfl, header_lutEval t⟩

theorem lutEvalv (t : TableId) (x0 : Word) (x1 : Word) (x2 : Word) (x3 : Word) : Statement (.lutEvalv t x0 x1 x2 x3) :=
  ⟨_, _, rfl, header_lutEvalv t⟩

theorem cbReset (c : Channel) (minSize : Word) : Statement (.cbReset c minSize) :=
  ⟨_, _, rfl, header_cbReset c⟩

theorem cbPush (c : Channel) (value : Word) : Statement (.cbPush c value) :=
  ⟨_, _, rfl, header_cbPush c⟩

theorem cbWrat (c : Channel) (offset : Word) (value : Word) : Statement (.cbWrat c offset value) :=
  ⟨_, _, rfl, header_cbWrat c⟩

theorem cbAddat (c : Channel) (offset : Word) (value : Word) : Statement (.cbAddat c offset value) :=
  ⟨_, _, rfl, header_cbAddat c⟩

theorem cbRdi (c : Channel) (delay : Word) : Statement (.cbRdi c delay) :=
  ⟨_, _, rfl, header_cbRdi c⟩

theorem cbRdf (c : Channel) (delay : Word) : Statement (.cbRdf c delay) :=
  ⟨_, _, rfl, header_cbRdf c⟩

theorem bqClear (c : Channel) (slot : Slot) : Statement (.bqClear c slot) :=
  ⟨_, _, rfl, header_bqClear c slot⟩

theorem bqProc (c : Channel) (slot : Slot) (x : Word) : Statement (.bqProc c slot x) :=
  ⟨_, _, rfl, header_bqProc c slot⟩

theorem bqSetBwLp2 (c : Channel) (slot : Slot) (fc : Word) : Statement (.bqSetBwLp2 c slot fc) :=
  ⟨_, _, rfl, header_bqSetBwLp2 c slot⟩

theorem bqSetBwHp2 (c : Channel) (slot : Slot) (fc : Word) : Statement (.bqSetBwHp2 c slot fc) :=
  ⟨_, _, rfl, header_bqSetBwHp2 c slot⟩

theorem bqSetLrLp2 (c : Channel) (slot : Slot) (fc : Word) : Statement (.bqSetLrLp2 c slot fc) :=
  ⟨_, _, rfl, header_bqSetLrLp2 c slot⟩

theorem bqSetLrHp2 (c : Channel) (slot : Slot) (fc : Word) : Statement (.bqSetLrHp2 c slot fc) :=
  ⟨_, _, rfl, header_bqSetLrHp2 c slot⟩

theorem bqSetAp1 (c : Channel) (slot : Slot) (fc : Word) : Statement (.bqSetAp1 c slot fc) :=
  ⟨_, _, rfl, header_bqSetAp1 c slot⟩

theorem bqLoadc (c : Channel) (slot : Slot) (a0 : Word) (a1 : Word) (a2 : Word) (b1 : Word) (b2 : Word) (c0 : Word) (d0 : Word) : Statement (.bqLoadc c slot a0 a1 a2 b1 b2 c0 d0) :=
  ⟨_, _, rfl, header_bqLoadc c slot⟩

theorem bqProc4 (c : Channel) (x : Word) : Statement (.bqProc4 c x) :=
  ⟨_, _, rfl, header_bqProc4 c⟩

theorem bqProcv (g : LaneGroup) (slot : Slot) (x0 : Word) (x1 : Word) (x2 : Word) (x3 : Word) : Statement (.bqProcv g slot x0 x1 x2 x3) :=
  ⟨_, _, rfl, header_bqProcv g slot⟩

theorem cmpSetTimes (c : Channel) (attack : Word) (release : Word) : Statement (.cmpSetTimes c attack release) :=
  ⟨_, _, rfl, header_cmpSetTimes c⟩

theorem cmpSetCurve (c : Channel) (threshold : Word) (ratio : Word) : Statement (.cmpSetCurve c threshold ratio) :=
  ⟨_, _, rfl, header_cmpSetCurve c⟩

theorem cmpProc (c : Channel) (x : Word) : Statement (.cmpProc c x) :=
  ⟨_, _, rfl, header_cmpProc c⟩

theorem wsWrite (curve : CurveId) (index : Word) (value : Word) : Statement (.wsWrite curve index value) :=
  ⟨_, _, rfl, header_wsWrite curve⟩

theorem wsEval (curve : CurveId) (x : Word) : Statement (.wsEval curve x) :=
  ⟨_, _, rfl, header_wsEval curve⟩

end Sys2Proof.Laws.HeaderWord
end

