-- ==== Sys2Proof/Laws/Stability.lean ====
section
/-! SUPPORT. R172 on ideal values: over the real numbers, the recurrence and the design formulas that the block evaluates
in binary32 have their poles inside the unit circle, and the impulse response of a designed section tends to 0. -/

namespace Sys2Proof.Machine

open Filter Topology

/-- The ideal numerics of R160 to R172: real numbers, the tangent itself. -/
noncomputable def idealNumerics : Numerics ℝ where
  zero := 0
  one := 1
  two := 2
  add := (· + ·)
  sub := (· - ·)
  mul := (· * ·)
  div := (· / ·)
  pi := Real.pi
  sqrt2 := Real.sqrt 2
  tan := Real.tan

/-- Both poles of R152's recurrence, the zeros of `z^2 + b1 z + b2`, lie strictly inside the unit circle: Jury's
conditions on the two feedback coefficients. -/
def Coeffs.Stable (d : Coeffs ℝ) : Prop := d.b2 < 1 ∧ |d.b1| < 1 + d.b2

/-- A cleared section's outputs on the input `u`, with the history that R152 keeps. -/
def outputs {S : Type} (n : Arith S) (d : Coeffs S) (u : ℕ → S) : ℕ → S × S × S × S
  | 0 => (recurrence n d (u 0) n.zero n.zero n.zero n.zero, n.zero, u 0, n.zero)
  | k + 1 =>
    let (y1, y2, x1, x2) := outputs n d u k
    (recurrence n d (u (k + 1)) x1 x2 y1 y2, y1, u (k + 1), x1)

/-- The unit impulse. -/
def impulse {S : Type} (n : Arith S) : ℕ → S
  | 0 => n.one
  | _ + 1 => n.zero

/-- The impulse response of R152's recurrence from a cleared memory. -/
def impulseResponse {S : Type} (n : Arith S) (d : Coeffs S) (k : ℕ) : S := (outputs n d (impulse n) k).1

/-! ### The recurrence decays -/

/-- Jury's conditions say that the sequence `y (k+2) = -b1 y (k+1) - b2 y k` has a positive quadratic form that falls by
`(1 - b2) (y (k+2) - y k)^2` a step, so that `y` tends to 0. -/
theorem tendsto_zero_of_recurrence {b1 b2 : ℝ} (h2 : b2 < 1) (h1 : |b1| < 1 + b2) {y : ℕ → ℝ}
    (hy : ∀ k, y (k + 2) = -(b1 * y (k + 1)) - b2 * y k) : Tendsto y atTop (𝓝 0) := by
  obtain ⟨hl, hr⟩ := abs_lt.1 h1
  let V : ℕ → ℝ := fun k => (1 + b2) * (y (k + 1) ^ 2 + y k ^ 2) + 2 * b1 * (y (k + 1) * y k)
  have fall : ∀ k, V k - V (k + 1) = (1 - b2) * (y (k + 2) - y k) ^ 2 := fun k => by
    simp only [V, show k + 1 + 1 = k + 2 from rfl, hy k]
    ring
  have pos : ∀ k, 0 ≤ V k := fun k => by
    have e : V k = (1 + b2 + b1) / 2 * (y (k + 1) + y k) ^ 2 + (1 + b2 - b1) / 2 * (y (k + 1) - y k) ^ 2 := by
      simp only [V]; ring
    rw [e]
    have := mul_nonneg (by linarith : 0 ≤ (1 + b2 + b1) / 2) (sq_nonneg (y (k + 1) + y k))
    have := mul_nonneg (by linarith : 0 ≤ (1 + b2 - b1) / 2) (sq_nonneg (y (k + 1) - y k))
    linarith
  have anti : Antitone V := antitone_nat_of_succ_le fun k => by
    have := mul_nonneg (by linarith : 0 ≤ 1 - b2) (sq_nonneg (y (k + 2) - y k))
    linarith [fall k]
  have lim := tendsto_atTop_ciInf anti ⟨0, by rintro _ ⟨k, rfl⟩; exact pos k⟩
  have gap : Tendsto (fun k => (1 - b2) * (y (k + 2) - y k) ^ 2) atTop (𝓝 0) := by
    have := lim.sub (lim.comp (tendsto_add_atTop_nat 1))
    rw [sub_self] at this
    exact this.congr fun k => fall k
  have step : Tendsto (fun k => y (k + 2) - y k) atTop (𝓝 0) := by
    have h : Tendsto (fun k => (y (k + 2) - y k) ^ 2) atTop (𝓝 0) := by
      have := gap.const_mul (1 - b2)⁻¹
      rw [mul_zero] at this
      exact this.congr fun k => by rw [← mul_assoc, inv_mul_cancel₀ (by linarith), one_mul]
    refine squeeze_zero_norm (a := fun k => Real.sqrt ((y (k + 2) - y k) ^ 2)) (fun k => ?_) ?_
    · rw [Real.sqrt_sq_eq_abs, Real.norm_eq_abs]
    · have := (Real.continuous_sqrt.tendsto 0).comp h
      rwa [Real.sqrt_zero] at this
  have low : Tendsto (fun k => (1 + b2) * y k + b1 * y (k + 1)) atTop (𝓝 0) := by
    have := step.neg
    rw [neg_zero] at this
    exact this.congr fun k => by rw [hy k]; ring
  have high : Tendsto (fun k => (1 + b2) * y (k + 1) + b1 * y k) atTop (𝓝 0) := by
    have := (low.comp (tendsto_add_atTop_nat 1)).sub (step.const_mul b1)
    rw [mul_zero, sub_zero] at this
    exact this.congr fun k => by simp only [Function.comp]; ring
  have det : 0 < (1 + b2) ^ 2 - b1 ^ 2 := by
    have := mul_pos (by linarith : 0 < 1 + b2 + b1) (by linarith : 0 < 1 + b2 - b1)
    nlinarith only [this]
  have := ((low.const_mul (1 + b2)).sub (high.const_mul b1)).const_mul ((1 + b2) ^ 2 - b1 ^ 2)⁻¹
  rw [mul_zero, mul_zero, sub_zero, mul_zero] at this
  exact this.congr fun k => by
    rw [inv_mul_eq_iff_eq_mul₀ (ne_of_gt det)]
    ring

/-- The history after the first step is the last two outputs and inputs. -/
theorem outputs_snd {S : Type} (n : Arith S) (d : Coeffs S) (u : ℕ → S) (k : ℕ) :
    (outputs n d u (k + 1)).2 = ((outputs n d u k).1, u (k + 1), u k) := by
  cases k <;> rfl

/-- R172, the decay: a section with both poles inside the unit circle has an impulse response that tends to 0. -/
theorem Coeffs.Stable.impulseResponse_tendsto {d : Coeffs ℝ} (h : d.Stable) :
    Tendsto (impulseResponse idealNumerics.toArith d) atTop (𝓝 0) := by
  refine (tendsto_add_atTop_iff_nat 1).1 (tendsto_zero_of_recurrence h.1 h.2 fun k => ?_)
  have e : outputs idealNumerics.toArith d (impulse idealNumerics.toArith) (k + 2)
      = (impulseResponse idealNumerics.toArith d (k + 2), impulseResponse idealNumerics.toArith d (k + 1), 0, 0) :=
    Prod.ext rfl (outputs_snd _ d _ (k + 1))
  show (outputs _ d _ (k + 3)).1 = _
  rw [outputs, e]
  show d.a0 * 0 + d.a1 * 0 + d.a2 * 0 - d.b1 * _ - d.b2 * _ = _
  ring

/-! ### The designs are stable -/

/-- The tangent of a cutoff between 0 and half the rate is positive. -/
theorem tan_designAngle_pos {fcl rate : ℝ} (h0 : 0 < fcl) (h1 : fcl < rate / 2) :
    0 < idealNumerics.tan (designAngle idealNumerics fcl rate) := by
  refine Real.tan_pos_of_pos_of_lt_pi_div_two (div_pos (mul_pos Real.pi_pos h0) (by linarith)) ?_
  show Real.pi * fcl / rate < Real.pi / 2
  rw [div_lt_div_iff₀ (by linarith) two_pos]
  nlinarith only [mul_lt_mul_of_pos_left h1 Real.pi_pos]

/-- Feedback coefficients over a common positive denominator. -/
theorem stable_of_ratio {d : Coeffs ℝ} {p q e : ℝ} (he : 0 < e) (h1 : d.b1 = p / e) (h2 : d.b2 = q / e) (hq : q < e)
    (hp : |p| < e + q) : d.Stable := by
  refine ⟨by rw [h2, div_lt_one he]; exact hq, ?_⟩
  rw [h1, h2, abs_div, abs_of_pos he, ← div_self (ne_of_gt he), ← add_div]
  exact div_lt_div_of_pos_right hp he

/-- The two Butterworth designs, for a positive `C` (R160, R161). -/
theorem stable_butterworth {d : Coeffs ℝ} {c p : ℝ} (hc : 0 < c) (hp : p = 1 - c * c ∨ p = c * c - 1)
    (h1 : d.b1 = 2 * (1 / bwDenominator idealNumerics c) * p)
    (h2 : d.b2 = 1 / bwDenominator idealNumerics c * bwNumerator idealNumerics c) : d.Stable := by
  have hs : 0 < Real.sqrt 2 * c := mul_pos (Real.sqrt_pos.2 two_pos) hc
  have hcc : 0 < c * c := mul_pos hc hc
  have ed : bwDenominator idealNumerics c = 1 + Real.sqrt 2 * c + c * c := rfl
  have en : bwNumerator idealNumerics c = 1 - Real.sqrt 2 * c + c * c := rfl
  refine stable_of_ratio (p := 2 * p) (q := bwNumerator idealNumerics c) (e := bwDenominator idealNumerics c)
    (by rw [ed]; linarith) (by rw [h1]; ring) (by rw [h2]; ring) (by rw [ed, en]; linarith) ?_
  rw [ed, en, abs_lt]
  constructor <;> rcases hp with rfl | rfl <;> linarith

/-- The two Linkwitz-Riley designs, for positive `ka` and `om` (R162, R163). -/
theorem stable_linkwitzRiley {d : Coeffs ℝ} {ka om : ℝ} (hk : 0 < ka) (ho : 0 < om)
    (h1 : d.b1 = lrB1 idealNumerics ka om) (h2 : d.b2 = lrB2 idealNumerics ka om) : d.Stable := by
  have hkk : 0 < ka * ka := mul_pos hk hk
  have hoo : 0 < om * om := mul_pos ho ho
  have hko : 0 < ka * om := mul_pos hk ho
  have ed : lrDelta idealNumerics ka om = ka * ka + om * om + 2 * ka * om := rfl
  refine stable_of_ratio (p := 0 - 2 * ka * ka + 2 * om * om) (q := 0 - 2 * ka * om + ka * ka + om * om)
    (e := lrDelta idealNumerics ka om) (by rw [ed]; nlinarith only [hkk, hoo, hko]) h1 h2
    (by rw [ed]; nlinarith only [hko]) ?_
  rw [ed, abs_lt]
  constructor <;> nlinarith only [hkk, hoo, hko]

/-- R172: on ideal values the poles of every design lie strictly inside the unit circle, for a cutoff between 0 and half
the rate (R160 to R163; R164 too). -/
theorem design_stable (k : Design) {fcl rate : ℝ} (h0 : 0 < fcl) (h1 : fcl < rate / 2) :
    (designOver idealNumerics k fcl rate).Stable := by
  have ht := tan_designAngle_pos h0 h1
  have ho : 0 < lrOmega idealNumerics fcl := mul_pos Real.pi_pos h0
  have hk : 0 < lrKappa idealNumerics fcl rate := div_pos ho ht
  cases k with
  | bwlp2 => exact stable_butterworth (div_pos one_pos ht) (.inl rfl) rfl rfl
  | bwhp2 => exact stable_butterworth ht (.inr rfl) rfl rfl
  | lrlp2 => exact stable_linkwitzRiley hk ho rfl rfl
  | lrhp2 => exact stable_linkwitzRiley hk ho rfl rfl
  | ap1 =>
    refine stable_of_ratio (p := idealNumerics.tan (designAngle idealNumerics fcl rate) - 1) (q := 0)
      (e := idealNumerics.tan (designAngle idealNumerics fcl rate) + 1) (by linarith) rfl (zero_div _).symm
      (by linarith) ?_
    rw [abs_lt]
    constructor <;> linarith

/-- R172: the impulse response of a Butterworth low-pass, and of every other design, tends to 0 on ideal values. -/
theorem design_impulseResponse_tendsto (k : Design) {fcl rate : ℝ} (h0 : 0 < fcl) (h1 : fcl < rate / 2) :
    Tendsto (impulseResponse idealNumerics.toArith (designOver idealNumerics k fcl rate)) atTop (𝓝 0) :=
  (design_stable k h0 h1).impulseResponse_tendsto

/-! ### The block runs the same recurrence -/

/-- A section after the samples `u 0 .. u k` (R152). -/
def Biquad.run (q : Biquad) (u : ℕ → Sample) : ℕ → Biquad
  | 0 => q.advance (u 0)
  | k + 1 => (q.run u k).advance (u (k + 1))

/-- The outputs and the history of a cleared section of the block are those of `outputs` in binary32. -/
theorem Biquad.run_clear (q : Biquad) (u : ℕ → Sample) (k : ℕ) :
    let r := q.clear.run u k
    (r.yz1, r.yz2, r.xz1, r.xz2) = outputs F32.arith ⟨q.a0, q.a1, q.a2, q.b1, q.b2⟩ u k
      ∧ (r.a0, r.a1, r.a2, r.b1, r.b2) = (q.a0, q.a1, q.a2, q.b1, q.b2) := by
  induction k with
  | zero => exact ⟨rfl, rfl⟩
  | succ k ih =>
    obtain ⟨ih, hc⟩ := ih
    simp only [Prod.mk.injEq] at hc
    obtain ⟨h0, h1, h2, h3, h4⟩ := hc
    refine ⟨?_, by simp only [Biquad.run, Biquad.advance, h0, h1, h2, h3, h4]⟩
    rw [outputs, ← ih]
    simp only [Biquad.run, Biquad.advance, Biquad.filtered, h0, h1, h2, h3, h4]

end Sys2Proof.Machine
end

