-- ==== Sys2Proof/Laws/Voice.lean ====
section
/-! SUPPORT. `SYS.STEP`: what one channel's frame and the loop over the channels can do (R233 to R240, R71). -/

namespace Sys2Proof.Machine

variable (s t : State)

/-! ### A channel's part -/

@[simp] theorem State.setPart_sys (c : Channel) (x : ChannelPart) : (s.setPart c x).sys = s.sys := rfl
@[simp] theorem State.setPart_lut (c : Channel) (x : ChannelPart) : (s.setPart c x).lut = s.lut := rfl
@[simp] theorem State.setPart_ws (c : Channel) (x : ChannelPart) : (s.setPart c x).ws = s.ws := rfl
@[simp] theorem State.setPart_draws (c : Channel) (x : ChannelPart) : (s.setPart c x).draws = s.draws := rfl
@[simp] theorem State.setPart_pending (c : Channel) (x : ChannelPart) : (s.setPart c x).pending = s.pending := rfl
@[simp] theorem State.setPart_response (c : Channel) (x : ChannelPart) : (s.setPart c x).response = s.response := rfl

theorem State.cb_setPart (c u : Channel) (x : ChannelPart) :
    (s.setPart c x).cb[u] = if u = c then x.ring else s.cb[u] := by
  show (s.setCb c x.ring).cb[u] = _
  exact State.cb_setCb s c u x.ring

theorem State.cmp_setPart (c u : Channel) (x : ChannelPart) :
    (s.setPart c x).cmp[u] = if u = c then x.cmp else s.cmp[u] := by
  show (State.setCmp _ c x.cmp).cmp[u] = _
  exact State.cmp_setCmp _ c u x.cmp

theorem State.ks_setPart (c u : Channel) (x : ChannelPart) :
    (s.setPart c x).ks[u] = if u = c then x.voice else s.ks[u] := by
  show (State.setKs _ c x.voice).ks[u] = _
  exact State.ks_setKs _ c u x.voice

/-- Only slots 0 and 1 of the channel (R36). -/
theorem State.getBq_setPart (c u : Channel) (j : Slot) (x : ChannelPart) :
    (s.setPart c x).getBq u j
      = if u = c ∧ j = 0 then x.bqIn else if u = c ∧ j = 1 then x.bqOut else s.getBq u j := by
  show (State.setBq (State.setBq (s.setCb c x.ring) c 0 x.bqIn) c 1 x.bqOut).getBq u j = _
  rw [State.getBq_setBq, State.getBq_setBq]
  by_cases h : u = c <;> by_cases h0 : j = 0 <;> simp [h, h0]

@[simp] theorem State.part_setPart_same (c : Channel) (x : ChannelPart) : (s.setPart c x).part c = x := by
  simp only [State.part, State.cb_setPart, State.cmp_setPart, State.ks_setPart, State.getBq_setPart, if_true, true_and,
    show (1 : Slot) ≠ 0 by decide, if_false]

theorem State.part_setPart_other {c d : Channel} (h : d ≠ c) (x : ChannelPart) :
    (s.setPart c x).part d = s.part d := by
  simp only [State.part, State.cb_setPart, State.cmp_setPart, State.ks_setPart, State.getBq_setPart, h, false_and,
    if_false]

/-- Everything but the channels' parts, the channel count and the draws is as before (R36, R71). -/
def SameOutside (s t : State) : Prop :=
  t.sys = s.sys ∧ t.lut = s.lut ∧ t.ws = s.ws ∧ (∀ (c : Channel) (j : Slot), 2 ≤ j.val → t.getBq c j = s.getBq c j)
    ∧ t.draws = s.draws ∧ t.pending = s.pending ∧ t.response = s.response

theorem SameOutside.setPart (c : Channel) (x : ChannelPart) : SameOutside s (s.setPart c x) := by
  refine ⟨rfl, rfl, rfl, fun u j hj => ?_, rfl, rfl, rfl⟩
  have h0 : j ≠ 0 := by rintro rfl; exact absurd hj (by decide)
  have h1 : j ≠ 1 := by rintro rfl; exact absurd hj (by decide)
  simp [State.getBq_setPart, h0, h1]

/-! ### The loop over the channels -/

variable {s t}

/-- The loop goes on exactly when each listed channel's frame does, on what that channel held before the command;
a channel not listed is untouched, and so is everything outside the parts (R71, R233). -/
theorem stepChannels_eq_next {e : FrameEnv} {n : Nat} {cs : List (Channel × VoiceIn)} (hn : (cs.map Prod.fst).Nodup)
    (h : stepChannels e n cs s = .next t) :
    (∀ cv ∈ cs, e.frame cv.2 (e.par.draw (n + 2 * cv.1.val)) (e.par.draw (n + 2 * cv.1.val + 1)) (s.part cv.1)
        = .next (t.part cv.1))
      ∧ (∀ c, c ∉ cs.map Prod.fst → t.part c = s.part c) ∧ SameOutside s t := by
  induction cs generalizing s with
  | nil =>
    cases h
    exact ⟨by simp, fun _ _ => rfl, rfl, rfl, rfl, fun _ _ _ => rfl, rfl, rfl, rfl⟩
  | cons cv cs ih =>
    obtain ⟨c, v⟩ := cv
    simp only [stepChannels, andThen_eq_next] at h
    obtain ⟨ch, hf, h⟩ := h
    simp only [List.map_cons, List.nodup_cons] at hn
    obtain ⟨h1, h2, h3⟩ := ih hn.2 h
    have hs := SameOutside.setPart s c ch
    refine ⟨fun cv hcv => ?_, fun d hd => ?_, ?_⟩
    · rcases List.mem_cons.1 hcv with rfl | hm
      · rw [h2 c hn.1, State.part_setPart_same]; exact hf
      · have hne : cv.1 ≠ c := fun he => hn.1 (he ▸ List.mem_map_of_mem hm)
        rw [← h1 cv hm, State.part_setPart_other s hne]
    · simp only [List.map_cons, List.mem_cons, not_or] at hd
      rw [h2 d hd.2, State.part_setPart_other s hd.1]
    · obtain ⟨a, b, c', d, e', f, g⟩ := h3
      exact ⟨a, b, c', fun u j hj => (d u j hj).trans (hs.2.2.2.1 u j hj), e', f, g⟩

/-- The loop completes where each listed channel's frame does (R233). -/
theorem stepChannels_completes {e : FrameEnv} {n : Nat} {cs : List (Channel × VoiceIn)}
    (hn : (cs.map Prod.fst).Nodup)
    (h : ∀ cv ∈ cs, ∃ ch, e.frame cv.2 (e.par.draw (n + 2 * cv.1.val)) (e.par.draw (n + 2 * cv.1.val + 1))
      (s.part cv.1) = .next ch) : ∃ t, stepChannels e n cs s = .next t := by
  induction cs generalizing s with
  | nil => exact ⟨s, rfl⟩
  | cons cv cs ih =>
    obtain ⟨c, v⟩ := cv
    simp only [List.map_cons, List.nodup_cons] at hn
    obtain ⟨ch, hf⟩ := h _ List.mem_cons_self
    have : ∀ cv ∈ cs, ∃ ch', e.frame cv.2 (e.par.draw (n + 2 * cv.1.val)) (e.par.draw (n + 2 * cv.1.val + 1))
        ((s.setPart c ch).part cv.1) = .next ch' := by
      intro cv hm
      have hne : cv.1 ≠ c := fun he => hn.1 (he ▸ List.mem_map_of_mem hm)
      rw [State.part_setPart_other s hne]
      exact h cv (List.mem_cons_of_mem _ hm)
    obtain ⟨t, ht⟩ := ih hn.2 this
    exact ⟨t, by simp only [stepChannels, andThen_eq_next]; exact ⟨ch, hf, ht⟩⟩

/-- The active channels are `0 .. nch-1`, each with its pair of port voltages (R226). -/
theorem activeChannels_fst (vs : List VoiceIn) :
    (activeChannels vs).map Prod.fst = (List.finRange Config.nchMax).take vs.length := by
  have h : ∀ (l : List Channel) (vs : List VoiceIn), (l.zip vs).map Prod.fst = l.take vs.length := by
    intro l
    induction l with
    | nil => simp
    | cons a l ih => intro vs; cases vs with
      | nil => simp
      | cons v vs => simp [ih]
  exact h _ _

theorem activeChannels_nodup (vs : List VoiceIn) : ((activeChannels vs).map Prod.fst).Nodup := by
  rw [activeChannels_fst]; exact (List.nodup_finRange _).sublist (List.take_sublist _ _)

theorem mem_activeChannels_fst {vs : List VoiceIn} {c : Channel} :
    c ∈ (activeChannels vs).map Prod.fst ↔ c.val < vs.length := by
  rw [activeChannels_fst, List.mem_take_iff_getElem]
  constructor
  · rintro ⟨i, hi, rfl⟩
    simp at hi ⊢; omega
  · intro h
    exact ⟨c.val, by simp; exact h, by simp⟩

theorem mem_activeChannels {vs : List VoiceIn} {c : Channel} (h : c.val < vs.length) : (c, vs[c.val]) ∈ activeChannels vs := by
  rw [activeChannels, List.mem_iff_getElem]
  exact ⟨c.val, by simp; exact h, by simp⟩

/-- The voltages of a listed channel are those at its number (R226). -/
theorem eq_of_mem_activeChannels {vs : List VoiceIn} {c : Channel} {v : VoiceIn} (h : (c, v) ∈ activeChannels vs) :
    ∃ hc : c.val < vs.length, v = vs[c.val] := by
  refine ⟨mem_activeChannels_fst.1 (List.mem_map_of_mem (f := Prod.fst) h), ?_⟩
  obtain ⟨i, hi, he⟩ := List.mem_iff_getElem.1 h
  simp only [activeChannels, List.getElem_zip, List.getElem_finRange, Prod.mk.injEq] at he
  obtain ⟨e1, e2⟩ := he
  have : i = c.val := by rw [← e1]; rfl
  subst this; exact e2.symm

/-- The results of a `SYS.STEP`: the channel count, then `out` of each active channel (R233, R240). -/
theorem stepResults_eq (vs : List VoiceIn) (u : State) :
    stepResults vs u
      = BitVec.ofNat 32 vs.length :: ((List.finRange 16).take vs.length).map fun c : Channel => (u.ks[c]).lastOut := by
  have h : (List.finRange 16).take vs.length = (activeChannels vs).map Prod.fst := (activeChannels_fst vs).symm
  unfold stepResults u32Result
  rw [h, List.map_map]; rfl

/-! ### One channel's frame -/

/-- What the configuration binds open functions to is loaded (R233). -/
def FrameEnv.Bound (e : FrameEnv) : Prop :=
  (e.par.ksUtuneBound = true → e.spread.valid = true ∧ 2 ≤ e.spread.length)
    ∧ ∀ k, e.par.ksSatCurve = some k → curveGood e.curves[k] ∧ ∀ i, i < Config.wsLen → Mem.read .curve e.curves[k] i ≠ none

/-- What `KS_UTUNE` answers: the value of the table it is bound to, or of the function (R218). -/
theorem FrameEnv.tuning_eq_next {e : FrameEnv} {ut : Sample} :
    e.tuning = .next ut
      ↔ (e.par.ksUtuneBound = true ∧ e.spread.valid = true ∧ e.spread.evalScalar (f32 e.controls.utune) = .next ut)
        ∨ (e.par.ksUtuneBound = false ∧ ut = e.par.ksUtune (f32 e.controls.utune)) := by
  unfold FrameEnv.tuning
  split_ifs with h
  · simp only [h, require_eq_next, true_and, Bool.true_eq_false, false_and, or_false]
  · rw [Bool.not_eq_true] at h
    simp only [h, Bool.false_eq_true, false_and, false_or, true_and, Host.Outcome.next.injEq]
    exact eq_comm

/-- What `KS_SAT` answers: the scaled value of the curve it is bound to, or of the function (R206, R218). -/
theorem FrameEnv.saturate_eq_next {e : FrameEnv} {o y : Sample} :
    e.saturate o = .next y
      ↔ (e.par.ksSatCurve = none ∧ y = e.par.ksSat o)
        ∨ ∃ k, e.par.ksSatCurve = some k ∧ curveLoaded e.curves[k] = true
          ∧ ((F32.isFinite (e.par.ksSatIn o) = true
              ∧ ∃ z, curveAt e.curves[k] (e.par.ksSatIn o) = .next z ∧ y = e.par.ksSatOut z)
            ∨ (F32.isFinite (e.par.ksSatIn o) = false ∧ y = e.par.ksSat o)) := by
  unfold FrameEnv.saturate
  cases e.par.ksSatCurve with
  | none =>
    simp only [true_and, reduceCtorEq, false_and, exists_false, or_false, Host.Outcome.next.injEq]
    exact eq_comm
  | some k =>
    simp only [require_eq_next, reduceCtorEq, false_and, false_or, Option.some.injEq, exists_eq_left']
    refine and_congr_right fun _ => ?_
    split_ifs with h
    · simp only [h, andThen_eq_next, Host.Outcome.next.injEq, true_and, Bool.true_eq_false, false_and, or_false]
      exact exists_congr fun z => and_congr_right fun _ => eq_comm
    · simp only [Bool.not_eq_true] at h
      simp only [h, Bool.false_eq_true, false_and, false_or, true_and, Host.Outcome.next.injEq]
      exact eq_comm

/-- `KS_UTUNE` answers a finite operand where what it is bound to is loaded (R218, R233). -/
theorem FrameEnv.Bound.tuning_completes {e : FrameEnv} (h : e.Bound)
    (hu : F32.isFinite (f32 e.controls.utune) = true) : ∃ ut, e.tuning = .next ut := by
  unfold FrameEnv.tuning
  split_ifs with hb
  · rw [(h.1 hb).1, require_true, Lut.evalScalar_eq (h.1 hb).2 hu]; exact ⟨_, rfl⟩
  · exact ⟨_, rfl⟩

/-- `KS_SAT` answers every operand where what it is bound to is loaded (R218, R233). -/
theorem FrameEnv.Bound.saturate_completes {e : FrameEnv} (h : e.Bound) (o : Sample) : ∃ y, e.saturate o = .next y := by
  unfold FrameEnv.saturate
  split
  · exact ⟨_, rfl⟩
  · rename_i k hk
    obtain ⟨hg, hl⟩ := h.2 k hk
    rw [(curveLoaded_iff hg).2 hl, require_true]
    split_ifs
    · obtain ⟨_, _, -, -, hy⟩ := curveAt_completes hl (e.par.ksSatIn o)
      rw [hy]; exact ⟨_, rfl⟩
    · exact ⟨_, rfl⟩

/-- The taps go on exactly when each read does; each listed phase advances once, the others stay (R239). -/
theorem FrameEnv.taps_eq_next {e : FrameEnv} {r : Ring} {ut index : Sample} {js : List (Fin Config.unisonMax)}
    (hn : js.Nodup) {ph ph' : Vector Sample Config.unisonMax} {m m' : Sample}
    (h : e.taps r ut index js ph m = .next (ph', m')) :
    ∀ j : Fin Config.unisonMax, ph'[j] = if j ∈ js then e.nextPhase ut index j ph[j] else ph[j] := by
  induction js generalizing ph m with
  | nil => intro j; cases h; simp
  | cons i js ih =>
    simp only [FrameEnv.taps, andThen_eq_next] at h
    obtain ⟨tap, _, h⟩ := h
    simp only [List.nodup_cons] at hn
    intro j
    rw [ih hn.2 h j]
    by_cases hj : j = i
    · subst hj; simp [hn.1]
    · have : i.val ≠ j.val := fun he => hj (Fin.ext he.symm)
      simp [hj, this]

/-- The mix after the taps: each listed phase's tap, at the phase it has in the end, added in order (R239). -/
theorem FrameEnv.taps_mix {e : FrameEnv} {r : Ring} {ut index : Sample} {js : List (Fin Config.unisonMax)}
    (hn : js.Nodup) {ph ph' : Vector Sample Config.unisonMax} {m m' : Sample}
    (h : e.taps r ut index js ph m = .next (ph', m')) :
    m' = js.foldl (fun m j => F32.add m (F32.mul (e.par.ksSide e.unisonMix)
      (r.readFrac (e.par.ksTapDelay r.length index ph'[j])))) m := by
  induction js generalizing ph m with
  | nil => cases h; rfl
  | cons i js ih =>
    simp only [FrameEnv.taps, andThen_eq_next] at h
    obtain ⟨tap, ht, h⟩ := h
    obtain ⟨-, -, rfl⟩ := Ring.tap_eq_next.1 ht
    simp only [List.nodup_cons] at hn
    have hp := FrameEnv.taps_eq_next hn.2 h i
    rw [if_neg hn.1] at hp
    have hi : ph'[i] = e.nextPhase ut index i ph[i] := by rw [hp]; simp
    rw [ih hn.2 h, List.foldl_cons, hi]

/-- The taps complete on an allocated ring where every tap delay is in the domain of `CB.RDF` (R134, R239). -/
theorem FrameEnv.taps_completes {e : FrameEnv} {r : Ring} {ut index : Sample} (ha : r.alloc = true)
    (hd : ∀ phase, delayOk (e.par.ksTapDelay r.length index phase) = true) (js : List (Fin Config.unisonMax))
    (ph : Vector Sample Config.unisonMax) (m : Sample) : ∃ x, e.taps r ut index js ph m = .next x := by
  induction js generalizing ph m with
  | nil => exact ⟨_, rfl⟩
  | cons j js ih =>
    obtain ⟨x, hx⟩ := ih (ph.set j (e.nextPhase ut index j ph[j]))
      (F32.add m (F32.mul (e.par.ksSide e.unisonMix)
        (r.readFrac (e.par.ksTapDelay r.length index (e.nextPhase ut index j ph[j])))))
    refine ⟨x, ?_⟩
    simp only [FrameEnv.taps, andThen_eq_next]
    exact ⟨_, Ring.tap_eq_next.2 ⟨ha, hd _, rfl⟩, hx⟩

/-- The dry sample of a frame (R237). -/
abbrev FrameEnv.drySample (e : FrameEnv) (v : VoiceIn) (u1 u2 : Sample) (ch : ChannelPart) (target : Sample) : Sample :=
  e.dry (e.playback ch.voice.glide target) (ch.bqIn.mixed (e.par.ksExcite (f32 v.vIn) u1)) ch.voice.lastWet
    (ch.ring.readFrac (e.delay ch.ring (e.playback ch.voice.glide target))) u2

/-- A frame goes on exactly so (R234 to R240). -/
theorem FrameEnv.frame_eq_next {e : FrameEnv} {v : VoiceIn} {u1 u2 : Sample} {ch ch' : ChannelPart} :
    e.frame v u1 u2 ch = .next ch'
      ↔ ∃ target ut ph mix,
        e.target v = .next target ∧ e.tuning = .next ut
          ∧ ch.ring.alloc = true ∧ delayOk (e.delay ch.ring (e.playback ch.voice.glide target)) = true
          ∧ (ch.bqIn.coefHeld = true ∧ ch.bqIn.memHeld = true)
          ∧ (ch.cmp.timesHeld = true ∧ ch.cmp.curveHeld = true ∧ ch.cmp.envHeld = true)
          ∧ ch'.cmp = ch.cmp.advance e.par (e.drySample v u1 u2 ch target)
          ∧ ch'.ring = ch.ring.push (F32.mul (e.drySample v u1 u2 ch target) ch'.cmp.gain)
          ∧ e.taps ch'.ring ut (e.delay ch.ring (e.playback ch.voice.glide target))
              ((List.finRange Config.unisonMax).take e.unisonCount) ch.voice.phase
              (F32.mul (e.par.ksCentre e.unisonMix)
                (ch.ring.readFrac (e.delay ch.ring (e.playback ch.voice.glide target)))) = .next (ph, mix)
          ∧ (ch.bqOut.coefHeld = true ∧ ch.bqOut.memHeld = true)
          ∧ ch'.bqIn = ch.bqIn.advance (e.par.ksExcite (f32 v.vIn) u1)
          ∧ ch'.bqOut = ch.bqOut.advance mix
          ∧ ∃ output, e.saturate (ch.bqOut.mixed mix) = .next output
            ∧ ch'.voice
              = ⟨ph, ch.ring.readFrac (e.delay ch.ring (e.playback ch.voice.glide target)), output, target,
                  e.playback ch.voice.glide target⟩ := by
  constructor
  · intro h
    simp only [FrameEnv.frame, andThen_eq_next] at h
    obtain ⟨target, ht, wet, hw, ⟨qi, xi⟩, hi, ⟨cm, y⟩, hc, ut, hut, ⟨ph, mix⟩, hu, ⟨qo, o⟩, ho, output, hsat, h⟩ := h
    obtain ⟨ha, hd, rfl⟩ := Ring.tap_eq_next.1 hw
    obtain ⟨hi1, hi2, rfl, rfl⟩ := Biquad.process_eq_next.1 hi
    obtain ⟨hc1, rfl, rfl⟩ := Compressor.process_eq_next.1 hc
    obtain ⟨ho1, ho2, rfl, rfl⟩ := Biquad.process_eq_next.1 ho
    cases h
    exact ⟨target, ut, ph, mix, ht, hut, ha, hd, ⟨hi1, hi2⟩, hc1, rfl, rfl, hu, ⟨ho1, ho2⟩, rfl, rfl, output, hsat, rfl⟩
  · rintro ⟨target, ut, ph, mix, ht, hut, ha, hd, ⟨hi1, hi2⟩, hc1, hcmp, hr, hu, ⟨ho1, ho2⟩, hbi, hbo, output, hsat, hv⟩
    obtain ⟨r', bi', bo', cm', v'⟩ := ch'
    simp only at hcmp hr hu hbi hbo hv
    subst hcmp hr hbi hbo hv
    simp only [FrameEnv.frame, andThen_eq_next]
    exact ⟨target, ht, _, Ring.tap_eq_next.2 ⟨ha, hd, rfl⟩, (_, _), Biquad.process_eq_next.2 ⟨hi1, hi2, rfl, rfl⟩,
      (_, _), Compressor.process_eq_next.2 ⟨hc1, rfl, rfl⟩, ut, hut, (_, _), hu, (_, _),
      Biquad.process_eq_next.2 ⟨ho1, ho2, rfl, rfl⟩, output, hsat, rfl⟩

/-- A frame with the block's configuration completes on a channel that has what it reads (R233 to R240): the pitch
gives a number, and from there on every delay is in the domain of `CB.RDF`. -/
theorem FrameEnv.frame_completes {e : FrameEnv} {v : VoiceIn} {u1 u2 y : Sample} {ch : ChannelPart}
    (hpar : e.par = params) (hb : e.Bound) (hu : F32.isFinite (f32 e.controls.utune) = true) (hr : F32.isPositive e.rate = true) (hv : e.pow2.valid = true)
    (hy : e.pow2.evalScalar (e.pitch v) = .next y) (hn : F32.isNaN y = false)
    (ha : ch.ring.alloc = true) (hk : ch.ring.k ≤ Config.cbKmax) (hl : 2 ≤ ch.ring.length)
    (hi : ch.bqIn.coefHeld = true ∧ ch.bqIn.memHeld = true) (ho : ch.bqOut.coefHeld = true ∧ ch.bqOut.memHeld = true)
    (hc : ch.cmp.timesHeld = true ∧ ch.cmp.curveHeld = true ∧ ch.cmp.envHeld = true)
    (hg : F32.isFinite ch.voice.glide = true) : ∃ ch', e.frame v u1 u2 ch = .next ch' := by
  have hF0 : F32.isPositive e.par.ksF0 = true := by rw [hpar]; exact isPositive_keepPositive _
  have hmul : F32.isNaN (F32.mul e.par.ksF0 y) = false :=
    F32.isNaN_mul_of_ne_zero_left (F32.isFinite_of_isPositive hF0) (F32.isZero_of_isPositive hF0) hn
  have hfmax : F32.isFinite e.fmax = true :=
    F32.isFinite_min (by decide) (F32.half_isPositive hr).2 (F32.half_isPositive hr).1
  obtain ⟨target, htarget, htf⟩ : ∃ target, e.target v = .next target ∧ F32.isFinite target = true := by
    refine ⟨_, ?_, F32.isFinite_clamp_of_finite hmul (by decide : F32.isFinite Config.ksFmin = true) hfmax⟩
    unfold FrameEnv.target FrameEnv.pow2At
    rw [hv, require_true, hy, andThen_next]
  obtain ⟨f, hf⟩ : ∃ f, f = e.playback ch.voice.glide target := ⟨_, rfl⟩
  have hff : F32.isFinite f = true := by rw [hf, FrameEnv.playback, hpar]; exact isFinite_glide hg htf
  have hlen : ((ch.ring.length - 2 : Nat) : Int) = (ch.ring.length : Int) - 2 := by omega
  have hle : ch.ring.length ≤ 2 ^ 20 := Nat.pow_le_pow_right (by decide) hk
  obtain ⟨b1, b2, -⟩ := F32.i2s_nat (ch.ring.length - 2) (by omega)
  have b0 := F32.le_zero_of_sign b1 b2
  rw [hlen] at b1 b0
  have hq : F32.isNaN (F32.mul (F32.div F32.one f) e.rate) = false :=
    F32.isNaN_mul_of_ne_zero (F32.isNaN_div (by decide) (by decide) (F32.isNaN_eq_false_of_isFinite hff))
      (F32.isFinite_of_isPositive hr) (F32.isZero_of_isPositive hr)
  have hdel : delayOk (e.delay ch.ring f) = true := by
    simp only [delayOk, Bool.and_eq_true]
    exact ⟨F32.isFinite_clamp hq F32.isFinite_zero b1 b0, (F32.clamp_between hq b0).1⟩
  have htap : ∀ index phase, delayOk (e.par.ksTapDelay ch.ring.length index phase) = true := by
    intro index phase
    rw [hpar]
    have := keepWithin_between (v := Config.ksTapDelay ch.ring.length index phase)
      (F32.le_refl (a := F32.zero) (by decide)) b0
    simp only [delayOk, Bool.and_eq_true]
    exact ⟨F32.isFinite_of_le_le F32.isFinite_zero b1 this.1 this.2, this.1⟩
  rw [hf] at hdel
  obtain ⟨cm, hcm⟩ : ∃ cm, cm = ch.cmp.advance e.par (e.drySample v u1 u2 ch target) := ⟨_, rfl⟩
  obtain ⟨r, hring⟩ : ∃ r, r = ch.ring.push (F32.mul (e.drySample v u1 u2 ch target) cm.gain) := ⟨_, rfl⟩
  have hra : r.alloc = true := by rw [hring]; exact ha
  have hrl : r.length = ch.ring.length := by rw [hring]; rfl
  obtain ⟨ut, hut⟩ := hb.tuning_completes hu
  obtain ⟨⟨ph, mix⟩, hx⟩ := FrameEnv.taps_completes (e := e) (r := r) (ut := ut)
    (index := e.delay ch.ring (e.playback ch.voice.glide target)) hra (by rw [hrl]; exact fun p => htap _ p)
    ((List.finRange Config.unisonMax).take e.unisonCount) ch.voice.phase
    (F32.mul (e.par.ksCentre e.unisonMix)
      (ch.ring.readFrac (e.delay ch.ring (e.playback ch.voice.glide target))))
  obtain ⟨output, hsat⟩ := hb.saturate_completes (ch.bqOut.mixed mix)
  exact ⟨⟨r, _, _, cm, _⟩, FrameEnv.frame_eq_next.2
    ⟨target, ut, ph, mix, htarget, hut, ha, hdel, hi, hc, hcm, hring, hx, ho, rfl, rfl, output, hsat, rfl⟩⟩

/-- What a `SYS.STEP` that goes on leaves in each active channel is that channel's frame on what it held (R233). -/
theorem execSysStep_part {p : StepControls} {vs : List VoiceIn} (hl : vs.length ≤ 16)
    (hx : execSysStep p vs s = .next t) {c : Channel} (h : c.val < vs.length) :
    (frameEnv params p s).frame vs[c.val] (params.draw (s.draws + 2 * c.val)) (params.draw (s.draws + 2 * c.val + 1))
      (s.part c) = .next (t.part c) := by
  rcases execSysStep_eq_next.1 hx with ⟨h1, _⟩ | ⟨_, _, _, u, hu, rfl⟩
  · exact absurd hl (by simp only [Config.nchMax] at h1; omega)
  · exact (stepChannels_eq_next (activeChannels_nodup vs) hu).1 (c, vs[c.val]) (mem_activeChannels h)

end Sys2Proof.Machine
end

