-- ==== Sys2Proof/Laws/Units.lean ====
section
/-! SUPPORT. The operations of each unit keep the unit's invariant (R27, R32, R35, R39, R40). -/

namespace Sys2Proof.Machine

/-! ### Tables -/

/-- What `LUT.CONFIG` checks of a header (R102). -/
theorem headerOk_iff {lo hi iv : Sample} :
    headerOk lo hi iv = true
      ↔ F32.isFinite lo = true ∧ F32.isFinite hi = true ∧ F32.isFinite iv = true ∧ F32.lt lo hi = true
          ∧ F32.lt F32.zero iv = true := by
  simp only [headerOk, Bool.and_eq_true, and_assoc]

/-- `L - 1` intervals reach `maxX`, `L - 2` do not: `L` is the length of R102. -/
theorem tableLength_spec {lo hi iv : Sample} (h : headerOk lo hi iv = true) :
    2 ≤ tableLength lo hi iv
      ∧ F32.toUnits hi - F32.toUnits lo ≤ ((tableLength lo hi iv : Int) - 1) * F32.toUnits iv
      ∧ ((tableLength lo hi iv : Int) - 2) * F32.toUnits iv < F32.toUnits hi - F32.toUnits lo := by
  obtain ⟨_, _, _, h1, h2⟩ := headerOk_iff.1 h
  have hn := F32.toUnits_lt_of_lt h1
  have hd := F32.toUnits_lt_of_lt h2
  have h0 : F32.toUnits F32.zero = 0 := by decide
  rw [h0] at hd
  generalize hN : F32.toUnits hi - F32.toUnits lo = n at *
  generalize hd' : F32.toUnits iv = d at *
  have hn' : 0 < n := by omega
  have hL : ((tableLength lo hi iv : Nat) : Int) = (n + d - 1) / d + 1 := by
    have hq : 0 ≤ (n + d - 1) / d := Int.ediv_nonneg (by omega) (by omega)
    simp only [tableLength, hN, hd']
    omega
  have hdm := Int.emod_add_mul_ediv (n + d - 1) d
  have hr1 := Int.emod_nonneg (n + d - 1) (b := d) (by omega)
  have hr2 := Int.emod_lt_of_pos (n + d - 1) hd
  rw [hL]
  generalize (n + d - 1) / d = q at *
  have hc : d * q = q * d := Int.mul_comm _ _
  have e1 : (q + 1 - 1) * d = q * d := by ring
  have e2 : (q + 1 - 2) * d = q * d - d := by ring
  refine ⟨?_, by rw [e1]; omega, by rw [e2]; omega⟩
  have : 1 ≤ q := by
    by_contra hq
    have : q * d ≤ 0 := Int.mul_nonpos_of_nonpos_of_nonneg (by omega) (by omega)
    omega
  omega

/-- The length check of R102 without the length. -/
theorem tableLength_le {lo hi iv : Sample} (h : headerOk lo hi iv = true) :
    tableLength lo hi iv ≤ 65536 ↔ F32.toUnits hi - F32.toUnits lo ≤ 65535 * F32.toUnits iv := by
  obtain ⟨h2, h3, h4⟩ := tableLength_spec h
  have hd := F32.toUnits_lt_of_lt (headerOk_iff.1 h).2.2.2.2
  have h0 : F32.toUnits F32.zero = 0 := by decide
  rw [h0] at hd
  generalize F32.toUnits hi - F32.toUnits lo = n at *
  generalize F32.toUnits iv = d at *
  generalize tableLength lo hi iv = L at *
  constructor
  · intro h
    have : ((L : Int) - 1) * d ≤ 65535 * d := Int.mul_le_mul_of_nonneg_right (by omega) (by omega)
    omega
  · intro h
    by_contra hc
    have : 65535 * d ≤ ((L : Int) - 2) * d := Int.mul_le_mul_of_nonneg_right (by omega) (by omega)
    omega

/-- The domain of a good table is in the table (R27, R302). -/
theorem Lut.outside_of_domain {l : Lut} (h : l.good) (hv : l.valid = true) {x : Sample}
    (h1 : F32.le l.minX x = true) (h2 : F32.lt x l.maxX = true) : l.outside x = false := by
  obtain ⟨hh, hl, -, -⟩ := h.2.2 hv
  have := F32.toUnits_lt_of_lt h2
  have := F32.toUnits_le_of_le h1
  have hL := (tableLength_spec hh).2.1
  rw [← hl] at hL
  refine Bool.eq_false_iff.2 fun hc => ?_
  have := Lut.outside_iff.1 hc
  unfold Lut.offset at this
  omega

/-- So a lane in the domain whose quotient overflows is in range, and equals `LUT.EVAL` (R108; log 16). -/
theorem Lut.laneOut_of_overflow {l : Lut} (h : l.good) (hv : l.valid = true) {x : Sample}
    (h1 : F32.le l.minX x = true) (h2 : F32.lt x l.maxX = true) (hq : F32.isFinite (l.quotient x) = false) :
    l.laneOut x = false := by
  rw [Lut.laneOut, Lut.outside_of_domain h hv h1 h2, hq]
  rfl

theorem Lut.good_config {lo hi iv : Sample} (h : headerOk lo hi iv = true)
    (hl : tableLength lo hi iv ≤ Config.lutLmax) : Lut.good ⟨true, lo, hi, iv, tableLength lo hi iv, []⟩ :=
  ⟨rfl, rfl, fun _ => ⟨h, rfl, (tableLength_spec h).1, hl⟩⟩

theorem Lut.good_write {l : Lut} (h : l.good) {i : Nat} (hi : i < l.length) (v : Sample) :
    Lut.good { l with samples := Mem.write .table l.samples i v } :=
  ⟨Mem.wf_write h.1 _ _, Mem.below_write h.2.1 hi _, h.2.2⟩

theorem curveGood_write {m : Mem} (h : curveGood m) {i : Nat} (hi : i < Config.wsLen) (v : Sample) :
    curveGood (Mem.write .curve m i v) :=
  ⟨Mem.wf_write h.1 _ _, Mem.below_write h.2 hi _⟩

/-! ### Sections -/

@[simp] theorem Biquad.advance_coefHeld (q : Biquad) (x : Sample) : (q.advance x).coefHeld = q.coefHeld := rfl
@[simp] theorem Biquad.advance_memHeld (q : Biquad) (x : Sample) : (q.advance x).memHeld = q.memHeld := rfl
@[simp] theorem Biquad.advance_kind (q : Biquad) (x : Sample) : (q.advance x).kind = q.kind := rfl
@[simp] theorem Biquad.clear_coefHeld (q : Biquad) : q.clear.coefHeld = q.coefHeld := rfl
@[simp] theorem Biquad.clear_memHeld (q : Biquad) : q.clear.memHeld = true := rfl
@[simp] theorem Biquad.clear_kind (q : Biquad) : q.clear.kind = q.kind := rfl

/-- A design command never writes the memory (R37, R158). -/
@[simp] theorem Biquad.setDesign_memory (p : Params) (q : Biquad) (k : Design) (fc rate : Sample) :
    (q.setDesign p k fc rate).memory = q.memory := by
  unfold Biquad.setDesign; split_ifs <;> rfl

@[simp] theorem Biquad.setDesign_memHeld (p : Params) (q : Biquad) (k : Design) (fc rate : Sample) :
    (q.setDesign p k fc rate).memHeld = q.memHeld := by
  unfold Biquad.setDesign; split_ifs <;> rfl

theorem Biquad.good_advance {q : Biquad} (h : q.good) (x : Sample) : (q.advance x).good := h
theorem Biquad.good_clear {q : Biquad} (h : q.good) : q.clear.good := h

theorem Biquad.good_setDesign {q : Biquad} (h : q.good) (p : Params) (k : Design) (fc rate : Sample) :
    (q.setDesign p k fc rate).good := by
  unfold Biquad.setDesign; split_ifs
  · exact h
  · exact fun _ => rfl

/-- After a design command on a good section it holds coefficients: a section that is up to date names a design. -/
theorem Biquad.setDesign_coefHeld {q : Biquad} (h : q.good) (p : Params) (k : Design) (fc rate : Sample) :
    (q.setDesign p k fc rate).coefHeld = true := by
  unfold Biquad.setDesign
  split_ifs with hg
  · simp only [Biquad.upToDate, Bool.and_eq_true, decide_eq_true_eq] at hg
    exact h (by rw [hg.1.1]; simp)
  · rfl

/-- A second equal design command changes nothing (R228 "idempotent"). -/
theorem Biquad.setDesign_twice (p : Params) (q : Biquad) (k : Design) (fc rate : Sample) :
    (q.setDesign p k fc rate).setDesign p k fc rate = q.setDesign p k fc rate := by
  by_cases h : q.upToDate p k (clampCutoff fc rate) rate = true
  · simp [Biquad.setDesign, h]
  · have e : q.setDesign p k fc rate = q.designed p k (clampCutoff fc rate) rate := by simp [Biquad.setDesign, h]
    rw [e, Biquad.setDesign]
    split_ifs <;> rfl

/-! ### Compressors -/

theorem F32.not_isNaN_of_isPositive {a : Sample} (h : F32.isPositive a = true) : F32.isNaN a = false :=
  F32.isNaN_eq_false_of_isFinite (F32.isFinite_of_isPositive h)

/-- The envelope of a detector run is at least `CMP_EPS` (R40). -/
theorem Compressor.le_envelope {p : Params} (hp : F32.isNaN p.cmpEps = false) (m : Compressor) (a : Sample) :
    F32.le p.cmpEps (m.envelope p a) = true := by
  unfold Compressor.envelope
  have key : ∀ env, F32.le p.cmpEps (if F32.lt p.cmpEps env = true then env else p.cmpEps) = true := by
    intro env
    split_ifs with h
    · exact F32.le_of_lt h
    · exact F32.le_refl hp
  exact key _

theorem isNaN_cmpEps : F32.isNaN params.cmpEps = false := F32.not_isNaN_of_isPositive (isPositive_keepPositive _)

@[simp] theorem Compressor.advance_timesHeld (p : Params) (m : Compressor) (x : Sample) :
    (m.advance p x).timesHeld = m.timesHeld := by unfold Compressor.advance; split_ifs <;> rfl
@[simp] theorem Compressor.advance_curveHeld (p : Params) (m : Compressor) (x : Sample) :
    (m.advance p x).curveHeld = m.curveHeld := by unfold Compressor.advance; split_ifs <;> rfl
@[simp] theorem Compressor.advance_envHeld (p : Params) (m : Compressor) (x : Sample) :
    (m.advance p x).envHeld = m.envHeld := by unfold Compressor.advance; split_ifs <;> rfl
@[simp] theorem Compressor.advance_sampleRate (p : Params) (m : Compressor) (x : Sample) :
    (m.advance p x).sampleRate = m.sampleRate := by unfold Compressor.advance; split_ifs <;> rfl
/-- The divider advances by one on every call (R189). -/
@[simp] theorem Compressor.advance_divCount (p : Params) (m : Compressor) (x : Sample) :
    (m.advance p x).divCount = (m.divCount + 1) % p.cmpN := by unfold Compressor.advance; split_ifs <;> rfl

/-- `CMP_N` is one or more (R8). -/
theorem cmpN_pos : 0 < params.cmpN := by
  show 0 < keepCount Config.cmpN
  unfold keepCount; split_ifs with h
  · exact h
  · decide

/-- With `CMP_N = 1` the detector runs on every sample: the divider is always back at 0 (R186 (iv)). -/
theorem Compressor.advance_divCount_of_one {p : Params} (h : p.cmpN = 1) (m : Compressor) (x : Sample) :
    (m.advance p x).divCount = 0 := by
  rw [Compressor.advance_divCount, h, Nat.mod_one]

theorem Compressor.good_advance {m : Compressor} (h : m.good params) (x : Sample) :
    (m.advance params x).good params := by
  refine ⟨by rw [Compressor.advance_divCount]; exact Nat.mod_lt _ cmpN_pos, ?_, ?_, ?_⟩
  · have := h.2.1; unfold Compressor.advance; split_ifs <;> exact this
  · have := h.2.2.1; unfold Compressor.advance; split_ifs <;> exact this
  · intro he
    rw [Compressor.advance_envHeld] at he
    unfold Compressor.advance
    split_ifs
    · exact ⟨rfl, .inr (Compressor.le_envelope isNaN_cmpEps _ _)⟩
    · exact h.2.2.2 he

theorem Compressor.good_setTimes {m : Compressor} (h : m.good params) {a r : Sample} (ha : F32.isPositive a = true)
    (hr : F32.isPositive r = true) : (m.setTimes params a r).good params :=
  ⟨h.1, fun _ => ⟨ha, hr⟩, h.2.2⟩

theorem Compressor.good_setCurve {m : Compressor} (h : m.good params) {th ra : Sample}
    (hth : F32.isFinite th = true) (hra : F32.isPositive ra = true) : (m.setCurve th ra).good params :=
  ⟨h.1, h.2.1, fun _ => ⟨hth, hra⟩, h.2.2.2⟩

theorem isFinite_keepFinite (v : Sample) : F32.isFinite (keepFinite v) = true := by
  unfold keepFinite; split_ifs with h
  · exact h
  · rfl

theorem Compressor.good_setRate {m : Compressor} (h : m.good params) (rate : Sample) :
    (m.setRate params rate).good params := by
  have h1 : Compressor.good params { m with sampleRate := rate } := h
  unfold Compressor.setRate
  simp only
  have ha : F32.isPositive (if m.timesHeld = true then m.attackTime else params.ksCmpAttack) = true := by
    split_ifs with ht
    · exact (h.2.1 ht).1
    · exact isPositive_keepPositive _
  have hr : F32.isPositive (if m.timesHeld = true then m.releaseTime else params.ksCmpRelease) = true := by
    split_ifs with ht
    · exact (h.2.1 ht).2
    · exact isPositive_keepPositive _
  by_cases hc : m.curveHeld = true
  · rw [if_pos hc]; exact Compressor.good_setTimes h1 ha hr
  · rw [if_neg hc]
    exact Compressor.good_setCurve (Compressor.good_setTimes h1 ha hr) (isFinite_keepFinite _)
      (isPositive_keepPositive _)

@[simp] theorem Compressor.setRate_timesHeld (p : Params) (m : Compressor) (rate : Sample) :
    (m.setRate p rate).timesHeld = true := by unfold Compressor.setRate; simp only; split_ifs <;> rfl
@[simp] theorem Compressor.setRate_curveHeld (p : Params) (m : Compressor) (rate : Sample) :
    (m.setRate p rate).curveHeld = true := by
  by_cases h : m.curveHeld = true
  · simp [Compressor.setRate, Compressor.setTimes, h]
  · simp [Compressor.setRate, Compressor.setCurve, h]
@[simp] theorem Compressor.setRate_envHeld (p : Params) (m : Compressor) (rate : Sample) :
    (m.setRate p rate).envHeld = m.envHeld := by unfold Compressor.setRate; simp only; split_ifs <;> rfl
@[simp] theorem Compressor.setRate_divCount (p : Params) (m : Compressor) (rate : Sample) :
    (m.setRate p rate).divCount = m.divCount := by unfold Compressor.setRate; simp only; split_ifs <;> rfl
@[simp] theorem Compressor.setRate_sampleRate (p : Params) (m : Compressor) (rate : Sample) :
    (m.setRate p rate).sampleRate = rate := by unfold Compressor.setRate; simp only; split_ifs <;> rfl

/-- A second `SYS.SETRATE` with the same rate changes no compressor (R228). -/
theorem Compressor.setRate_twice (p : Params) (m : Compressor) (rate : Sample) :
    (m.setRate p rate).setRate p rate = m.setRate p rate := by
  by_cases ht : m.timesHeld = true <;> by_cases hc : m.curveHeld = true <;>
    simp [Compressor.setRate, Compressor.setTimes, Compressor.setCurve, ht, hc]

theorem Compressor.good_init {m : Compressor} (h : m.good params) : m.init.good params :=
  ⟨cmpN_pos, h.2.1, h.2.2.1, fun _ => ⟨rfl, .inl rfl⟩⟩

end Sys2Proof.Machine
end

