-- ==== Sys2Proof/Laws/Step.lean ====
section
/-! SUPPORT. What one step can do (R263, R285, R287; logs 1, 3, 4). -/

namespace Sys2Proof.Machine

theorem State.requeue_eq (s : State) (rest : List Word) :
    s.requeue rest = s.setPending (if rest = [] then s.pending else .command rest :: s.pending) := by
  cases rest <;> rfl

/-- A step idles or drops an incomplete command, resets the block, is answered by the halted block, raises
`IllegalCommand`, or executes a command of a block that is not halted: on the state with some other queue. -/
theorem step_cases {s t : State} (h : step s = .next t) :
    (∃ es, t = s.setPending es)
      ∨ (∃ es, s.pending = .hardwareReset :: es ∧ t = hardwareReset (s.setPending es))
      ∨ (halted s = true ∧ ∃ es ws, t = (s.setPending es).respond ws)
      ∨ (halted s = false ∧ ∃ es w, t = ((s.setPending es).latch 1#32 w).respond [1#32])
      ∨ (halted s = false ∧ ∃ es i, exec i (s.setPending es) = .next t) := by
  simp only [step, serveNext] at h
  split at h
  · cases h; exact .inl ⟨s.pending, rfl⟩
  · rename_i es hp; cases h; exact .inr (.inl ⟨es, hp, rfl⟩)
  · rename_i words es hp
    cases words with
    | nil => cases h; exact .inl ⟨es, rfl⟩
    | cons w0 rest =>
      simp only [serve] at h
      have hh : halted (s.setPending es) = halted s := rfl
      rw [hh] at h
      cases hs : halted s with
      | true =>
        rw [hs] at h
        simp only [if_true, serveHalted] at h
        refine .inr (.inr (.inl ⟨rfl, ?_⟩))
        split at h
        · have := execSysStatus_eq_next.1 h
          rw [State.requeue_eq] at this
          exact ⟨_, _, this⟩
        · cases h; exact ⟨es, _, rfl⟩
      | false =>
        rw [hs] at h
        simp only [Bool.false_eq_true, if_false, serveDecoded] at h
        split at h
        · rw [State.requeue_eq] at h
          exact .inr (.inr (.inr (.inr ⟨rfl, _, _, h⟩)))
        · cases h
          exact .inr (.inr (.inr (.inl ⟨rfl, es, _, rfl⟩)))
        · cases h; exact .inl ⟨es, rfl⟩

end Sys2Proof.Machine
end

