-- ==== Sys2Proof/Tests/Slice0.lean ====
section
/-! SUPPORT. The model's own tests. Expected results are those of `95_test_vectors.md` (named in each docstring), or
worked out from a rule by hand; then one witness for the hypotheses of each statement. -/

namespace Sys2Proof.Tests

open Sys2Proof Sys2Proof.Machine

/-! ### Helpers -/

/-- The outcome is a next state whose answer is `ws`. -/
def answers (x : Host.Outcome State Fault Refusal) (ws : List Word) : Bool :=
  match x with
  | .next t => decide (t.response = ws)
  | .fault _ => false
  | .refused _ => false

/-- The outcome is a next state with `p`. -/
def leaves (x : Host.Outcome State Fault Refusal) (p : State → Bool) : Bool :=
  match x with
  | .next t => p t
  | .fault _ => false
  | .refused _ => false

/-- The outcome is the refusal `r`. -/
def refuses (x : Host.Outcome State Fault Refusal) (r : Refusal) : Bool :=
  match x with
  | .next _ => false
  | .fault _ => false
  | .refused r' => decide (r' = r)

/-- An outcome that answers is a next state. -/
theorem next_of_answers {x : Host.Outcome State Fault Refusal} {ws : List Word} (h : answers x ws = true) :
    ∃ t, x = .next t ∧ t.response = ws := by
  cases x with
  | next t => exact ⟨t, rfl, by simpa [answers] using h⟩
  | fault r => simp [answers] at h
  | refused r => simp [answers] at h

/-- A command that faults answers the fault's code and records `info`. -/
def raises (x : Host.Outcome State Fault Refusal) (code info : Word) : Bool :=
  leaves x fun t => decide (t.response = [code] ∧ t.sys.fault = ⟨code, info⟩)

theorem next_of_raises {x : Host.Outcome State Fault Refusal} {code info : Word} (h : raises x code info = true) :
    ∃ t, x = .next t ∧ t.response = [code] ∧ t.sys.fault.info = info := by
  cases x with
  | next t =>
    simp only [raises, leaves, decide_eq_true_eq] at h
    exact ⟨t, rfl, h.1, by rw [h.2]⟩
  | fault r => simp [raises, leaves] at h
  | refused r => simp [raises, leaves] at h

/-- The block with the host's word sequence waiting. -/
def issued (s : State) (ws : List Word) : State := s.setPending [.command ws]

/-- Controls and voltages of P5 that no test fixture reads, kept off the ends of every clamp. -/
def quiet : StepControls :=
  ⟨0#32, 0#32, 0x3F000000#32, 0x3F000000#32, 0#32, 0#32, 0#32, 0x3F000000#32⟩

def silence : VoiceIn := ⟨0#32, 0#32⟩

/-! ### WellFormed (R83, R88) -/

theorem test_wellFormed_refuses_17_voices :
    (Instr.sysStep quiet (List.replicate 17 silence)).wellFormed = false := by decide
theorem test_wellFormed_takes_16_voices :
    (Instr.sysStep quiet (List.replicate 16 silence)).wellFormed = true := by decide

/-! ### Decoding: words written out from R81, R86 -/

/-- SYS (R86; DEC-20, DEC-21). -/
theorem test_decode_sys :
    decode [0x00000000#32] = .command .sysStatus []
      ∧ decode [0x01000000#32, 0x473B8000#32] = .command (.sysSetRate 0x473B8000#32) []
      ∧ decode [0x02000000#32] = .command .sysInit []
      ∧ decode [0x03000000#32, 0#32, 1#32, 2#32, 3#32, 4#32, 5#32, 6#32, 7#32, 8#32]
          = .command (.sysStep ⟨1#32, 2#32, 3#32, 4#32, 5#32, 6#32, 7#32, 8#32⟩ []) []
      ∧ decode [0x03000000#32, 1#32, 1#32, 2#32, 3#32, 4#32, 5#32, 6#32, 7#32, 8#32, 9#32, 10#32, 11#32]
          = .command (.sysStep ⟨1#32, 2#32, 3#32, 4#32, 5#32, 6#32, 7#32, 8#32⟩ [⟨9#32, 10#32⟩]) [11#32] := by
  decide

/-- LUT (P2). -/
theorem test_decode_lut :
    decode [0x10050000#32, 0#32, 0x40800000#32, 0x3F800000#32]
        = .command (.lutConfig 5 0#32 0x40800000#32 0x3F800000#32) []
      ∧ decode [0x11050000#32, 2#32, 0x40800000#32] = .command (.lutWrite 5 2#32 0x40800000#32) []
      ∧ decode [0x12050000#32, 0x40200000#32] = .command (.lutEval 5 0x40200000#32) []
      ∧ decode [0x13050000#32, 0#32, 0x3F000000#32, 0x40200000#32, 0x40700000#32]
          = .command (.lutEvalv 5 0#32 0x3F000000#32 0x40200000#32 0x40700000#32) [] := by decide

/-- CB (P1, DEC-1). -/
theorem test_decode_cb :
    decode [0x20000000#32, 3#32] = .command (.cbReset 0 3#32) []
      ∧ decode [0x21000000#32, 0x3F800000#32] = .command (.cbPush 0 0x3F800000#32) []
      ∧ decode [0x22000000#32, 1#32, 0x41100000#32] = .command (.cbWrat 0 1#32 0x41100000#32) []
      ∧ decode [0x23000000#32, 1#32, 0x3F000000#32] = .command (.cbAddat 0 1#32 0x3F000000#32) []
      ∧ decode [0x24000000#32, 0xFFFFFFFF#32] = .command (.cbRdi 0 0xFFFFFFFF#32) []
      ∧ decode [0x25030000#32, 0x41480000#32] = .command (.cbRdf 3 0x41480000#32) [] := by decide

/-- BQ (P3, DEC-2, DEC-3, DEC-22, BQ-9). -/
theorem test_decode_bq :
    decode [0x400F0300#32] = .command (.bqClear 15 3) []
      ∧ decode [0x41050100#32, 0x3F800000#32] = .command (.bqProc 5 1 0x3F800000#32) []
      ∧ decode [0x42000200#32, 0x46EA6000#32] = .command (.bqSetBwLp2 0 2 0x46EA6000#32) []
      ∧ decode [0x43000200#32, 1#32] = .command (.bqSetBwHp2 0 2 1#32) []
      ∧ decode [0x44000200#32, 1#32] = .command (.bqSetLrLp2 0 2 1#32) []
      ∧ decode [0x45000200#32, 1#32] = .command (.bqSetLrHp2 0 2 1#32) []
      ∧ decode [0x46000200#32, 1#32] = .command (.bqSetAp1 0 2 1#32) []
      ∧ decode [0x47000300#32, 1#32, 2#32, 3#32, 4#32, 5#32, 6#32, 7#32]
          = .command (.bqLoadc 0 3 1#32 2#32 3#32 4#32 5#32 6#32 7#32) []
      ∧ decode [0x48000200#32, 0x3F800000#32] = .command (.bqProc4 0 0x3F800000#32) []
      ∧ decode [0x49030100#32, 1#32, 2#32, 3#32, 4#32] = .command (.bqProcv 3 1 1#32 2#32 3#32 4#32) [] := by decide

/-- CMP and WS (R86; P4). -/
theorem test_decode_cmp_ws :
    decode [0x50000000#32, 0x3A83126F#32, 0x3DCCCCCD#32] = .command (.cmpSetTimes 0 0x3A83126F#32 0x3DCCCCCD#32) []
      ∧ decode [0x51000000#32, 0xC0C00000#32, 0x41280000#32] = .command (.cmpSetCurve 0 0xC0C00000#32 0x41280000#32) []
      ∧ decode [0x520F0000#32, 0x3F800000#32] = .command (.cmpProc 15 0x3F800000#32) []
      ∧ decode [0x60000000#32, 3#32, 0x40400000#32] = .command (.wsWrite 0 3#32 0x40400000#32) []
      ∧ decode [0x610F0000#32, 0x3F000000#32] = .command (.wsEval 15 0x3F000000#32) [] := by decide

/-- Illegal command words (DEC-4 to DEC-17). -/
theorem test_decode_illegal :
    decode [0x48000300#32, 0x3F800000#32] = .illegal 0x48000300#32
      ∧ decode [0x41000400#32, 0x3F800000#32] = .illegal 0x41000400#32
      ∧ decode [0x49040000#32] = .illegal 0x49040000#32
      ∧ decode [0x21100000#32, 0x3F800000#32] = .illegal 0x21100000#32
      ∧ decode [0x21000100#32, 0x3F800000#32] = .illegal 0x21000100#32
      ∧ decode [0x21000001#32, 0x3F800000#32] = .illegal 0x21000001#32
      ∧ decode [0x03000000#32, 17#32] = .illegal 0x03000000#32
      ∧ decode [0x30000000#32] = .illegal 0x30000000#32
      ∧ decode [0x70000000#32] = .illegal 0x70000000#32
      ∧ decode [0x26000000#32] = .illegal 0x26000000#32
      ∧ decode [0x04000000#32] = .illegal 0x04000000#32
      ∧ decode [0x01010000#32, 0x473B8000#32] = .illegal 0x01010000#32
      ∧ decode [0x12080000#32, 0#32] = .illegal 0x12080000#32
      ∧ decode [0x61100000#32, 0#32] = .illegal 0x61100000#32 := by decide

/-- Incomplete sequences (DEC-18, DEC-19). -/
theorem test_decode_incomplete :
    decode [] = .incomplete
      ∧ decode [0x25030000#32] = .incomplete
      ∧ decode (0x03000000#32 :: 2#32 :: List.replicate 11 0#32) = .incomplete := by decide

/-- The opcode table's numbering of a row's bits: `CB.RDF` of channel 3, its one operand all zeros. -/
theorem test_decodeTableWord : decodeTableWord 32 0x25030000 = some (.cbRdf 3 0#32) := by decide

/-! ### CB -/

/-- The ring after the four pushes of P1. -/
def ring4 : Ring :=
  ((((Ring.cleared 2).push 0x3F800000#32).push 0x40000000#32).push 0x40400000#32).push 0x40800000#32

/-- The block after command 5 of P1. -/
def withRing : State := State.reset.setCb 0 ring4

/-- P1, 1 and S3. -/
theorem test_cbReset :
    leaves (exec (.cbReset 0 3#32) State.reset) (fun t => decide (t.response = [0#32, 4#32] ∧ t.cb[0] = ⟨true, 2, 0, []⟩))
      = true := by decide
theorem test_cbReset_too_large : raises (exec (.cbReset 0 1048577#32) withRing) 2#32 4#32 = true := by decide
/-- CB-16. -/
theorem test_cbPush :
    leaves (exec (.cbPush 0 0x40A00000#32) withRing)
      (fun t => decide ((t.cb[0]).writeIndex = 1 ∧ (t.cb[0]).buffer
        = [(0, 0x40800000#32), (1, 0x40A00000#32), (2, 0x40000000#32), (3, 0x40400000#32)])) = true := by decide
/-- S2: a NaN is stored as `+0`, which a ring does not list. -/
theorem test_cbPush_nan :
    leaves (exec (.cbPush 0 0x7FC00000#32) withRing)
      (fun t => decide ((t.cb[0]).buffer = [(0, 0x40800000#32), (2, 0x40000000#32), (3, 0x40400000#32)])) = true := by
  decide
/-- A negative offset is the cell the next push overwrites (CB-22). -/
theorem test_cbWrat :
    leaves (exec (.cbWrat 0 0xFFFFFFFF#32 0x41000000#32) withRing)
      (fun t => decide ((t.cb[0]).writeIndex = 0 ∧ (t.cb[0]).cellAt 1 = 0x41000000#32)) = true := by decide
/-- `3 + 0.5` at offset 1, cell 3 (R130). -/
theorem test_cbAddat :
    leaves (exec (.cbAddat 0 1#32 0x3F000000#32) withRing)
      (fun t => decide ((t.cb[0]).cellAt 3 = 0x40600000#32)) = true := by decide
/-- The sum is sanitised (CB-20). -/
theorem test_cbAddat_inf :
    leaves (exec (.cbAddat 0 0#32 0x7F800000#32) withRing) (fun t => decide ((t.cb[0]).cellAt 0 = 0#32)) = true := by
  decide
/-- CB-6. -/
theorem test_cbRdi_negative : answers (exec (.cbRdi 0 0xFFFFFFFF#32) withRing) [0#32, 0x3F800000#32] = true := by decide
/-- CB-8. -/
theorem test_cbRdi_least : answers (exec (.cbRdi 0 0x80000000#32) withRing) [0#32, 0x40800000#32] = true := by decide
/-- CB-11. -/
theorem test_cbRdf : answers (exec (.cbRdf 0 0x3FA00000#32) withRing) [0#32, 0x40300000#32] = true := by decide
/-- Across the seam (CB-13). -/
theorem test_cbRdf_seam : answers (exec (.cbRdf 0 0x40600000#32) withRing) [0#32, 0x40200000#32] = true := by decide

/-! ### LUT -/

/-- Table 5 as P2 leaves it after command 6. -/
def squares : Lut :=
  ⟨true, 0#32, 0x40800000#32, 0x3F800000#32, 5,
    [(1, 0x3F800000#32), (2, 0x40800000#32), (3, 0x41100000#32), (4, 0x41800000#32)]⟩

def withTable : State := State.reset.setLut 5 squares

/-- P2, 1. -/
theorem test_lutConfig :
    leaves (exec (.lutConfig 5 0#32 0x40800000#32 0x3F800000#32) State.reset)
      (fun t => decide (t.response = [0#32, 5#32] ∧ t.lut[5] = { squares with samples := [] })) = true := by decide
/-- LUT-26: 100002 samples are too many. -/
theorem test_lutConfig_too_long :
    raises (exec (.lutConfig 5 0#32 0x3F800000#32 0x3727C5AC#32) State.reset) 2#32 1#32 = true := by decide
/-- P2, 4. -/
theorem test_lutWrite :
    leaves (exec (.lutWrite 5 2#32 0x3F800000#32) withTable)
      (fun t => decide ((t.lut[5]).samples
        = [(1, 0x3F800000#32), (2, 0x3F800000#32), (3, 0x41100000#32), (4, 0x41800000#32)])) = true := by decide
/-- LUT-29. -/
theorem test_lutWrite_past_end : raises (exec (.lutWrite 5 5#32 0x3F800000#32) withTable) 2#32 3#32 = true := by decide
/-- LUT-3; below the domain the index is clamped and the fraction is not (LUT-13). -/
theorem test_lutEval :
    answers (exec (.lutEval 5 0x40200000#32) withTable) [0#32, 0x40D00000#32] = true
      ∧ answers (exec (.lutEval 5 0xBE800000#32) withTable) [0#32, 0x3F400000#32] = true := by decide
/-- A table from `-1.5 * 2^127` to `1.5 * 2^127` in steps of `2^126`. -/
def wide : Lut :=
  ⟨true, 0xFF400000#32, 0x7F400000#32, 0x7E800000#32, 7, [(5, 0x40A00000#32), (6, 0x40E00000#32)]⟩
/-- R106 (i) by hand at `1.25 * 2^127`, where `x - minX` overflows: the cells 5 and 6, half way; R108 the same. -/
theorem test_lutEval_overflow :
    F32.isFinite (wide.quotient 0x7F200000#32) = false
      ∧ answers (exec (.lutEval 5 0x7F200000#32) (State.reset.setLut 5 wide)) [0#32, 0x40C00000#32] = true
      ∧ answers (exec (.lutEvalv 5 0#32 0#32 0#32 0x7F200000#32) (State.reset.setLut 5 wide))
        [0#32, 0#32, 0#32, 0#32, 0x40C00000#32] = true := by decide +kernel
/-- LUT-14. -/
theorem test_lutEvalv :
    answers (exec (.lutEvalv 5 0#32 0x3F000000#32 0x40200000#32 0x40700000#32) withTable)
      [0#32, 0#32, 0x3F000000#32, 0x40D00000#32, 0x41640000#32] = true := by decide
/-- Three samples from 0 in steps of 2: just below it `q` rounds to -0. -/
def even : Lut := ⟨true, 0#32, 0x40800000#32, 0x40000000#32, 3, []⟩
/-- Four samples from 2 in steps of 11184814: just past the last one `q` rounds below 3. -/
def uneven : Lut := ⟨true, 0x40000000#32, 0x4C000003#32, 0x4B2AAAAE#32, 4, []⟩
/-- LUT-15: the lowest offending lane; R302: a lane below or past the table faults also where `q` rounds into range. -/
theorem test_lutEvalv_out :
    raises (exec (.lutEvalv 5 0#32 0x40800000#32 0#32 0xBF000000#32) withTable) 3#32 0x501#32 = true
      ∧ raises (exec (.lutEvalv 5 0#32 0x80000001#32 0#32 0#32) (State.reset.setLut 5 even)) 3#32 0x501#32 = true
      ∧ raises (exec (.lutEvalv 5 0x40000000#32 0x40000000#32 0x40000000#32 0x4C000003#32) (State.reset.setLut 5 uneven))
        3#32 0x503#32 = true := by decide +kernel

/-! ### BQ -/

/-- The section of BQ-1, cleared. -/
def smooth : Biquad :=
  { Biquad.reset with
    a0 := 0x3E800000#32, a1 := 0x3F000000#32, a2 := 0x3E800000#32, c0 := 0x3F800000#32, coefHeld := true, memHeld := true }

/-- Slots 2 and 3 of channel 0 as P3 leaves them after command 4. -/
def withSections : State := (State.reset.setBq 0 2 smooth).setBq 0 3 smooth

/-- The four sections of BQ-13. -/
def withLanes : State :=
  let one : Biquad := { Biquad.reset with a0 := 0x3F800000#32, c0 := 0x3F800000#32, coefHeld := true, memHeld := true }
  (((State.reset.setBq 0 2 one).setBq 1 2 one).setBq 2 2 { one with c0 := 0#32 }).setBq 3 2 one

/-- The block after `SYS.SETRATE 48000.0`, as far as the `BQ.SET*` read it. -/
def withRate : State := { State.reset with sys := { System.reset with sampleRate := 0x473B8000#32, rateSet := true } }

theorem test_bqClear :
    leaves (exec (.bqClear 0 2) (withSections.setBq 0 2 (smooth.advance 0x3F800000#32)))
      (fun t => decide (t.getBq 0 2 = smooth)) = true := by decide
/-- BQ-1, the first sample. -/
theorem test_bqProc :
    leaves (exec (.bqProc 0 2 0x3F800000#32) withSections)
      (fun t => decide (t.response = [0#32, 0x3E800000#32]
        ∧ t.getBq 0 2 = { smooth with xz1 := 0x3F800000#32, yz1 := 0x3E800000#32 })) = true := by decide +kernel
/-- BQ-3, the second sample: feedback is subtracted. -/
theorem test_bqProc_feedback :
    answers (exec (.bqProc 0 2 0#32)
      (State.reset.setBq 0 2
        { smooth with
          a0 := 0x3F800000#32, a1 := 0#32, a2 := 0#32, b1 := 0x3F000000#32, xz1 := 0x3F800000#32, yz1 := 0x3F800000#32 }))
      [0#32, 0xBF000000#32] = true := by decide
/-- P3, 1. -/
theorem test_bqLoadc :
    leaves (exec (.bqLoadc 0 2 0x3E800000#32 0x3F000000#32 0x3E800000#32 0#32 0#32 0x3F800000#32 0#32) State.reset)
      (fun t => decide (t.getBq 0 2 = { smooth with memHeld := false })) = true := by decide
/-- P3, 5. -/
theorem test_bqProc4 : answers (exec (.bqProc4 0 0x3F800000#32) withSections) [0#32, 0x3D800000#32] = true := by decide +kernel
/-- BQ-13. -/
theorem test_bqProcv :
    leaves (exec (.bqProcv 0 2 0x3F800000#32 0x40000000#32 0x40400000#32 0x40800000#32) withLanes)
      (fun t => decide (t.response = [0#32, 0x3F800000#32, 0x40000000#32, 0#32, 0x40800000#32]
        ∧ (t.getBq 2 2).xz1 = 0x40400000#32)) = true := by decide
/-- BQ-9: the clamped cutoff; the five designs record their own id. -/
theorem test_bqSetBwLp2 :
    leaves (exec (.bqSetBwLp2 0 2 0x46EA6000#32) withRate)
      (fun t => decide ((t.getBq 0 2).kind = some .bwlp2 ∧ (t.getBq 0 2).lastFc = 0x46B22000#32
        ∧ (t.getBq 0 2).lastRate = 0x473B8000#32 ∧ (t.getBq 0 2).c0 = 0x3F800000#32)) = true := by decide
theorem test_bqSetBwHp2 :
    leaves (exec (.bqSetBwHp2 0 0 0x463B8000#32) withRate)
      (fun t => decide ((t.getBq 0 0).kind = some .bwhp2 ∧ (t.getBq 0 0).lastFc = 0x463B8000#32)) = true := by decide
theorem test_bqSetLrLp2 :
    leaves (exec (.bqSetLrLp2 3 2 0x463B8000#32) withRate) (fun t => decide ((t.getBq 3 2).kind = some .lrlp2)) = true := by
  decide
theorem test_bqSetLrHp2 :
    leaves (exec (.bqSetLrHp2 3 2 0x463B8000#32) withRate) (fun t => decide ((t.getBq 3 2).kind = some .lrhp2)) = true := by
  decide
theorem test_bqSetAp1 :
    leaves (exec (.bqSetAp1 3 2 0x463B8000#32) withRate) (fun t => decide ((t.getBq 3 2).kind = some .ap1)) = true := by
  decide

/-! ### CMP -/

/-- A compressor with `attackCoeff = 0.5`, `threshold = -6`, `ratio = 2`, as `SYS.INIT` leaves its envelope. -/
def compressor : Compressor :=
  { Compressor.reset with
    attackCoeff := 0x3F000000#32, releaseCoeff := 0x3F000000#32, attackTime := 0x3F800000#32, releaseTime := 0x3F800000#32
    timesHeld := true, sampleRate := 0x473B8000#32, threshold := 0xC0C00000#32, ratio := 0x40000000#32, curveHeld := true
    gain := 0x3F800000#32, envHeld := true }

def withCmp : State := { withRate with cmp := Vector.replicate 16 compressor }

/-- A time that is not positive is outside the rule (CMP-15). -/
theorem test_cmpSetTimes :
    leaves (exec (.cmpSetTimes 0 0x3A83126F#32 0x3DCCCCCD#32) withCmp)
        (fun t => decide ((t.cmp[0]).attackTime = 0x3A83126F#32 ∧ (t.cmp[0]).releaseTime = 0x3DCCCCCD#32
          ∧ (t.cmp[0]).gain = 0x3F800000#32)) = true
      ∧ refuses (exec (.cmpSetTimes 0 0#32 0x3DCCCCCD#32) withCmp) .timeOutsideDomain = true := by decide
/-- P4, 4. -/
theorem test_cmpSetCurve :
    leaves (exec (.cmpSetCurve 0 0xC0C00000#32 0x41280000#32) withCmp)
      (fun t => decide ((t.cmp[0]).threshold = 0xC0C00000#32 ∧ (t.cmp[0]).ratio = 0x41280000#32)) = true := by decide
/-- CMP-10: between two detector runs the gain is held. -/
theorem test_cmpProc_held :
    leaves (exec (.cmpProc 0 0x42C80000#32) { withCmp with cmp := Vector.replicate 16 { compressor with divCount := 3 } })
      (fun t => decide (t.response = [0#32, 0x42C80000#32]
        ∧ (t.cmp[0]).currentEnv = 0#32 ∧ (t.cmp[0]).gain = 0x3F800000#32)) = true := by decide

/-! ### WS -/

/-- Two cells of the test curve of section 2.6. -/
def curve2 : Mem := [(2046, 0x44FFC000#32), (2047, 0x44FFE000#32)]

theorem test_wsWrite :
    leaves (exec (.wsWrite 0 4095#32 0x7FC00000#32) State.reset) (fun t => decide (t.ws[0] = [(4095, 0x7FC00000#32)])) = true
      ∧ raises (exec (.wsWrite 0 4096#32 0#32) State.reset) 2#32 5#32 = true := by decide
/-- The outcome is the sample `y`. -/
def gives (x : Answer Sample) (y : Sample) : Bool :=
  match x with
  | .next a => decide (a = y)
  | .fault _ => false
  | .refused _ => false

/-- WS-2: an odd index reads one cell low; a curve that is not fully written is refused. -/
theorem test_wsEval :
    gives (curveAt curve2 0#32) 0x44FFD001#32 = true
      ∧ refuses (exec (.wsEval 3 0#32) State.reset) .curveNotLoaded = true := by decide +kernel
/-- WS-9, WS-10: the index wraps. -/
theorem test_wsIndex : wsIndex 0x3FC00000#32 = 510 ∧ wsIndex 0xBFC00000#32 = 3584 := by decide +kernel

/-! ### The open functions bound as in T0 (section 2.7) -/

/-- T0, with `TAN = 1` (its value at a quarter of the sample rate), `LOG10 = -0.25` and `POW10` the identity. -/
def fixture : Params where
  exp := fun _ => 0x3F000000#32
  log10 := fun _ => 0xBE800000#32
  pow10 := fun x => x
  tan := fun _ => 0x3F800000#32
  cmpN := Config.cmpNDefault
  cmpTC := Config.cmpTCDefault
  cmpEps := 0x30800000#32
  recompTol := 0#32
  ksF0 := 0x44800000#32
  ksGlide := fun _ target _ _ => target
  ksGlide0 := 0x44800000#32
  ksFbMin := 0#32
  ksFbMax := 0x3F800000#32
  ksStMin := 0#32
  ksStMax := 0x3F800000#32
  ksMixMin := 0#32
  ksMixMax := 0x3F800000#32
  ksStretch := fun _ _ => 0x3F800000#32
  ksExcite := fun vIn _ => vIn
  ksDcFreq := 0x41A00000#32
  ksCmpAttack := 0x3A83126F#32
  ksCmpRelease := 0x3DCCCCCD#32
  ksCmpThreshold := 0x42C80000#32
  ksCmpRatio := 0x40000000#32
  ksUtune := fun u => u
  ksUtuneBound := false
  ksSpread := fun _ => 0x3F800000#32
  ksTapDelay := fun _ index p => F32.mul index p
  ksCentre := fun _ => 0x3F800000#32
  ksSide := fun _ => 0x3F000000#32
  ksSat := fun o => F32.clamp o 0xBF800000#32 0x3F800000#32
  ksSatCurve := none
  ksSatIn := fun o => o
  ksSatOut := fun y => y
  draw := fun _ => 0x3F000000#32

/-- S4, BQ-14 and R164 at a quarter of the sample rate, each coefficient worked out in binary32 from the rule. -/
theorem test_designs :
    bqDesign fixture .bwlp2 0x463B8000#32 0x473B8000#32 = ⟨0x3E95F619#32, 0x3F15F619#32, 0x3E95F619#32, 0#32, 0x3E2FB0CD#32⟩
      ∧ bqDesign fixture .bwhp2 0x463B8000#32 0x473B8000#32
          = ⟨0x3E95F619#32, 0xBF15F619#32, 0x3E95F619#32, 0#32, 0x3E2FB0CD#32⟩
      ∧ bqDesign fixture .lrlp2 0x463B8000#32 0x473B8000#32 = ⟨0x3E800000#32, 0x3F000000#32, 0x3E800000#32, 0#32, 0#32⟩
      ∧ bqDesign fixture .lrhp2 0x463B8000#32 0x473B8000#32 = ⟨0x3E800000#32, 0xBF000000#32, 0x3E800000#32, 0#32, 0#32⟩
      ∧ bqDesign fixture .ap1 0x463B8000#32 0x473B8000#32 = ⟨0#32, 0x3F800000#32, 0#32, 0#32, 0#32⟩ := by decide +kernel

/-- BQ-10, BQ-11: an equal design is skipped, another one is not. -/
theorem test_bqSet_gate :
    let q := (Biquad.reset).setDesign fixture .bwlp2 0x46EA6000#32 0x473B8000#32
    q.setDesign fixture .bwlp2 0x46C35000#32 0x473B8000#32 = q
      ∧ (q.setDesign fixture .bwhp2 0x46C35000#32 0x473B8000#32).kind = some .bwhp2 := by decide

/-- R186 by hand: `env = 0.5`, `inDb = -5`, `attDb = -5.5`, so `G = POW10(-0.025)`. -/
theorem test_cmpProc_detector :
    compressor.advance fixture 0xBF800000#32
      = { compressor with
          lastEnv := 0x3F000000#32, currentEnv := 0x3F000000#32, gain := 0xBCCCCCCD#32, divCount := 1 } := by decide +kernel
/-- CMP-11: silence leaves the envelope at `CMP_EPS`; the divider wraps at `CMP_N`. -/
theorem test_cmpProc_floor :
    (compressor.advance fixture 0#32).currentEnv = 0x30800000#32
      ∧ (({ compressor with divCount := 3 } : Compressor).advance fixture 0#32).divCount = 0 := by decide

/-- The POW2 table of T0. -/
def pow2 : Lut :=
  ⟨true, 0xBF800000#32, 0x3F800000#32, 0x3F800000#32, 3, [(0, 0x3F000000#32), (1, 0x3F800000#32), (2, 0x40000000#32)]⟩

def identity : Biquad :=
  { Biquad.reset with a0 := 0x3F800000#32, c0 := 0x3F800000#32, coefHeld := true, memHeld := true }

/-- The environment of a frame under T0, no table but POW2 loaded. -/
def env (controls : StepControls) : FrameEnv :=
  ⟨fixture, 0x473B8000#32, pow2, Lut.reset, Vector.replicate 16 [], controls⟩

/-- The same with `KS_UTUNE` bound to table 4 and `KS_SAT` to curve 15 (R218). -/
def boundEnv (controls : StepControls) : FrameEnv :=
  { env controls with par := { fixture with ksUtuneBound := true, ksSatCurve := some 15 } }

/-- Channel 0 of P5 with one past push of 0.5 at cell 1 and the head at `w`. -/
def channelAt (w : Nat) : ChannelPart :=
  { ring := ⟨true, 12, w, [(1, 0x3F000000#32)]⟩
    bqIn := identity
    bqOut := identity
    cmp := { compressor with threshold := 0x42C80000#32, divCount := 1 }
    voice := ⟨Vector.replicate 7 0x3F000000#32, 0#32, 0#32, 0x44800000#32, 0x44800000#32⟩ }

/-- The answer of a frame and the sample it pushed. -/
def frameOut (x : Answer ChannelPart) : Option (Word × Word) :=
  match x with
  | .next ch => some (ch.voice.lastOut, ch.ring.readAt 0)
  | .fault _ => none
  | .refused _ => none

/-- P5, frame 47. -/
theorem test_sysStep_frame47 :
    frameOut ((env quiet).frame silence 0x3F000000#32 0x3F000000#32 (channelAt 47))
      = some (0x3D800000#32, 0x3D000000#32) := by decide +kernel
/-- P5u, frame 23: one unison tap, read after the push. -/
theorem test_sysStep_unison :
    frameOut ((env { quiet with ucount := 1#32 }).frame silence 0x3F000000#32 0x3F000000#32 (channelAt 23)) = some (0x3E100000#32, 0#32) := by decide +kernel
/-- KS-9: the phase advances and wraps. -/
theorem test_phase :
    (env quiet).nextPhase 0x41700000#32 0x423B8000#32 0 0x3F000000#32 = 0x3F51EB85#32
      ∧ (env quiet).nextPhase 0x41700000#32 0x423B8000#32 0 0x3F51EB85#32 = 0x3E0F5C28#32 := by decide
/-- R218: `KS_UTUNE` bound to table 4, here LUT-3; not loaded it is refused, and so is `KS_SAT` bound to a curve. -/
theorem test_sysStep_bindings :
    let e := boundEnv { quiet with utune := 0x40200000#32 }
    gives { e with spread := squares }.tuning 0x40D00000#32 = true
      ∧ (match e.tuning with | .refused r => decide (r = .spreadNotLoaded) | _ => false) = true
      ∧ (match e.saturate 0#32 with | .refused r => decide (r = .curveNotLoaded) | _ => false) = true := by decide +kernel

/-! ### SYS -/

/-- FLT-1 and P6, 3. -/
theorem test_sysStatus :
    answers (exec .sysStatus State.reset) [0#32, 0#32, 0#32] = true
      ∧ answers (exec .sysStatus (State.reset.latch 2#32 2#32)) [0#32, 2#32, 2#32] = true := by decide
/-- R228; KS-7. -/
theorem test_sysSetRate :
    leaves (exec (.sysSetRate 0x473B8000#32) State.reset)
        (fun t => decide (t.sys.sampleRate = 0x473B8000#32 ∧ (t.cmp[15]).sampleRate = 0x473B8000#32
          ∧ (t.getBq 15 1).kind = some .bwhp2 ∧ (t.getBq 15 2).kind = none)) = true
      ∧ refuses (exec (.sysSetRate 0#32) State.reset) .rateOutsideDomain = true := by decide +kernel
/-- KS-1, KS-7. -/
theorem test_sysInit :
    leaves (exec .sysInit withRate)
        (fun t => decide (t.response = [0#32] ∧ t.sys.inited = true ∧ t.cb[15] = Ring.cleared 12
          ∧ (t.cmp[15]).gain = 0x3F800000#32)) = true
      ∧ refuses (exec .sysInit State.reset) .rateNotSet = true := by decide +kernel
/-- KS-6, KS-7. -/
theorem test_sysStep_none :
    leaves (exec (.sysStep quiet []) { withRate with sys := { withRate.sys with inited := true, nch := 3 } })
        (fun t => decide (t.response = [0#32, 0#32] ∧ t.sys.nch = 0)) = true
      ∧ refuses (exec (.sysStep quiet []) withRate) .notInitialised = true := by decide

/-! ### Faults, the halted state, reset (FLT-3, FLT-4, FLT-6, R285) -/

theorem test_halted :
    answers (step (issued (State.reset.latch 2#32 2#32) [0x20000000#32, 4#32])) [2#32] = true
      ∧ answers (step (issued (State.reset.latch 2#32 2#32) [0x30000000#32])) [2#32] = true
      ∧ answers (step (issued (State.reset.latch 2#32 2#32) [0#32])) [0#32, 2#32, 2#32] = true := by decide
theorem test_illegal : raises (step (issued State.reset [0x21000001#32, 0x3F800000#32])) 1#32 0x21000001#32 = true := by
  decide
theorem test_hardwareReset :
    leaves (step ((withRing.latch 2#32 2#32).setPending [.hardwareReset]))
      (fun t => decide (t.sys.fault = ⟨0#32, 0#32⟩ ∧ (t.cb[0]).alloc = false)) = true := by decide
/-- The host's row word runs as the first command after reset. -/
theorem test_withFetchWord :
    answers (step (State.reset.withFetchWord 32 0x20000000)) [0#32, 1#32] = true := by decide

/-! ### Witnesses: a state and operands that meet the hypotheses of each statement, clause by clause -/

theorem witness_DecodeEncodeRoundTrip :
    (Instr.sysStep quiet []).wellFormed = true
      ∧ (Instr.sysStep quiet (List.replicate 16 silence)).wellFormed = true := by decide

theorem witness_DecodeOnlyEncodings :
    decode [0x25030000#32, 0x41480000#32, 7#32] = .command (.cbRdf 3 0x41480000#32) [7#32] := by decide

theorem witness_IllegalCommands :
    (issued State.reset [0x30000000#32]).pending = [.command [0x30000000#32]] ∧ halted State.reset = false
      ∧ decode [0x30000000#32] = .illegal 0x30000000#32 ∧ decode [0x21100000#32] = .illegal 0x21100000#32
      ∧ decode [0x41000400#32] = .illegal 0x41000400#32
      ∧ decode [0x03000000#32, 17#32] = .illegal 0x03000000#32 := by decide

theorem witness_OpcodeRowsDisjoint :
    0x48050200#32 &&& Opcode.bqProc4.mask = Opcode.bqProc4.matchWord := by decide

theorem witness_StepRunsDecoded :
    (issued State.reset [0#32]).pending = [.command [0#32]] ∧ halted (issued State.reset [0#32]) = false
      ∧ decode [0#32] = .command .sysStatus [] ∧ decode [0#32, 0x02000000#32] = .command .sysStatus [0x02000000#32] := by
  decide

theorem witness_HaltedBlockAnswers :
    halted (issued (State.reset.latch 2#32 2#32) [0x20000000#32, 4#32]) = true
      ∧ halted (issued (State.reset.latch 2#32 2#32) [0#32]) = true := by decide

theorem witness_QueueAfterRejection :
    halted (issued (State.reset.latch 2#32 2#32) [0x20000000#32, 4#32]) = true
      ∧ halted (issued (State.reset.latch 2#32 2#32) [0#32, 0#32]) = true
      ∧ halted (issued State.reset [0x30000000#32, 0#32]) = false
      ∧ decode [0x30000000#32, 0#32] = .illegal 0x30000000#32 := by decide

theorem witness_FaultRecordChanges :
    (∃ t, step State.reset = .next t) ∧ (∃ t, step (issued State.reset [0x30000000#32]) = .next t)
      ∧ ∃ t, step ((State.reset.latch 1#32 2#32).setPending [.hardwareReset]) = .next t :=
  ⟨⟨_, rfl⟩, ⟨_, rfl⟩, ⟨_, rfl⟩⟩

theorem witness_HardwareResetLeaves :
    (withRing.setPending [.hardwareReset, .command [0#32]]).pending = [.hardwareReset, .command [0#32]] := rfl

theorem witness_IdleAndIncomplete :
    State.reset.pending = [] ∧ halted (issued State.reset [0x25030000#32]) = false
      ∧ decode [0x25030000#32] = .incomplete ∧ decode [] = .incomplete := by decide

theorem witness_CommandsArePrecise :
    (∃ t, exec (.cbPush 0 0x40A00000#32) withRing = .next t) ∧ ∃ t, exec (.lutEval 7 0#32) State.reset = .next t :=
  ⟨⟨_, rfl⟩, ⟨_, rfl⟩⟩

/-- The seven sources of R261, each at a state and operands that raise it. -/
theorem witness_FaultSources :
    (∃ t, exec (.sysStep quiet (List.replicate 17 silence)) State.reset = .next t ∧ t.response = [1#32]
        ∧ t.sys.fault.info = 0x03000000#32)
      ∧ (∃ t, exec (.lutConfig 5 0#32 0#32 0#32) State.reset = .next t ∧ t.response = [2#32] ∧ t.sys.fault.info = 1#32)
      ∧ (∃ t, exec (.lutEval 7 0#32) State.reset = .next t ∧ t.response = [2#32] ∧ t.sys.fault.info = 2#32)
      ∧ (∃ t, exec (.lutWrite 5 5#32 0#32) withTable = .next t ∧ t.response = [2#32] ∧ t.sys.fault.info = 3#32)
      ∧ (∃ t, exec (.cbReset 0 1048577#32) withRing = .next t ∧ t.response = [2#32] ∧ t.sys.fault.info = 4#32)
      ∧ (∃ t, exec (.wsWrite 0 4096#32 0#32) State.reset = .next t ∧ t.response = [2#32] ∧ t.sys.fault.info = 5#32)
      ∧ ∃ t, exec (.lutEvalv 5 0#32 0x40800000#32 0#32 0#32) withTable = .next t ∧ t.response = [3#32]
        ∧ t.sys.fault.info = 0x501#32 :=
  ⟨next_of_raises (by decide), next_of_raises (by decide), next_of_raises (by decide), next_of_raises (by decide),
    next_of_raises (by decide), next_of_raises (by decide), next_of_raises (by decide)⟩

/-- A rate for which `SYS.INIT` asks for `2 ^ 20` cells exactly, and the next one that asks for one more. -/
theorem witness_SysInitResult :
    withRate.sys.rateSet = true
      ∧ (F32.floor (F32.div 0x4B9FFFEC#32 Config.ksFmin) + 2).toNat = 2 ^ 20
      ∧ (F32.floor (F32.div 0x4B9FFFF6#32 Config.ksFmin) + 2).toNat = 2 ^ 20 + 1 := by decide +kernel

theorem witness_CbResetResult : u32 0x00100000#32 ≤ 2 ^ 20 ∧ 2 ^ 20 < u32 0x00100001#32 := by decide

theorem witness_CbPushResult : (withRing.cb[0]).alloc = true ∧ (withRing.cb[0]).length = 4 := by decide

theorem witness_CbWratResult : (withRing.cb[15]).alloc = false ∧ (withRing.cb[0]).alloc = true := by decide

theorem witness_CbAddatResult :
    (withRing.cb[0]).alloc = true ∧ (1 : Int) % (withRing.cb[0]).length ≠ (0 : Int) % (withRing.cb[0]).length := by decide

theorem witness_CbRdiResult :
    (withRing.cb[0]).alloc = true ∧ (withRing.cb[0]).good
      ∧ (3#32).toInt = (0xFFFFFFFF#32 : Word).toInt + 1 * (withRing.cb[0]).length := by
  refine ⟨by decide, ⟨by decide, by decide, by decide, by decide, by decide⟩, by decide⟩

/-- Both zeros and the largest finite delay. -/
theorem witness_CbRdfResult :
    (withRing.cb[0]).alloc = true ∧ (F32.isFinite 0#32 = true ∧ F32.le F32.zero 0#32 = true)
      ∧ (F32.isFinite 0x80000000#32 = true ∧ F32.le F32.zero 0x80000000#32 = true)
      ∧ F32.isFinite 0x7F7FFFFF#32 = true ∧ F32.le F32.zero 0x7F7FFFFF#32 = true := by decide

theorem witness_CbRdfAtInteger :
    (withRing.cb[0]).alloc = true ∧ (2 ^ 24 - 1 : Nat) < 2 ^ 24
      ∧ F32.isFinite ((withRing.cb[0]).readAt ((2 ^ 24 - 1 : Nat) : Int)) = true
      ∧ (withRing.cb[0]).readAt ((2 ^ 24 - 1 : Nat) : Int) ≠ 0x80000000#32
      ∧ F32.isFinite (F32.sub ((withRing.cb[0]).readAt (((2 ^ 24 - 1 : Nat) : Int) + 1))
          ((withRing.cb[0]).readAt ((2 ^ 24 - 1 : Nat) : Int))) = true := by decide +kernel

theorem witness_CbRefusals :
    (State.reset.cb[0]).alloc = false ∧ (withRing.cb[0]).alloc = true ∧ F32.isFinite 0x7F800000#32 = false
      ∧ F32.le F32.zero 0x80000001#32 = false := by decide

/-- 65536 samples are accepted, 65537 are not. -/
theorem witness_LutConfigResult :
    headerOk 0#32 0x477FFF00#32 0x3F800000#32 = true
      ∧ F32.toUnits 0x477FFF00#32 - F32.toUnits 0#32 = 65535 * F32.toUnits 0x3F800000#32
      ∧ 65535 * F32.toUnits 0x3F800000#32 < F32.toUnits 0x47800000#32 - F32.toUnits 0#32 := by decide +kernel

theorem witness_LutWriteResult :
    (State.reset.lut[5]).valid = false ∧ (withTable.lut[5]).valid = true ∧ (withTable.lut[5]).length ≤ u32 5#32
      ∧ u32 4#32 < (withTable.lut[5]).length := by decide

/-- In the domain, at its end, and below it. -/
theorem witness_LutEvalResult :
    (State.reset.lut[5]).valid = false ∧ (withTable.lut[5]).valid = true ∧ 2 ≤ (withTable.lut[5]).length
      ∧ (F32.isFinite 0x40200000#32 = true ∧ F32.isFinite (squares.quotient 0x40200000#32) = true)
      ∧ (F32.isFinite 0x40800000#32 = true ∧ F32.isFinite (squares.quotient 0x40800000#32) = true)
      ∧ F32.isFinite 0xBF800000#32 = true ∧ F32.isFinite (squares.quotient 0xBF800000#32) = true := by decide +kernel

/-- Lanes at both ends of the range and just outside them. -/
theorem witness_LutEvalvResult :
    (State.reset.lut[5]).valid = false ∧ (withTable.lut[5]).valid = true ∧ 2 ≤ (withTable.lut[5]).length
      ∧ F32.floor (squares.quotient 0#32) = 0 ∧ F32.floor (squares.quotient 0x407FFFFF#32) = 3
      ∧ F32.floor (squares.quotient 0x40800000#32) = 4 ∧ F32.floor (squares.quotient 0x80000001#32) = -1
      ∧ (F32.isFinite 0x407FFFFF#32 = true ∧ F32.isFinite (squares.quotient 0x407FFFFF#32) = true)
      ∧ (F32.isFinite 0x40800000#32 = true ∧ F32.isFinite (squares.quotient 0x40800000#32) = true)
      ∧ (F32.isFinite 0x80000001#32 = true ∧ F32.isFinite (squares.quotient 0x80000001#32) = true)
      ∧ (F32.isFinite 0x7F200000#32 = true ∧ F32.isFinite (wide.quotient 0x7F200000#32) = false)
      ∧ (even.length = tableLength even.minX even.maxX even.interval ∧ even.outside 0x80000001#32 = true
          ∧ F32.floor (even.quotient 0x80000001#32) = 0)
      ∧ (uneven.length = tableLength uneven.minX uneven.maxX uneven.interval ∧ uneven.outside 0x4C000003#32 = true
          ∧ F32.floor (uneven.quotient 0x4C000003#32) = 2) := by decide +kernel

theorem witness_LutWsRefusals :
    (withTable.lut[5]).valid = true ∧ F32.isFinite 0x7FC00000#32 = false ∧ curveGood State.reset.ws[0]
      ∧ Mem.read .curve State.reset.ws[0] 4095 = none :=
  ⟨by decide, by decide, ⟨by decide, by decide⟩, by decide⟩

theorem witness_BqProcResult :
    (withSections.getBq 0 2).coefHeld = true ∧ (withSections.getBq 0 2).memHeld = true := by decide

/-- The two branches of the gate, for the section that BQ-9 leaves. -/
theorem witness_BqSetResult :
    withRate.sys.rateSet = true ∧ F32.isFinite 0x46EA6000#32 = true ∧ F32.lt F32.zero 0x46EA6000#32 = true
      ∧ (withRate.getBq 0 2).kind ≠ some .bwlp2
      ∧ let q := (withRate.getBq 0 2).designed params .bwlp2 0x46B22000#32 0x473B8000#32
        let fcl := F32.min 0x46EA6000#32 (F32.mul Config.nyqGuard (F32.div 0x473B8000#32 F32.two))
        q.kind = some .bwlp2 ∧ F32.eq q.lastRate 0x473B8000#32 = true
          ∧ F32.le (F32.abs (F32.sub fcl q.lastFc)) params.recompTol = true := by
  refine ⟨by decide, by decide, by decide, by decide, rfl, by decide, ?_⟩
  have h : F32.abs (F32.sub (F32.min 0x46EA6000#32 (F32.mul Config.nyqGuard (F32.div 0x473B8000#32 F32.two)))
      0x46B22000#32) = F32.zero := by decide +kernel
  show F32.le (F32.abs (F32.sub _ 0x46B22000#32)) _ = true
  rw [h]
  exact (keepNonNegative_spec _).2

/-- A section of no design, and one of the same design and cutoff last applied at another rate. -/
theorem witness_BqCutoffClamped :
    let q := (withRate.getBq 0 2).designed fixture .bwlp2 0x46B22000#32 0x472C4400#32
    (∃ t, exec (designCommand .bwlp2 0 2 0x46EA6000#32) withRate = .next t) ∧ (withRate.getBq 0 2).kind ≠ some .bwlp2
      ∧ F32.isPositive withRate.sys.sampleRate = true
      ∧ q.kind = some .bwlp2 ∧ F32.eq q.lastRate withRate.sys.sampleRate = false :=
  ⟨(next_of_answers (ws := [0#32]) (by decide)).imp fun _ h => h.1, by decide, by decide, by decide, by decide⟩

theorem witness_BqProc4Result :
    ((withSections.getBq 0 2).coefHeld = true ∧ (withSections.getBq 0 2).memHeld = true)
      ∧ (withSections.getBq 0 3).coefHeld = true ∧ (withSections.getBq 0 3).memHeld = true := by decide

theorem witness_BqProcvResult :
    let ch : Fin 4 → Channel := fun l => ⟨l.val, by have := l.isLt; simp only [Config.nchMax]; omega⟩
    (∀ l, (ch l).val = 4 * (0 : LaneGroup).val + l.val)
      ∧ ∀ l, (withLanes.getBq (ch l) 2).coefHeld = true ∧ (withLanes.getBq (ch l) 2).memHeld = true := by decide

theorem witness_BqMemoryPersists :
    (∃ t, exec (.bqClear 0 2) withSections = .next t) ∧ ∃ t, exec .sysInit withRate = .next t ∧ t.response = [0#32] :=
  ⟨⟨_, rfl⟩, next_of_answers (by decide +kernel)⟩

theorem witness_CmpSetTimesResult :
    withCmp.sys.rateSet = true ∧ F32.isPositive 0x00000001#32 = true ∧ F32.isPositive 0x7F7FFFFF#32 = true := by decide

theorem witness_CmpSetCurveResult : F32.isFinite 0xC0C00000#32 = true ∧ F32.isPositive 0x41280000#32 = true := by decide

theorem witness_CmpProcResult :
    ((withCmp.cmp[0]).timesHeld = true ∧ (withCmp.cmp[0]).curveHeld = true ∧ (withCmp.cmp[0]).envHeld = true)
      ∧ (withCmp.cmp[0]).divCount = 0 ∧ ({ compressor with divCount := 3 } : Compressor).divCount ≠ 0 := by decide

theorem witness_CmpEnvelopeFloor :
    (∃ t, exec (.cmpProc 0 0#32) withCmp = .next t) ∧ (withCmp.cmp[0]).divCount = 0 :=
  ⟨⟨_, execCmpProc_eq_next.2 ⟨by decide, rfl⟩⟩, by decide⟩

theorem witness_BqCmpRefusals :
    (State.reset.getBq 0 2).coefHeld = false ∧ (State.reset.getBq 0 3).memHeld = false
      ∧ (3 : Channel).val / 4 = (0 : LaneGroup).val ∧ State.reset.sys.rateSet = false
      ∧ (withRate.sys.rateSet = true ∧ F32.isPositive 0x80000000#32 = false) ∧ F32.isFinite 0x7F800000#32 = false
      ∧ (State.reset.cmp[0]).timesHeld = false := by decide

theorem witness_WsWriteResult : u32 4095#32 < 4096 ∧ 4096 ≤ u32 4096#32 := by decide

/-- A curve that holds 0 in the cells `a`, `a + 1`, .. -/
def flat (a : Nat) : Nat → Mem
  | 0 => []
  | n + 1 => (a, 0#32) :: flat (a + 1) n

theorem flat_length (a n : Nat) : (flat a n).length = n := by
  induction n generalizing a with
  | zero => rfl
  | succ n ih => simp [flat, ih]

theorem flat_good (a n : Nat) :
    Mem.risingFrom a (flat a n) = true ∧ (∀ e ∈ flat a n, e.1 < a + n ∧ e.2 = 0#32) := by
  induction n generalizing a with
  | zero => exact ⟨rfl, by simp [flat]⟩
  | succ n ih =>
    refine ⟨by simp [flat, Mem.risingFrom, (ih (a + 1)).1], fun e he => ?_⟩
    rcases List.mem_cons.1 he with rfl | he
    · exact ⟨by show a < _; omega, rfl⟩
    · have := (ih (a + 1)).2 e he; exact ⟨by omega, this.2⟩

theorem curveGood_flat : curveGood (flat 0 4096) := by
  obtain ⟨h1, h2⟩ := flat_good 0 4096
  refine ⟨?_, ?_⟩
  · simp only [Mem.wf, Bool.and_eq_true, List.all_eq_true, decide_eq_true_eq]
    exact ⟨h1, fun e _ => by simp [Space.unlisted]⟩
  · simp only [Mem.below, List.all_eq_true, decide_eq_true_eq]
    intro e he; have := (h2 e he).1; simpa [Config.wsLen] using this

theorem witness_WsEvalResult :
    let s := State.reset.setWs 0 (flat 0 4096)
    curveGood s.ws[(0 : CurveId)] ∧ (∀ i, i < 4096 → Mem.read .curve s.ws[(0 : CurveId)] i ≠ none)
      ∧ F32.isFinite 0xBF99999A#32 = true
      ∧ F32.isFinite (F32.mul (F32.sub 0xBF99999A#32 Config.wsMin) Config.wsScale) = true := by
  intro s
  have hs : s.ws[(0 : CurveId)] = flat 0 4096 := by rw [State.ws_setWs, if_pos rfl]
  rw [hs]
  exact ⟨curveGood_flat, (curveLoaded_iff curveGood_flat).1 (by simp [curveLoaded, flat_length, Config.wsLen]), by decide,
    by decide +kernel⟩

/-- A table of steps of one half. -/
def halves : Lut := { squares with interval := 0x3F000000#32, length := 9 }

/-- The same table, `maxX` between two samples. -/
def short : Lut := { wide with maxX := 0x7F333333#32 }

/-- In the domain, between `maxX` and the last sample, above the table and below it, each with an overflow; and far above
a curve. -/
theorem witness_OverflowedQuotients :
    (wide.good ∧ wide.valid = true)
      ∧ (F32.isFinite 0x7F200000#32 = true ∧ F32.isFinite (wide.quotient 0x7F200000#32) = false
          ∧ F32.le wide.minX 0x7F200000#32 = true ∧ F32.lt 0x7F200000#32 wide.maxX = true)
      ∧ (short.length = tableLength short.minX short.maxX short.interval
          ∧ F32.isFinite 0x7F380000#32 = true ∧ F32.isFinite (short.quotient 0x7F380000#32) = false
          ∧ F32.lt 0x7F380000#32 short.maxX = false
          ∧ short.offset 0x7F380000#32 / F32.toUnits short.interval = (short.length : Int) - 2)
      ∧ (F32.isFinite 0x7F7FFFFF#32 = true ∧ F32.isFinite (wide.quotient 0x7F7FFFFF#32) = false
          ∧ F32.lt 0x7F7FFFFF#32 wide.maxX = false
          ∧ (wide.length : Int) - 2 < wide.offset 0x7F7FFFFF#32 / F32.toUnits wide.interval)
      ∧ (halves.good ∧ F32.isFinite 0xFF7FFFFF#32 = true ∧ F32.isFinite (halves.quotient 0xFF7FFFFF#32) = false)
      ∧ (curveGood (flat 0 4096) ∧ ∀ i, i < 4096 → Mem.read .curve (flat 0 4096) i ≠ none)
      ∧ F32.isFinite (wsQuotient 0x7F7FFFFF#32) = false :=
  ⟨⟨⟨by decide, by decide, fun _ => ⟨by decide, by decide +kernel, by decide, by decide⟩⟩, rfl⟩, by decide +kernel,
    by decide +kernel, by decide +kernel,
    ⟨⟨by decide, by decide, fun _ => ⟨by decide, by decide +kernel, by decide, by decide⟩⟩, by decide, by decide +kernel⟩,
    ⟨curveGood_flat, (curveLoaded_iff curveGood_flat).1 (by simp [curveLoaded, flat_length, Config.wsLen])⟩,
    by decide +kernel⟩

theorem witness_SysSetRateResult : F32.isPositive 0x00000001#32 = true ∧ F32.isPositive 0x473B8000#32 = true := by decide

theorem witness_SysSetRateIdempotent : ∃ t, exec (.sysSetRate 0x473B8000#32) State.reset = .next t :=
  ⟨_, execSysSetRate_eq_next.2 ⟨by decide, rfl⟩⟩

/-- A block on which every channel can take part in a `SYS.STEP`, whatever the open functions are bound to: rings of two
cells, the fewest that can, but `2^k` on channel 15; table 4 and every curve full. -/
def readyWith (k : Nat) : State :=
  { State.reset with
    sys := ⟨0x473B8000#32, true, true, 0, ⟨0#32, 0#32⟩⟩
    lut := (State.reset.lut.set 1 pow2).set 4 squares
    ws := Vector.replicate 16 (flat 0 4096)
    cb := (Vector.replicate 16 (Ring.cleared 1)).set 15 (Ring.cleared k)
    bq := Vector.replicate 16 (Vector.replicate 4 identity)
    cmp := Vector.replicate 16 compressor }

def allReady : State := readyWith 1

theorem readyWith_pow2 (k : Nat) : (readyWith k).lut[(1 : TableId)] = pow2 := rfl
theorem readyWith_spread (k : Nat) : (readyWith k).lut[(4 : TableId)] = squares := rfl
theorem readyWith_ws (k : Nat) (u : CurveId) : (readyWith k).ws[u] = flat 0 4096 := by simp [readyWith]
theorem readyWith_bq (k : Nat) (c : Channel) (j : Slot) : (readyWith k).getBq c j = identity := by
  simp [readyWith, State.getBq]
theorem readyWith_cmp (k : Nat) (c : Channel) : (readyWith k).cmp[c] = compressor := by simp [readyWith]
theorem readyWith_ks (k : Nat) (c : Channel) : (readyWith k).ks[c] = Voice.reset := State.reset_ks c
/-- Each ring is a cleared one, of a capacity `SYS.STEP` can use. -/
theorem readyWith_cb {k : Nat} (h1 : 1 ≤ k) (h2 : k ≤ 20) (c : Channel) :
    ∃ j, 1 ≤ j ∧ j ≤ 20 ∧ (readyWith k).cb[c] = Ring.cleared j := by
  by_cases h : c.val = 15
  · exact ⟨k, h1, h2, by simp [readyWith, h]⟩
  · exact ⟨1, by decide, by decide, by simp [readyWith, Ne.symm h]⟩

theorem good_cleared {k : Nat} (h1 : 1 ≤ k) (h2 : k ≤ 20) :
    (Ring.cleared k).alloc = true ∧ (Ring.cleared k).good ∧ 2 ≤ (Ring.cleared k).length :=
  ⟨rfl, ⟨h2, Nat.two_pow_pos k, rfl, rfl, rfl⟩, Nat.pow_le_pow_right (n := 2) (by decide) h1⟩

theorem pow2_at_silence (e : FrameEnv) (hp : e.pow2 = pow2) (hc : e.controls = quiet) :
    ∃ y, e.pow2.evalScalar (e.pitch silence) = .next y ∧ F32.isNaN y = false := by
  have h : e.pitch silence = 0#32 := by unfold FrameEnv.pitch; rw [hc]; decide
  rw [h, hp, Lut.evalScalar_eq (by decide) (by decide)]
  exact ⟨_, rfl, by decide⟩

theorem bindings_readyWith (k : Nat) : BindingsLoaded (readyWith k) := by
  refine ⟨fun _ => by rw [readyWith_spread]; decide, fun u _ => ?_⟩
  rw [readyWith_ws]
  exact ⟨curveGood_flat, (curveLoaded_iff curveGood_flat).1 (by simp [curveLoaded, flat_length, Config.wsLen])⟩

theorem stepReady {k : Nat} (h1 : 1 ≤ k) (h2 : k ≤ 20) (c : Channel) : StepReady (readyWith k) quiet c silence := by
  obtain ⟨j, j1, j2, hj⟩ := readyWith_cb h1 h2 c
  obtain ⟨r1, r2, r3⟩ := good_cleared j1 j2
  unfold StepReady
  rw [hj, readyWith_bq, readyWith_bq, readyWith_cmp, readyWith_ks]
  exact ⟨bindings_readyWith k, rfl, pow2_at_silence (frameEnv params quiet (readyWith k)) rfl rfl, r1, r2, r3, ⟨rfl, rfl⟩,
    ⟨rfl, rfl⟩, ⟨rfl, rfl, rfl⟩, by decide⟩

/-- Sixteen channels, the most there are. -/
theorem witness_SysStepCompletes :
    (List.replicate 16 silence).length ≤ 16 ∧ allReady.sys.inited = true
      ∧ F32.isPositive allReady.sys.sampleRate = true
      ∧ stepOperandsFinite quiet (List.replicate 16 silence) = true
      ∧ ∀ (c : Channel) (h : c.val < (List.replicate 16 silence).length),
          StepReady allReady quiet c (List.replicate 16 silence)[c.val] := by
  refine ⟨by decide, rfl, by decide, by decide, fun c h => ?_⟩
  rw [List.getElem_replicate]
  exact stepReady (by decide) (by decide) c

/-- A `SYS.STEP` on that block goes on: the frame of each channel does. -/
theorem step_readyWith {k : Nat} (h1 : 1 ≤ k) (h2 : k ≤ 20) (n : Nat) (h : n ≤ 16) :
    ∃ t, exec (.sysStep quiet (List.replicate n silence)) (readyWith k) = .next t := by
  obtain ⟨u, hu⟩ : ∃ u, stepChannels (frameEnv params quiet (readyWith k)) (readyWith k).draws
      (activeChannels (List.replicate n silence)) (readyWith k) = .next u := by
    refine stepChannels_completes (activeChannels_nodup _) fun cv hcv => ?_
    obtain ⟨c, v⟩ := cv
    obtain ⟨hc, rfl⟩ := eq_of_mem_activeChannels hcv
    rw [List.getElem_replicate]
    obtain ⟨r0, r1, ⟨y, r2, r3⟩, r4, r5, r6, r7, r8, r9, r10⟩ := stepReady h1 h2 c
    exact FrameEnv.frame_completes (e := frameEnv params quiet (readyWith k)) rfl r0
      (by decide : F32.isFinite quiet.utune = true) (by decide : F32.isPositive 0x473B8000#32 = true) r1 r2 r3 r4 r5.1 r6
      r7 r8 r9 r10
  have hop : stepOperandsFinite quiet (List.replicate n silence) = true := by
    simp only [stepOperandsFinite, Bool.and_eq_true]
    refine ⟨by decide, ?_⟩
    rw [List.all_eq_true]
    intro v hv
    rw [List.eq_of_mem_replicate hv]; decide
  exact ⟨_, execSysStep_eq_next.2
    (.inr ⟨by simp only [List.length_replicate, Config.nchMax]; exact h, rfl, hop, u, hu, rfl⟩)⟩

theorem step_allReady (n : Nat) (h : n ≤ 16) :
    ∃ t, exec (.sysStep quiet (List.replicate n silence)) allReady = .next t := step_readyWith (by decide) (by decide) n h

theorem witness_SysStepVoice :
    (∃ t, exec (.sysStep quiet (List.replicate 16 silence)) allReady = .next t)
      ∧ (15 : Channel).val < (List.replicate 16 silence).length := ⟨step_allReady 16 (by decide), by decide⟩

theorem witness_SysStepFrame :
    16 < (List.replicate 17 silence).length
      ∧ (∃ t, exec (.sysStep quiet (List.replicate 1 silence)) allReady = .next t)
      ∧ (List.replicate 1 silence).length ≤ (1 : Channel).val := ⟨by decide, step_allReady 1 (by decide), by decide⟩

/-- On a ring of two cells the one older sample that moves is at offset 0. -/
theorem witness_SysStepPushesOne :
    (∃ t, exec (.sysStep quiet (List.replicate 1 silence)) allReady = .next t)
      ∧ (0 : Channel).val < (List.replicate 1 silence).length
      ∧ (0 : Int) ≤ ((allReady.cb[(0 : Channel)]).length : Int) - 2 := ⟨step_allReady 1 (by decide), by decide, by decide⟩

/-- Two blocks that differ in channel 15, stepped on channels 0 and 1 and on all sixteen. -/
theorem witness_ChannelIndependence :
    let s := readyWith 3
    (allReady.sys.sampleRate = s.sys.sampleRate ∧ allReady.lut = s.lut ∧ allReady.ws = s.ws ∧ allReady.draws = s.draws)
      ∧ allReady.part 0 = s.part 0 ∧ allReady.part 1 = s.part 1 ∧ allReady.part 15 ≠ s.part 15
      ∧ ((∃ t, exec (.sysStep quiet (List.replicate 2 silence)) allReady = .next t)
        ∧ ∃ t, exec (.sysStep quiet (List.replicate 2 silence)) s = .next t)
      ∧ (∃ t, exec (.sysStep quiet (List.replicate 16 silence)) allReady = .next t)
        ∧ ∃ t, exec (.sysStep quiet (List.replicate 16 silence)) s = .next t :=
  ⟨⟨rfl, rfl, rfl, rfl⟩, by decide, by decide, by decide,
    ⟨step_allReady 2 (by decide), step_readyWith (by decide) (by decide) 2 (by decide)⟩,
    step_allReady 16 (by decide), step_readyWith (by decide) (by decide) 16 (by decide)⟩

theorem witness_SysRefusals :
    F32.isPositive 0#32 = false ∧ F32.isPositive 0xBF800000#32 = false ∧ State.reset.sys.rateSet = false
      ∧ State.reset.sys.inited = false ∧ (allReady.sys.inited = true ∧ stepOperandsFinite quiet [⟨0x7F800000#32, 0#32⟩] = false)
      ∧ stepOperandsFinite quiet [silence] = true ∧ (State.reset.lut[(1 : TableId)]).valid = false
      ∧ ((boundEnv quiet).par.ksUtuneBound = true ∧ (boundEnv quiet).spread.valid = false)
      ∧ (boundEnv quiet).par.ksSatCurve = some 15 ∧ curveGood (boundEnv quiet).curves[(15 : CurveId)]
      ∧ Mem.read .curve (boundEnv quiet).curves[(15 : CurveId)] 4095 = none := by
  refine ⟨?_, ?_, ?_, ?_, ?_, ?_, ?_, ?_, ?_, ⟨?_, ?_⟩, ?_⟩ <;> decide

theorem witness_CmpDividerCounts :
    (∃ t, exec (.cmpProc 0 0#32) withCmp = .next t)
      ∧ (∃ t, exec (.sysStep quiet (List.replicate 16 silence)) allReady = .next t)
      ∧ (∃ t, exec .sysInit withRate = .next t ∧ t.response = [0#32])
      ∧ ∃ t, exec .sysStatus withCmp = .next t :=
  ⟨⟨_, execCmpProc_eq_next.2 ⟨by decide, rfl⟩⟩, step_allReady 16 (by decide), next_of_answers (by decide +kernel), ⟨_, rfl⟩⟩

theorem witness_MemoryWriters :
    (∃ t, exec (.lutWrite 5 2#32 0x3F800000#32) withTable = .next t)
      ∧ (∃ t, exec (.wsWrite 0 4095#32 0#32) State.reset = .next t)
      ∧ ∃ t, exec (.cbPush 0 0x40A00000#32) withRing = .next t := ⟨⟨_, rfl⟩, ⟨_, rfl⟩, ⟨_, rfl⟩⟩

/-- A block with a table, a curve and a ring, none of them empty. -/
theorem witness_MemoryGoodKept :
    let s := issued ((withRing.setLut 5 squares).setWs 0 [(0, 0x7FC00000#32)]) [0x21000000#32, 0x3F800000#32]
    s.MemoryGood ∧ ∃ t, step s = .next t := by
  refine ⟨⟨fun l => ?_, fun k => ?_, fun c => ?_⟩, ⟨_, rfl⟩⟩
  · show Lut.good ((withRing.setLut 5 squares).lut[l])
    rw [State.lut_setLut]
    split_ifs
    · exact ⟨by decide, by decide, fun _ => ⟨by decide, by decide +kernel, by decide, by decide⟩⟩
    · show Lut.good (State.reset.lut[l])
      rw [State.reset_lut]; exact ⟨rfl, rfl, fun h => by simp [Lut.reset] at h⟩
  · show curveGood ((State.setWs _ 0 [(0, 0x7FC00000#32)]).ws[k])
    rw [State.ws_setWs]
    split_ifs
    · exact ⟨by decide, by decide⟩
    · show curveGood (State.reset.ws[k])
      rw [State.reset_ws]; exact ⟨rfl, rfl⟩
  · show Ring.good (withRing.cb[c])
    unfold withRing
    rw [State.cb_setCb]
    split_ifs
    · exact ⟨by decide, by decide, by decide, by decide, by decide⟩
    · rw [State.reset_cb]; exact ⟨by decide, by decide, rfl, rfl, rfl⟩

/-- An initialised block on which nothing is vacuous. -/
theorem witness_RegistersGoodKept :
    let s := issued allReady [0#32]
    s.UnitsGood ∧ s.RateGood ∧ s.InitGood ∧ s.SysGood ∧ ∃ t, step s = .next t := by
  have hb : ∀ (c : Channel) (j : Slot), (issued allReady [0#32]).getBq c j = identity := readyWith_bq 1
  have hm : ∀ c : Channel, (issued allReady [0#32]).cmp[c] = compressor := readyWith_cmp 1
  have hr : ∀ c : Channel, ((issued allReady [0#32]).cb[c]).alloc = true := fun c => by
    obtain ⟨j, -, -, h⟩ := readyWith_cb (k := 1) (by decide) (by decide) c
    show ((readyWith 1).cb[c]).alloc = true
    rw [h]; rfl
  refine ⟨⟨fun c j => ?_, fun c => ?_⟩, fun _ => ⟨by decide, fun c => ?_⟩, fun _ => ⟨rfl, fun c => ⟨?_, ?_, fun j => ?_⟩⟩,
    by refine ⟨by decide, by decide, by decide⟩, ⟨_, rfl⟩⟩
  · rw [hb]; exact fun _ => rfl
  · rw [hm]; exact ⟨cmpN_pos, fun _ => ⟨by decide, by decide⟩, fun _ => ⟨by decide, by decide⟩, fun _ => ⟨rfl, .inl rfl⟩⟩
  · rw [hm, hb, hb]; exact ⟨rfl, rfl, rfl, rfl, rfl⟩
  · exact hr c
  · rw [hm]; rfl
  · rw [hb]; rfl

end Sys2Proof.Tests
end

/-! The scope of a step: which command it runs, and what is left in the host's queue (R17, R80, R89; logs 1, 4). -/

namespace Sys2Proof.Machine

@[simp] theorem halted_setPending (s : State) (es : List HostEvent) : halted (s.setPending es) = halted s := rfl

@[simp] theorem State.setPending_setPending (s : State) (es fs : List HostEvent) :
    (s.setPending es).setPending fs = s.setPending fs := rfl

/-- A block that is not halted hands the next word sequence to the decoder; the empty sequence, which `serve` drops
before the decoder, the decoder would find incomplete. -/
theorem step_eq_serveDecoded {s : State} {ws : List Word} {es : List HostEvent}
    (hp : s.pending = .command ws :: es) (hh : halted s = false) : step s = serveDecoded ws (s.setPending es) := by
  simp only [step, serveNext, hp]
  cases ws with
  | nil => rfl
  | cons w ws => simp only [serve, halted_setPending, hh, Bool.false_eq_true, if_false]

theorem serveDecoded_of_command {ws rest : List Word} {i : Instr} (hd : decode ws = .command i rest) (s : State) :
    serveDecoded ws s = exec i (s.requeue rest) := by
  simp only [serveDecoded, hd]

/-- Settles O7: the decoder's command runs on the queue without its event, and `State.requeue` puts back the words
that are left over. -/
theorem stepRunsDecoded : Obligations.StepRunsDecoded := by
  intro s ws rest es i hp hh hd
  calc step s = serveDecoded ws (s.setPending es) := step_eq_serveDecoded hp hh
    _ = exec i ((s.setPending es).requeue rest) := serveDecoded_of_command hd _
    _ = exec i (s.setPending (if rest = [] then es else .command rest :: es)) := by
      rw [State.requeue_eq, State.setPending_setPending, State.setPending_pending]

end Sys2Proof.Machine

/-! What one command can do to each unit (R60, R71, R74): a relation for each kind of unit that lists every change a
command may make to one of them, and one theorem, `exec_effect`, that every command stays within all of them. The
invariants and the persistence statements below are read off from these relations. -/

namespace Sys2Proof.Machine

/-! ### The changes of one unit -/

/-- What command `i` can make of the table `l` (R102, R104). -/
inductive LutStep : Instr → TableId → Lut → Lut → Prop
  | keep (i : Instr) (l : TableId) (x : Lut) : LutStep i l x x
  | config (l : TableId) (lo hi iv : Word) (x : Lut) (hok : headerOk (f32 lo) (f32 hi) (f32 iv) = true)
      (hlen : tableLength (f32 lo) (f32 hi) (f32 iv) ≤ Config.lutLmax) :
      LutStep (.lutConfig l lo hi iv) l x
        ⟨true, f32 lo, f32 hi, f32 iv, tableLength (f32 lo) (f32 hi) (f32 iv), []⟩
  | write (l : TableId) (n v : Word) (x : Lut) (hn : u32 n < x.length) :
      LutStep (.lutWrite l n v) l x { x with samples := Mem.write .table x.samples (u32 n) (f32 v) }

/-- What command `i` can make of the curve `k` (R202). -/
inductive CurveStep : Instr → CurveId → Mem → Mem → Prop
  | keep (i : Instr) (k : CurveId) (m : Mem) : CurveStep i k m m
  | write (k : CurveId) (n v : Word) (m : Mem) (hn : u32 n < Config.wsLen) :
      CurveStep (.wsWrite k n v) k m (Mem.write .curve m (u32 n) (f32 v))

/-- What command `i` can make of the ring of channel `c` (R124 to R130, R230, R238). -/
inductive RingStep : Instr → Channel → Ring → Ring → Prop
  | keep (i : Instr) (c : Channel) (r : Ring) : RingStep i c r r
  | reset (c : Channel) (n : Word) (r : Ring) (hk : npow2Log (u32 n) ≤ Config.cbKmax) :
      RingStep (.cbReset c n) c r (Ring.cleared (npow2Log (u32 n)))
  | push (c : Channel) (v : Word) (r : Ring) : RingStep (.cbPush c v) c r (r.push (f32 v))
  | write (c : Channel) (d v : Word) (r : Ring) : RingStep (.cbWrat c d v) c r (r.writeAt (i32 d) (f32 v))
  | add (c : Channel) (d v : Word) (r : Ring) : RingStep (.cbAddat c d v) c r (r.addAt (i32 d) (f32 v))
  | init (c : Channel) (k : Nat) (r : Ring) (hk : k ≤ Config.cbKmax) : RingStep .sysInit c r (Ring.cleared k)
  | voice (p : StepControls) (vs : List VoiceIn) (c : Channel) (y : Sample) (r : Ring) (hc : c.val < vs.length) :
      RingStep (.sysStep p vs) c r (r.push y)

/-- What command `i` can make of section `j` of channel `c` (R152 to R170, R228, R230, R233). -/
inductive BiquadStep : Instr → Channel → Slot → Biquad → Biquad → Prop
  | keep (i : Instr) (c : Channel) (j : Slot) (q : Biquad) : BiquadStep i c j q q
  | clear (c : Channel) (j : Slot) (q : Biquad) : BiquadStep (.bqClear c j) c j q q.clear
  | proc (c : Channel) (j : Slot) (x : Word) (q : Biquad) : BiquadStep (.bqProc c j x) c j q (q.advance (f32 x))
  | proc4 (c : Channel) (j : Slot) (x : Word) (y : Sample) (q : Biquad) (hj : 2 ≤ j.val) :
      BiquadStep (.bqProc4 c x) c j q (q.advance y)
  | procv (g : LaneGroup) (c : Channel) (j : Slot) (x0 x1 x2 x3 : Word) (y : Sample) (q : Biquad)
      (hc : c.val / 4 = g.val) : BiquadStep (.bqProcv g j x0 x1 x2 x3) c j q (q.advance y)
  | voice (p : StepControls) (vs : List VoiceIn) (c : Channel) (j : Slot) (y : Sample) (q : Biquad)
      (hc : c.val < vs.length) (hj : j.val < 2) : BiquadStep (.sysStep p vs) c j q (q.advance y)
  | design (k : Design) (c : Channel) (j : Slot) (fc : Word) (rate : Sample) (q : Biquad) :
      BiquadStep (designCommand k c j fc) c j q (q.setDesign params k (f32 fc) rate)
  | load (c : Channel) (j : Slot) (a0 a1 a2 b1 b2 c0 d0 : Word) (q : Biquad) :
      BiquadStep (.bqLoadc c j a0 a1 a2 b1 b2 c0 d0) c j q
        { q with
          a0 := f32 a0, a1 := f32 a1, a2 := f32 a2, b1 := f32 b1, b2 := f32 b2, c0 := f32 c0, d0 := f32 d0
          coefHeld := true, kind := none }
  | rate (r : Word) (c : Channel) (j : Slot) (q : Biquad) :
      BiquadStep (.sysSetRate r) c j q (q.setDesign params .bwhp2 params.ksDcFreq (f32 r))
  | init (c : Channel) (j : Slot) (q : Biquad) : BiquadStep .sysInit c j q q.clear

/-- What command `i` can make of the compressor of channel `c` (R184 to R186, R228, R230, R233). -/
inductive CompressorStep : Instr → Channel → Compressor → Compressor → Prop
  | keep (i : Instr) (c : Channel) (m : Compressor) : CompressorStep i c m m
  | times (c : Channel) (a r : Word) (m : Compressor) (ha : F32.isPositive (f32 a) = true)
      (hr : F32.isPositive (f32 r) = true) : CompressorStep (.cmpSetTimes c a r) c m (m.setTimes params (f32 a) (f32 r))
  | curve (c : Channel) (th ra : Word) (m : Compressor) (hth : F32.isFinite (f32 th) = true)
      (hra : F32.isPositive (f32 ra) = true) : CompressorStep (.cmpSetCurve c th ra) c m (m.setCurve (f32 th) (f32 ra))
  | proc (c : Channel) (x : Word) (m : Compressor) : CompressorStep (.cmpProc c x) c m (m.advance params (f32 x))
  | voice (p : StepControls) (vs : List VoiceIn) (c : Channel) (y : Sample) (m : Compressor) (hc : c.val < vs.length) :
      CompressorStep (.sysStep p vs) c m (m.advance params y)
  | rate (r : Word) (c : Channel) (m : Compressor) : CompressorStep (.sysSetRate r) c m (m.setRate params (f32 r))
  | init (c : Channel) (m : Compressor) : CompressorStep .sysInit c m m.init

/-- What command `i` can make of the system registers (R228, R230, R233, R262). -/
inductive SystemStep : Instr → System → System → Prop
  | keep (i : Instr) (y : System) : SystemStep i y y
  | fault (i : Instr) (f : Cause) (y : System) : SystemStep i y { y with fault := ⟨f.code, f.info⟩ }
  | rate (r : Word) (y : System) : SystemStep (.sysSetRate r) y { y with sampleRate := f32 r, rateSet := true }
  | init (y : System) : SystemStep .sysInit y { y with nch := 0, inited := true }
  | voices (p : StepControls) (vs : List VoiceIn) (y : System) (hn : vs.length ≤ Config.nchMax) :
      SystemStep (.sysStep p vs) y { y with nch := vs.length }

/-! ### The changes of the whole block -/

/-- Every unit of `t` is what command `i` can make of it in `s`. -/
structure Effect (i : Instr) (s t : State) : Prop where
  sys : SystemStep i s.sys t.sys
  lut : ∀ l : TableId, LutStep i l s.lut[l] t.lut[l]
  ws : ∀ k : CurveId, CurveStep i k s.ws[k] t.ws[k]
  cb : ∀ c : Channel, RingStep i c s.cb[c] t.cb[c]
  bq : ∀ (c : Channel) (j : Slot), BiquadStep i c j (s.getBq c j) (t.getBq c j)
  cmp : ∀ c : Channel, CompressorStep i c s.cmp[c] t.cmp[c]

section effects

variable {i : Instr} {s t : State}

theorem Effect.refl (i : Instr) (s : State) : Effect i s s :=
  ⟨.keep _ _, fun _ => .keep _ _ _, fun _ => .keep _ _ _, fun _ => .keep _ _ _, fun _ _ => .keep _ _ _ _,
    fun _ => .keep _ _ _⟩

theorem Effect.respond (h : Effect i s t) (ws : List Word) : Effect i s (t.respond ws) :=
  ⟨h.sys, h.lut, h.ws, h.cb, h.bq, h.cmp⟩

/-- A fault (R262). -/
theorem Effect.raise (i : Instr) (s : State) (f : Cause) : Effect i s ((s.latch f.code f.info).respond [f.code]) :=
  { (Effect.refl i s) with sys := .fault i f s.sys }

theorem Effect.setLut (h : Effect i s t) {l : TableId} {x : Lut} (hx : LutStep i l s.lut[l] x) :
    Effect i s (t.setLut l x) := by
  refine { h with lut := fun u => ?_ }
  rw [State.lut_setLut]
  split_ifs with hu
  · subst hu; exact hx
  · exact h.lut u

theorem Effect.setWs (h : Effect i s t) {k : CurveId} {m : Mem} (hm : CurveStep i k s.ws[k] m) :
    Effect i s (t.setWs k m) := by
  refine { h with ws := fun u => ?_ }
  rw [State.ws_setWs]
  split_ifs with hu
  · subst hu; exact hm
  · exact h.ws u

theorem Effect.setCb (h : Effect i s t) {c : Channel} {r : Ring} (hr : RingStep i c s.cb[c] r) :
    Effect i s (t.setCb c r) := by
  refine { h with cb := fun u => ?_ }
  rw [State.cb_setCb]
  split_ifs with hu
  · subst hu; exact hr
  · exact h.cb u

theorem Effect.setBq (h : Effect i s t) {c : Channel} {j : Slot} {q : Biquad}
    (hq : BiquadStep i c j (s.getBq c j) q) : Effect i s (t.setBq c j q) := by
  refine { h with bq := fun u k => ?_ }
  rw [State.getBq_setBq]
  split_ifs with hu
  · obtain ⟨rfl, rfl⟩ := hu; exact hq
  · exact h.bq u k

theorem Effect.setCmp (h : Effect i s t) {c : Channel} {m : Compressor} (hm : CompressorStep i c s.cmp[c] m) :
    Effect i s (t.setCmp c m) := by
  refine { h with cmp := fun u => ?_ }
  rw [State.cmp_setCmp]
  split_ifs with hu
  · subst hu; exact hm
  · exact h.cmp u

end effects

/-! ### The commands on every channel: `SYS.SETRATE`, `SYS.INIT`, `SYS.STEP` -/

theorem State.cmp_setRate (p : Params) (rate : Sample) (s : State) (c : Channel) :
    (setRate p rate s).cmp[c] = (s.cmp[c]).setRate p rate := by
  simp [setRate]

/-- Slots 0 and 1 are the DC-blockers (R228). -/
theorem State.getBq_setRate (p : Params) (rate : Sample) (s : State) (c : Channel) (j : Slot) :
    (setRate p rate s).getBq c j
      = if j = 0 ∨ j = 1 then (s.getBq c j).setDesign p .bwhp2 p.ksDcFreq rate else s.getBq c j := by
  fin_cases j <;> simp [setRate, State.getBq, setRateSections]

theorem State.cb_initAll (p : Params) (k : Nat) (s : State) (c : Channel) :
    (initAll p k s).cb[c] = Ring.cleared k := by
  simp [initAll]

theorem State.getBq_initAll (p : Params) (k : Nat) (s : State) (c : Channel) (j : Slot) :
    (initAll p k s).getBq c j = (s.getBq c j).clear := by
  simp [initAll, State.getBq]

theorem State.cmp_initAll (p : Params) (k : Nat) (s : State) (c : Channel) :
    (initAll p k s).cmp[c] = (s.cmp[c]).init := by
  simp [initAll]

theorem Effect.setRate (r : Word) (s : State) : Effect (.sysSetRate r) s (setRate params (f32 r) s) := by
  refine { Effect.refl (.sysSetRate r) s with sys := .rate r _, bq := fun c j => ?_, cmp := fun c => ?_ }
  · rw [State.getBq_setRate]
    split_ifs
    · exact .rate r c j _
    · exact .keep _ _ _ _
  · rw [State.cmp_setRate]; exact .rate r c _

theorem Effect.initAll {k : Nat} (hk : k ≤ Config.cbKmax) (s : State) : Effect .sysInit s (initAll params k s) := by
  refine { Effect.refl .sysInit s with sys := .init _, cb := fun c => ?_, bq := fun c j => ?_, cmp := fun c => ?_ }
  · rw [State.cb_initAll]; exact .init c k _ hk
  · rw [State.getBq_initAll]; exact .init c j _
  · rw [State.cmp_initAll]; exact .init c _

/-- Of a channel's part a frame pushes one sample and runs both sections and the compressor once (R236 to R240). -/
theorem FrameEnv.frame_units {e : FrameEnv} {v : VoiceIn} {u1 u2 : Sample} {ch ch' : ChannelPart}
    (h : e.frame v u1 u2 ch = .next ch') :
    (∃ y, ch'.ring = ch.ring.push y) ∧ (∃ y, ch'.bqIn = ch.bqIn.advance y) ∧ (∃ y, ch'.bqOut = ch.bqOut.advance y)
      ∧ ∃ y, ch'.cmp = ch.cmp.advance e.par y := by
  obtain ⟨_, _, _, _, -, -, -, -, -, -, hcmp, hring, -, -, hin, hout, -⟩ := FrameEnv.frame_eq_next.1 h
  exact ⟨⟨_, hring⟩, ⟨_, hin⟩, ⟨_, hout⟩, ⟨_, hcmp⟩⟩

/-- What a `SYS.STEP` that does not fault leaves as it was (R233): all but the channel count and the active channels'
parts. -/
theorem execSysStep_frame {s t : State} {p : StepControls} {vs : List VoiceIn} (hl : vs.length ≤ Config.nchMax)
    (h : execSysStep p vs s = .next t) :
    t.sys = { s.sys with nch := vs.length } ∧ t.lut = s.lut ∧ t.ws = s.ws
      ∧ (∀ (c : Channel) (j : Slot), 2 ≤ j.val → t.getBq c j = s.getBq c j)
      ∧ ∀ c : Channel, vs.length ≤ c.val → t.part c = s.part c := by
  rcases execSysStep_eq_next.1 h with ⟨hgt, -⟩ | ⟨-, -, -, u, hu, rfl⟩
  · omega
  · obtain ⟨-, hidle, hsys, hlut, hws, hbq, -⟩ := stepChannels_eq_next (activeChannels_nodup vs) hu
    refine ⟨?_, hlut, hws, hbq, fun c hc => hidle c fun hm => ?_⟩
    · show { u.sys with nch := vs.length } = _
      rw [hsys]
    · have := mem_activeChannels_fst.1 hm; omega

theorem Effect.sysStep {s t : State} {p : StepControls} {vs : List VoiceIn} (h : execSysStep p vs s = .next t) :
    Effect (.sysStep p vs) s t := by
  rcases Nat.lt_or_ge Config.nchMax vs.length with hgt | hl
  · rcases execSysStep_eq_next.1 h with ⟨-, rfl⟩ | ⟨hle, -⟩
    · exact .raise _ _ (.illegalCommand 0x03000000#32)
    · omega
  obtain ⟨hsys, hlut, hws, hbq, hidle⟩ := execSysStep_frame hl h
  have hpart : ∀ c : Channel, RingStep (.sysStep p vs) c (s.part c).ring (t.part c).ring
      ∧ BiquadStep (.sysStep p vs) c 0 (s.part c).bqIn (t.part c).bqIn
      ∧ BiquadStep (.sysStep p vs) c 1 (s.part c).bqOut (t.part c).bqOut
      ∧ CompressorStep (.sysStep p vs) c (s.part c).cmp (t.part c).cmp := by
    intro c
    rcases Nat.lt_or_ge c.val vs.length with hc | hc
    · obtain ⟨⟨_, hring⟩, ⟨_, hin⟩, ⟨_, hout⟩, ⟨_, hcmp⟩⟩ := FrameEnv.frame_units (execSysStep_part hl h hc)
      rw [hring, hin, hout, hcmp]
      exact ⟨.voice p vs c _ _ hc, .voice p vs c 0 _ _ hc (by decide), .voice p vs c 1 _ _ hc (by decide),
        .voice p vs c _ _ hc⟩
    · rw [hidle c hc]
      exact ⟨.keep _ _ _, .keep _ _ _ _, .keep _ _ _ _, .keep _ _ _⟩
  refine ⟨?_, fun l => ?_, fun k => ?_, fun c => (hpart c).1, fun c j => ?_, fun c => (hpart c).2.2.2⟩
  · rw [hsys]; exact .voices p vs _ hl
  · rw [hlut]; exact .keep _ _ _
  · rw [hws]; exact .keep _ _ _
  · match j with
    | 0 => exact (hpart c).2.1
    | 1 => exact (hpart c).2.2.1
    | 2 => rw [hbq c 2 (by decide)]; exact .keep _ _ _ _
    | 3 => rw [hbq c 3 (by decide)]; exact .keep _ _ _ _

/-! ### Every command -/

theorem exec_designCommand (k : Design) (c : Channel) (j : Slot) (fc : Word) (s : State) :
    exec (designCommand k c j fc) s = bqSet k c j (f32 fc) s := by
  cases k <;> rfl

theorem Effect.design {k : Design} {c : Channel} {j : Slot} {fc : Word} {s t : State}
    (h : exec (designCommand k c j fc) s = .next t) : Effect (designCommand k c j fc) s t := by
  rw [exec_designCommand] at h
  obtain ⟨-, -, rfl⟩ := bqSet_eq_next.1 h
  exact ((Effect.refl _ s).setBq (.design k c j fc _ _)).respond _

theorem laneChannel_div (g : LaneGroup) (l : Fin Config.lanes) : (laneChannel g l).val / 4 = g.val := by
  have hl : l.val < 4 := l.isLt
  show (4 * g.val + l.val) / 4 = g.val
  omega

/-- A command that goes on changes each unit only as the relations above say. -/
theorem exec_effect {i : Instr} {s t : State} (h : exec i s = .next t) : Effect i s t := by
  cases i with
  | sysStatus => rw [execSysStatus_eq_next.1 h]; exact (Effect.refl _ s).respond _
  | sysSetRate r =>
    obtain ⟨-, rfl⟩ := execSysSetRate_eq_next.1 h
    exact (Effect.setRate r s).respond _
  | sysInit =>
    obtain ⟨-, ⟨hk, rfl⟩ | ⟨-, rfl⟩⟩ := execSysInit_eq_next.1 h
    · exact (Effect.initAll hk s).respond _
    · exact .raise _ s .cbSize
  | sysStep p vs => exact .sysStep h
  | lutConfig l lo hi iv =>
    obtain ⟨⟨hok, hlen⟩, rfl⟩ | ⟨-, rfl⟩ := execLutConfig_eq_next.1 h
    · exact ((Effect.refl _ s).setLut (.config l lo hi iv _ hok hlen)).respond _
    · exact .raise _ s .lutHeader
  | lutWrite l n v =>
    obtain ⟨-, ⟨hn, rfl⟩ | ⟨-, rfl⟩⟩ | ⟨-, rfl⟩ := execLutWrite_eq_next.1 h
    · exact ((Effect.refl _ s).setLut (.write l n v _ hn)).respond _
    · exact .raise _ s .lutIndex
    · exact .raise _ s .lutEmpty
  | lutEval l x =>
    obtain ⟨-, y, -, rfl⟩ | ⟨-, rfl⟩ := execLutEval_eq_next.1 h
    · exact (Effect.refl _ s).respond _
    · exact .raise _ s .lutEmpty
  | lutEvalv l x0 x1 x2 x3 =>
    obtain ⟨_, _, _, _, -, rfl⟩ | ⟨f, rfl⟩ := execLutEvalv_eq_next h
    · exact (Effect.refl _ s).respond _
    · exact .raise _ s f
  | cbReset c n =>
    obtain ⟨hk, rfl⟩ | ⟨-, rfl⟩ := execCbReset_eq_next.1 h
    · exact ((Effect.refl _ s).setCb (.reset c n _ hk)).respond _
    · exact .raise _ s .cbSize
  | cbPush c v =>
    obtain ⟨-, rfl⟩ := execCbPush_eq_next.1 h
    exact ((Effect.refl _ s).setCb (.push c v _)).respond _
  | cbWrat c d v =>
    obtain ⟨-, rfl⟩ := execCbWrat_eq_next.1 h
    exact ((Effect.refl _ s).setCb (.write c d v _)).respond _
  | cbAddat c d v =>
    obtain ⟨-, rfl⟩ := execCbAddat_eq_next.1 h
    exact ((Effect.refl _ s).setCb (.add c d v _)).respond _
  | cbRdi c d =>
    obtain ⟨-, rfl⟩ := execCbRdi_eq_next.1 h
    exact (Effect.refl _ s).respond _
  | cbRdf c d =>
    obtain ⟨-, -, rfl⟩ := execCbRdf_eq_next.1 h
    exact (Effect.refl _ s).respond _
  | bqClear c j =>
    rw [execBqClear_eq_next.1 h]
    exact ((Effect.refl _ s).setBq (.clear c j _)).respond _
  | bqProc c j x =>
    obtain ⟨-, -, rfl⟩ := execBqProc_eq_next.1 h
    exact ((Effect.refl _ s).setBq (.proc c j x _)).respond _
  | bqSetBwLp2 c j fc => exact Effect.design (k := .bwlp2) h
  | bqSetBwHp2 c j fc => exact Effect.design (k := .bwhp2) h
  | bqSetLrLp2 c j fc => exact Effect.design (k := .lrlp2) h
  | bqSetLrHp2 c j fc => exact Effect.design (k := .lrhp2) h
  | bqSetAp1 c j fc => exact Effect.design (k := .ap1) h
  | bqLoadc c j a0 a1 a2 b1 b2 c0 d0 =>
    rw [execBqLoadc_eq_next.1 h]
    exact ((Effect.refl _ s).setBq (.load c j a0 a1 a2 b1 b2 c0 d0 _)).respond _
  | bqProc4 c x =>
    obtain ⟨-, -, rfl⟩ := execBqProc4_eq_next.1 h
    exact (((Effect.refl _ s).setBq (.proc4 c 2 x _ _ (by decide))).setBq (.proc4 c 3 x _ _ (by decide))).respond _
  | bqProcv g j x0 x1 x2 x3 =>
    obtain ⟨-, rfl⟩ := execBqProcv_eq_next.1 h
    have lane : ∀ (l : Fin Config.lanes) (y : Sample), BiquadStep (.bqProcv g j x0 x1 x2 x3) (laneChannel g l) j
        (s.getBq (laneChannel g l) j) ((s.getBq (laneChannel g l) j).advance y) :=
      fun l y => .procv g _ j x0 x1 x2 x3 y _ (laneChannel_div g l)
    exact (((((Effect.refl _ s).setBq (lane 0 _)).setBq (lane 1 _)).setBq (lane 2 _)).setBq (lane 3 _)).respond _
  | cmpSetTimes c a r =>
    obtain ⟨-, ⟨ha, hr⟩, rfl⟩ := execCmpSetTimes_eq_next.1 h
    exact ((Effect.refl _ s).setCmp (.times c a r _ ha hr)).respond _
  | cmpSetCurve c th ra =>
    obtain ⟨⟨hth, hra⟩, rfl⟩ := execCmpSetCurve_eq_next.1 h
    exact ((Effect.refl _ s).setCmp (.curve c th ra _ hth hra)).respond _
  | cmpProc c x =>
    obtain ⟨-, rfl⟩ := execCmpProc_eq_next.1 h
    exact ((Effect.refl _ s).setCmp (.proc c x _)).respond _
  | wsWrite k n v =>
    obtain ⟨hn, rfl⟩ | ⟨-, rfl⟩ := execWsWrite_eq_next.1 h
    · exact ((Effect.refl _ s).setWs (.write k n v _ hn)).respond _
    · exact .raise _ s .wsIndex
  | wsEval k x =>
    obtain ⟨-, -, _, -, rfl⟩ := execWsEval_eq_next.1 h
    exact (Effect.refl _ s).respond _

end Sys2Proof.Machine

/-! The invariants (O58, O59, O60): each holds at reset, and each change of a unit keeps the unit's own. -/

namespace Sys2Proof.Machine

/-! ### Invariants of the steps -/

/-- A predicate on the registers and memories that every command keeps, and that reset and the fault record of an
illegal command give or keep, is kept by every step (R262, R263, R285, R287). -/
theorem step_keeps {P : State → Prop} (hqueue : ∀ s es, P s → P (s.setPending es))
    (hanswer : ∀ s ws, P s → P (s.respond ws)) (hfault : ∀ s w, P s → P (s.latch 1#32 w))
    (hreset : ∀ s, P (hardwareReset s)) (hexec : ∀ i s t, P s → exec i s = .next t → P t)
    {s t : State} (hs : P s) (h : step s = .next t) : P t := by
  rcases step_cases h with ⟨es, rfl⟩ | ⟨es, -, rfl⟩ | ⟨-, es, ws, rfl⟩ | ⟨-, es, w, rfl⟩ | ⟨-, es, i, hi⟩
  · exact hqueue s es hs
  · exact hreset _
  · exact hanswer _ ws (hqueue s es hs)
  · exact hanswer _ _ (hfault _ w (hqueue s es hs))
  · exact hexec i _ t (hqueue s es hs) hi

/-! ### The sample memories and their headers (R27, R32; log 7) -/

section memory

variable {i : Instr}

theorem LutStep.good {l : TableId} {x y : Lut} (h : LutStep i l x y) (hx : x.good) : y.good := by
  cases h with
  | keep => exact hx
  | config _ _ _ _ _ hok hlen => exact Lut.good_config hok hlen
  | write _ _ _ _ hn => exact Lut.good_write hx hn _

theorem CurveStep.good {k : CurveId} {m n : Mem} (h : CurveStep i k m n) (hm : curveGood m) : curveGood n := by
  cases h with
  | keep => exact hm
  | write _ _ _ _ hn => exact curveGood_write hm hn _

theorem RingStep.good {c : Channel} {r r' : Ring} (h : RingStep i c r r') (hr : r.good) : r'.good := by
  cases h with
  | keep => exact hr
  | reset _ _ _ hk => exact Ring.good_cleared hk
  | push => exact Ring.good_push hr _
  | write => exact Ring.good_writeAt hr _ _
  | add => exact Ring.good_addAt hr _ _
  | init _ _ _ hk => exact Ring.good_cleared hk
  | voice => exact Ring.good_push hr _

theorem Effect.memoryGood {s t : State} (h : Effect i s t) (hs : s.MemoryGood) : t.MemoryGood :=
  ⟨fun l => (h.lut l).good (hs.1 l), fun k => (h.ws k).good (hs.2.1 k), fun c => (h.cb c).good (hs.2.2 c)⟩

end memory

theorem memoryGood_reset : State.reset.MemoryGood := by
  refine ⟨fun l => ?_, fun k => ?_, fun c => ?_⟩
  · rw [State.reset_lut]; exact ⟨rfl, rfl, fun hv => absurd hv (by decide)⟩
  · rw [State.reset_ws]; exact ⟨rfl, rfl⟩
  · rw [State.reset_cb]; exact ⟨by decide, by decide, rfl, rfl, rfl⟩

/-- Settles O58: a step is a host event that touches no memory, a reset, or a command, and every change a command can
make to a table, a curve or a ring keeps it good. -/
theorem memoryGoodKept : Obligations.MemoryGoodKept := fun _ _ =>
  step_keeps (P := State.MemoryGood) (fun _ _ h => h) (fun _ _ h => h) (fun _ _ h => h) (fun _ => memoryGood_reset)
    fun _ _ _ hs h => (exec_effect h).memoryGood hs

/-! ### The registers (R23, R35, R39, R40, R228, R230) -/

section registers

variable {i : Instr} {s t : State}

theorem BiquadStep.good {c : Channel} {j : Slot} {q q' : Biquad} (h : BiquadStep i c j q q') (hq : q.good) :
    q'.good := by
  cases h with
  | keep => exact hq
  | clear | init => exact Biquad.good_clear hq
  | proc | proc4 | procv | voice => exact Biquad.good_advance hq _
  | design | rate => exact Biquad.good_setDesign hq _ _ _ _
  | load => exact fun _ => rfl

theorem Biquad.setDesign_coefHeld_of_held {q : Biquad} (h : q.coefHeld = true) (p : Params) (k : Design)
    (fc rate : Sample) : (q.setDesign p k fc rate).coefHeld = true := by
  unfold Biquad.setDesign
  split_ifs
  · exact h
  · rfl

/-- No command takes a section's coefficients away. -/
theorem BiquadStep.coefHeld {c : Channel} {j : Slot} {q q' : Biquad} (h : BiquadStep i c j q q')
    (hq : q.coefHeld = true) : q'.coefHeld = true := by
  cases h with
  | keep | clear | init | proc | proc4 | procv | voice => exact hq
  | design | rate => exact Biquad.setDesign_coefHeld_of_held hq _ _ _ _
  | load => rfl

/-- No command takes a section's memory away. -/
theorem BiquadStep.memHeld {c : Channel} {j : Slot} {q q' : Biquad} (h : BiquadStep i c j q q')
    (hq : q.memHeld = true) : q'.memHeld = true := by
  cases h with
  | keep | proc | proc4 | procv | voice | load => exact hq
  | clear | init => rfl
  | design | rate => rw [Biquad.setDesign_memHeld]; exact hq

theorem CompressorStep.good {c : Channel} {m m' : Compressor} (h : CompressorStep i c m m') (hm : m.good params) :
    m'.good params := by
  cases h with
  | keep => exact hm
  | times _ _ _ _ ha hr => exact Compressor.good_setTimes hm ha hr
  | curve _ _ _ _ hth hra => exact Compressor.good_setCurve hm hth hra
  | proc | voice => exact Compressor.good_advance hm _
  | rate => exact Compressor.good_setRate hm _
  | init => exact Compressor.good_init hm

/-- No command takes a compressor's times away. -/
theorem CompressorStep.timesHeld {c : Channel} {m m' : Compressor} (h : CompressorStep i c m m')
    (hm : m.timesHeld = true) : m'.timesHeld = true := by
  cases h with
  | keep | curve | init => exact hm
  | times => rfl
  | proc | voice => rw [Compressor.advance_timesHeld]; exact hm
  | rate => exact Compressor.setRate_timesHeld _ _ _

/-- No command takes a compressor's curve away. -/
theorem CompressorStep.curveHeld {c : Channel} {m m' : Compressor} (h : CompressorStep i c m m')
    (hm : m.curveHeld = true) : m'.curveHeld = true := by
  cases h with
  | keep | times | init => exact hm
  | curve => rfl
  | proc | voice => rw [Compressor.advance_curveHeld]; exact hm
  | rate => exact Compressor.setRate_curveHeld _ _ _

/-- No command takes a compressor's envelope away. -/
theorem CompressorStep.envHeld {c : Channel} {m m' : Compressor} (h : CompressorStep i c m m')
    (hm : m.envHeld = true) : m'.envHeld = true := by
  cases h with
  | keep | times | curve => exact hm
  | proc | voice => rw [Compressor.advance_envHeld]; exact hm
  | rate => rw [Compressor.setRate_envHeld]; exact hm
  | init => rfl

/-- Only `SYS.SETRATE` writes a compressor's copy of the rate (R184, R228). -/
theorem CompressorStep.sampleRate {c : Channel} {m m' : Compressor} (h : CompressorStep i c m m')
    (hi : ∀ r, i ≠ .sysSetRate r) : m'.sampleRate = m.sampleRate := by
  cases h with
  | keep | times | curve | init => rfl
  | proc | voice => exact Compressor.advance_sampleRate _ _ _
  | rate r => exact absurd rfl (hi r)

/-- No command frees a ring. -/
theorem RingStep.alloc {c : Channel} {r r' : Ring} (h : RingStep i c r r') (hr : r.alloc = true) : r'.alloc = true := by
  cases h with
  | keep | push | write | add | voice => exact hr
  | reset | init => rfl

/-- Only `SYS.SETRATE` writes the rate (R228). -/
theorem SystemStep.rate_eq {y y' : System} (h : SystemStep i y y') (hi : ∀ r, i ≠ .sysSetRate r) :
    y'.sampleRate = y.sampleRate ∧ y'.rateSet = y.rateSet := by
  cases h with
  | keep | fault | init | voices => exact ⟨rfl, rfl⟩
  | rate r => exact absurd rfl (hi r)

/-- The rate stays set. -/
theorem SystemStep.rateSet {y y' : System} (h : SystemStep i y y') (hy : y.rateSet = true) : y'.rateSet = true := by
  cases h with
  | keep | fault | init | voices => exact hy
  | rate => rfl

/-- Only `SYS.INIT` sets `inited`, and nothing clears it (R230). -/
theorem SystemStep.inited_eq {y y' : System} (h : SystemStep i y y') (hi : i ≠ .sysInit) : y'.inited = y.inited := by
  cases h with
  | keep | fault | rate | voices => rfl
  | init => exact absurd rfl hi

theorem Effect.unitsGood (h : Effect i s t) (hs : s.UnitsGood) : t.UnitsGood :=
  ⟨fun c j => (h.bq c j).good (hs.1 c j), fun c => (h.cmp c).good (hs.2 c)⟩

/-- What `SYS.SETRATE` establishes, every other command keeps (R228). -/
theorem Effect.rateGood (h : Effect i s t) (hi : ∀ r, i ≠ .sysSetRate r) (hs : s.RateGood) : t.RateGood := by
  obtain ⟨hrate, hset⟩ := h.sys.rate_eq hi
  intro ht
  obtain ⟨hpos, hchan⟩ := hs (hset ▸ ht)
  rw [hrate]
  refine ⟨hpos, fun c => ?_⟩
  obtain ⟨hcopy, htimes, hcurve, hq0, hq1⟩ := hchan c
  exact ⟨((h.cmp c).sampleRate hi).trans hcopy, (h.cmp c).timesHeld htimes, (h.cmp c).curveHeld hcurve,
    (h.bq c 0).coefHeld hq0, (h.bq c 1).coefHeld hq1⟩

/-- What `SYS.INIT` establishes, every other command keeps (R230). -/
theorem Effect.initGood (h : Effect i s t) (hi : t.sys.inited = s.sys.inited) (hs : s.InitGood) : t.InitGood := by
  intro ht
  obtain ⟨hset, hchan⟩ := hs (hi ▸ ht)
  refine ⟨h.sys.rateSet hset, fun c => ?_⟩
  obtain ⟨halloc, henv, hmem⟩ := hchan c
  exact ⟨(h.cb c).alloc halloc, (h.cmp c).envHeld henv, fun j => (h.bq c j).memHeld (hmem j)⟩

theorem Effect.sysGood (h : Effect i s t) (hs : s.SysGood) : t.SysGood := by
  obtain ⟨hnch, hcode, hinfo⟩ := hs
  have hsys := h.sys
  unfold State.SysGood
  generalize t.sys = y at hsys
  cases hsys with
  | keep | rate => exact ⟨hnch, hcode, hinfo⟩
  | fault _ f => exact ⟨hnch, f.code_pos.2, fun h0 => absurd h0 f.code_pos.1⟩
  | init => exact ⟨Nat.zero_le _, hcode, hinfo⟩
  | voices _ _ _ hn => exact ⟨hn, hcode, hinfo⟩

end registers

/-- `SYS.SETRATE` establishes it on every block with good sections (R228). -/
theorem rateGood_setRate {r : Sample} (hr : F32.isPositive r = true) {s : State} (hs : s.UnitsGood) :
    (setRate params r s).RateGood := by
  refine fun _ => ⟨hr, fun c => ?_⟩
  have hq : ∀ j : Slot, j = 0 ∨ j = 1 → ((setRate params r s).getBq c j).coefHeld = true := fun j hj => by
    rw [State.getBq_setRate, if_pos hj]; exact Biquad.setDesign_coefHeld (hs.1 c j) _ _ _ _
  rw [State.cmp_setRate]
  exact ⟨Compressor.setRate_sampleRate _ _ _, Compressor.setRate_timesHeld _ _ _, Compressor.setRate_curveHeld _ _ _,
    hq 0 (.inl rfl), hq 1 (.inr rfl)⟩

/-- `SYS.INIT` establishes it on every block with a rate (R230). -/
theorem initGood_initAll {s : State} (hs : s.sys.rateSet = true) (k : Nat) : (initAll params k s).InitGood := by
  refine fun _ => ⟨hs, fun c => ⟨?_, ?_, fun j => ?_⟩⟩
  · rw [State.cb_initAll]; rfl
  · rw [State.cmp_initAll]; rfl
  · rw [State.getBq_initAll]; rfl

theorem exec_rateGood {i : Instr} {s t : State} (hu : s.UnitsGood) (hs : s.RateGood) (h : exec i s = .next t) :
    t.RateGood := by
  by_cases hi : ∃ r, i = .sysSetRate r
  · obtain ⟨r, rfl⟩ := hi
    obtain ⟨hr, rfl⟩ := execSysSetRate_eq_next.1 h
    exact rateGood_setRate hr hu
  · exact (exec_effect h).rateGood (not_exists.1 hi) hs

theorem exec_initGood {i : Instr} {s t : State} (hs : s.InitGood) (h : exec i s = .next t) : t.InitGood := by
  by_cases hi : i = .sysInit
  · subst hi
    obtain ⟨hset, ⟨-, rfl⟩ | ⟨-, rfl⟩⟩ := execSysInit_eq_next.1 h
    · exact initGood_initAll hset _
    · exact hs
  · exact (exec_effect h).initGood ((exec_effect h).sys.inited_eq hi) hs

/-- The four invariants of the registers together: `SYS.SETRATE` needs the first for the second. -/
def State.RegistersGood (s : State) : Prop := s.UnitsGood ∧ s.RateGood ∧ s.InitGood ∧ s.SysGood

theorem exec_registersGood {i : Instr} {s t : State} (hs : s.RegistersGood) (h : exec i s = .next t) :
    t.RegistersGood := by
  obtain ⟨hunits, hrate, hinit, hsys⟩ := hs
  exact ⟨(exec_effect h).unitsGood hunits, exec_rateGood hunits hrate h, exec_initGood hinit h,
    (exec_effect h).sysGood hsys⟩

theorem registersGood_latch {s : State} (hs : s.RegistersGood) (w : Word) : (s.latch 1#32 w).RegistersGood := by
  obtain ⟨hunits, hrate, hinit, hnch, -, -⟩ := hs
  exact ⟨hunits, hrate, hinit, hnch, (by decide : (1#32 : Word).toNat ≤ 3),
    fun h0 => absurd h0 (by decide : (1#32 : Word) ≠ 0#32)⟩

theorem registersGood_reset : State.reset.RegistersGood := by
  refine ⟨⟨fun c j => ?_, fun c => ?_⟩, fun h => absurd h (by decide), fun h => absurd h (by decide), by decide,
    by decide, fun _ => rfl⟩
  · rw [State.reset_getBq]; exact fun h => absurd rfl h
  · rw [State.reset_cmp]
    exact ⟨cmpN_pos, fun h => absurd h (by decide), fun h => absurd h (by decide), fun h => absurd h (by decide)⟩

/-- Settles O59: `SYS.SETRATE` and `SYS.INIT` establish what they should, no other command takes a rate, a value held or
a ring away, and every change keeps its unit's ranges. -/
theorem registersGoodKept : Obligations.RegistersGoodKept := fun _ _ hunits hrate hinit hsys =>
  step_keeps (P := State.RegistersGood) (fun _ _ h => h) (fun _ _ h => h) (fun _ w h => registersGood_latch h w)
    (fun _ => registersGood_reset) (fun _ _ _ => exec_registersGood) ⟨hunits, hrate, hinit, hsys⟩

/-- Settles O60: after reset no memory lists a cell and no field is held; `divCount < CMP_N` is `CMP_N >= 1` (log 13). -/
theorem resetIsGood : Obligations.ResetIsGood := ⟨memoryGood_reset, registersGood_reset⟩

end Sys2Proof.Machine

/-! The memory of a section and the divider and envelope of a compressor, command by command (O37, O41, O42). -/

namespace Sys2Proof.Machine

/-! ### The memory of a section (R37) -/

/-- A command that changes a section's memory processes a sample on it or clears it. -/
theorem BiquadStep.memory {i : Instr} {c : Channel} {j : Slot} {q q' : Biquad} (h : BiquadStep i c j q q') :
    q'.memory = q.memory ∨ i = .bqClear c j ∨ (∃ x, i = .bqProc c j x) ∨ (∃ x, i = .bqProc4 c x ∧ 2 ≤ j.val)
      ∨ (∃ g x0 x1 x2 x3, i = .bqProcv g j x0 x1 x2 x3 ∧ c.val / 4 = g.val)
      ∨ (∃ p vs, i = .sysStep p vs ∧ c.val < vs.length ∧ j.val < 2) ∨ i = .sysInit := by
  cases h with
  | keep | load => exact .inl rfl
  | design | rate => exact .inl (Biquad.setDesign_memory _ _ _ _ _)
  | clear => exact .inr (.inl rfl)
  | proc _ _ x => exact .inr (.inr (.inl ⟨x, rfl⟩))
  | proc4 _ _ x _ _ hj => exact .inr (.inr (.inr (.inl ⟨x, rfl, hj⟩)))
  | procv g _ _ x0 x1 x2 x3 _ _ hc => exact .inr (.inr (.inr (.inr (.inl ⟨g, x0, x1, x2, x3, rfl, hc⟩))))
  | voice p vs _ _ _ _ hc hj => exact .inr (.inr (.inr (.inr (.inr (.inl ⟨p, vs, rfl, hc, hj⟩)))))
  | init => exact .inr (.inr (.inr (.inr (.inr (.inr rfl)))))

/-- A `SYS.INIT` that completes is no fault: the fault's answer is its code (R80, R230). -/
theorem exec_sysInit_completed {s t : State} (h : exec .sysInit s = .next t) (ht : t.response = [0#32]) :
    ∃ k, t = (initAll params k s).respond [0#32] := by
  obtain ⟨-, ⟨-, rfl⟩ | ⟨-, rfl⟩⟩ := execSysInit_eq_next.1 h
  · exact ⟨_, rfl⟩
  · exact absurd ht (by decide : [(2#32 : Word)] ≠ [0#32])

/-- Settles O37: `BQ.SET*`, `SYS.SETRATE` and `BQ.LOADC` write no memory cell, `SYS.INIT` clears every section. -/
theorem bqMemoryPersists : Obligations.BqMemoryPersists := by
  refine ⟨fun i s t c j h => ((exec_effect h).bq c j).memory, fun s t c j h ht => ?_⟩
  obtain ⟨k, rfl⟩ := exec_sysInit_completed h ht
  rw [State.respond_getBq, State.getBq_initAll]
  rfl

/-! ### The envelope and the divider of a compressor (R40, R186, R189) -/

/-- Where the divider is at 0 the detector runs, and both envelope registers take its value (R186). -/
theorem Compressor.advance_of_divCount_zero {p : Params} {m : Compressor} (h : m.divCount = 0) (x : Sample) :
    (m.advance p x).currentEnv = m.envelope p (F32.abs x) ∧ (m.advance p x).lastEnv = m.envelope p (F32.abs x) := by
  simp only [Compressor.advance, h, if_true]
  exact ⟨rfl, rfl⟩

theorem exec_cmpProc_cmp {s t : State} {c : Channel} {x : Word} (h : exec (.cmpProc c x) s = .next t) :
    t.cmp[c] = (s.cmp[c]).advance params (f32 x) := by
  obtain ⟨-, rfl⟩ := execCmpProc_eq_next.1 h
  rw [State.respond_cmp, State.cmp_setCmp, if_pos rfl]

/-- Settles O41: a detector run stores an envelope that its last comparison has floored at `CMP_EPS`. -/
theorem cmpEnvelopeFloor : Obligations.CmpEnvelopeFloor := by
  refine ⟨isPositive_keepPositive _, fun s t c x h h0 => ?_⟩
  rw [exec_cmpProc_cmp h]
  obtain ⟨hcur, hlast⟩ := Compressor.advance_of_divCount_zero (p := params) h0 (f32 x)
  rw [hcur, hlast]
  exact ⟨Compressor.le_envelope isNaN_cmpEps _ _, rfl⟩

/-- Only a `CMP.PROC` of the channel, alone or in `SYS.STEP`, and `SYS.INIT` touch the divider (R189). -/
theorem CompressorStep.divCount_eq {i : Instr} {c : Channel} {m m' : Compressor} (h : CompressorStep i c m m')
    (hproc : ∀ x, i ≠ .cmpProc c x) (hstep : ∀ p vs, i = .sysStep p vs → vs.length ≤ c.val) (hinit : i ≠ .sysInit) :
    m'.divCount = m.divCount := by
  cases h with
  | keep | times | curve => rfl
  | rate => exact Compressor.setRate_divCount _ _ _
  | proc _ x => exact absurd rfl (hproc x)
  | voice p vs _ _ _ hc => exact absurd (hstep p vs rfl) (Nat.not_le.2 hc)
  | init => exact absurd rfl hinit

/-- Settles O42: the clauses are the compressor's own run, the frame's run of it, `SYS.INIT`'s zero, and the changes
that are none of these. -/
theorem cmpDividerCounts : Obligations.CmpDividerCounts := by
  refine ⟨cmpN_pos, fun i s t c h => ⟨?_, ?_, ?_, ((exec_effect h).cmp c).divCount_eq⟩⟩
  · rintro ⟨x, rfl⟩
    rw [exec_cmpProc_cmp h, Compressor.advance_divCount]
  · rintro p vs rfl hl hc
    obtain ⟨-, -, -, y, hcmp⟩ := FrameEnv.frame_units (execSysStep_part hl h hc)
    exact (congrArg Compressor.divCount hcmp).trans (Compressor.advance_divCount _ _ _)
  · rintro rfl ht
    obtain ⟨k, rfl⟩ := exec_sysInit_completed h ht
    rw [State.respond_cmp, State.cmp_initAll]
    rfl

end Sys2Proof.Machine

/-! The byte transport (O6): a word is its four bytes, most significant first (R65, D28; log 30). -/

namespace Sys2Proof

theorem append_extract_bytes (w : Word) :
    w.extractLsb' 24 8 ++ w.extractLsb' 16 8 ++ w.extractLsb' 8 8 ++ w.extractLsb' 0 8 = w := by
  rw [BitVec.extractLsb'_append_extractLsb'_eq_extractLsb' (by decide),
    BitVec.extractLsb'_append_extractLsb'_eq_extractLsb' (by decide),
    BitVec.extractLsb'_append_extractLsb'_eq_extractLsb' (by decide)]
  exact BitVec.extractLsb'_eq_self

/-- The transport reads back the first word before it looks at the bytes behind it. -/
theorem wordsOfBytes_wordBytes_append (w : Word) (bs : List Byte) :
    wordsOfBytes (wordBytes w ++ bs) = w :: wordsOfBytes bs :=
  congrArg (· :: wordsOfBytes bs) (append_extract_bytes w)

/-- Settles O6, by induction on the word sequence. -/
theorem byteTransportRoundTrip : Obligations.ByteTransportRoundTrip := by
  intro ws
  induction ws with
  | nil => rfl
  | cons w ws ih =>
    calc wordsOfBytes (bytesOfWords (w :: ws)) = w :: wordsOfBytes (bytesOfWords ws) :=
          wordsOfBytes_wordBytes_append w (bytesOfWords ws)
      _ = w :: ws := by rw [ih]

end Sys2Proof

/-! The sample memories and the channels (O55, O57): which command can write a memory (R60, R74), and what the part
of a channel after a `SYS.STEP` depends on (R20, R71). -/

namespace Sys2Proof.Machine

/-! ### The writers of each memory -/

section writers

variable {i : Instr}

theorem LutStep.writer {l : TableId} {x y : Lut} (h : LutStep i l x y) (hne : y ≠ x) :
    (∃ a b c, i = .lutConfig l a b c) ∨ ∃ a v, i = .lutWrite l a v := by
  cases h with
  | keep => exact absurd rfl hne
  | config _ lo hi iv => exact .inl ⟨lo, hi, iv, rfl⟩
  | write _ n v => exact .inr ⟨n, v, rfl⟩

theorem CurveStep.writer {k : CurveId} {m n : Mem} (h : CurveStep i k m n) (hne : n ≠ m) :
    ∃ a v, i = .wsWrite k a v := by
  cases h with
  | keep => exact absurd rfl hne
  | write _ a v => exact ⟨a, v, rfl⟩

theorem RingStep.writer {c : Channel} {r r' : Ring} (h : RingStep i c r r') (hne : r' ≠ r) :
    (∃ n, i = .cbReset c n) ∨ (∃ v, i = .cbPush c v) ∨ (∃ d v, i = .cbWrat c d v)
      ∨ (∃ d v, i = .cbAddat c d v) ∨ i = .sysInit ∨ ∃ p vs, i = .sysStep p vs ∧ c.val < vs.length := by
  cases h with
  | keep => exact absurd rfl hne
  | reset _ n => exact .inl ⟨n, rfl⟩
  | push _ v => exact .inr (.inl ⟨v, rfl⟩)
  | write _ d v => exact .inr (.inr (.inl ⟨d, v, rfl⟩))
  | add _ d v => exact .inr (.inr (.inr (.inl ⟨d, v, rfl⟩)))
  | init => exact .inr (.inr (.inr (.inr (.inl rfl))))
  | voice p vs _ _ _ hc => exact .inr (.inr (.inr (.inr (.inr ⟨p, vs, rfl, hc⟩))))

end writers

/-- Settles O57: every change a command makes to a memory is in that memory's relation, which names the writer. -/
theorem memoryWriters : Obligations.MemoryWriters := by
  intro i s t h
  have he : Effect i s t := exec_effect h
  exact ⟨fun l => (he.lut l).writer, fun k => (he.ws k).writer, fun c => (he.cb c).writer⟩

/-! ### The independence of the channels -/

/-- A `SYS.STEP` leaves the part of a channel that is not active, and a faulting one the part of every channel
(R233, R262). -/
theorem execSysStep_part_idle {s t : State} {p : StepControls} {vs : List VoiceIn} {c : Channel}
    (h : execSysStep p vs s = .next t) (hc : Config.nchMax < vs.length ∨ vs.length ≤ c.val) : t.part c = s.part c := by
  rcases Nat.lt_or_ge Config.nchMax vs.length with hgt | hl
  · rcases execSysStep_eq_next.1 h with ⟨-, rfl⟩ | ⟨hle, -⟩
    · rfl
    · omega
  · obtain ⟨-, -, -, -, hidle⟩ := execSysStep_frame hl h
    exact hidle c (hc.resolve_left (Nat.not_lt.2 hl))

/-- What the channels share is the rate, the tables, the curves and the controls (R28, R60). -/
theorem frameEnv_congr {s₁ s₂ : State} (hrate : s₁.sys.sampleRate = s₂.sys.sampleRate) (hlut : s₁.lut = s₂.lut)
    (hws : s₁.ws = s₂.ws) (q : Params) (p : StepControls) : frameEnv q p s₁ = frameEnv q p s₂ := by
  simp only [frameEnv, hrate, hlut, hws]

/-- Settles O55: an active channel's part after the step is its frame, a function of what the two blocks share; a part
that the step leaves is equal because it was before. -/
theorem channelIndependence : Obligations.ChannelIndependence := by
  intro s₁ s₂ t₁ t₂ p vs₁ vs₂ c hrate hlut hws hdraws hpart hlen hvoice h₁ h₂
  by_cases hidle : Config.nchMax < vs₁.length ∨ vs₁.length ≤ c.val
  · calc t₁.part c = s₁.part c := execSysStep_part_idle h₁ hidle
      _ = s₂.part c := hpart
      _ = t₂.part c := (execSysStep_part_idle h₂ (hlen ▸ hidle)).symm
  · obtain ⟨hl₁, hc₁⟩ : vs₁.length ≤ 16 ∧ c.val < vs₁.length := by
      simpa only [not_or, Nat.not_lt, Nat.not_le] using hidle
    have hl₂ : vs₂.length ≤ 16 := hlen ▸ hl₁
    have hc₂ : c.val < vs₂.length := hlen ▸ hc₁
    have hv : vs₁[c.val] = vs₂[c.val] := by
      simpa only [List.getElem?_eq_getElem hc₁, List.getElem?_eq_getElem hc₂, Option.some.injEq] using hvoice
    have hframe := execSysStep_part hl₁ h₁ hc₁
    rw [frameEnv_congr hrate hlut hws, hv, hdraws, hpart, execSysStep_part hl₂ h₂ hc₂] at hframe
    exact (Host.Outcome.next.inj hframe).symm

end Sys2Proof.Machine

/-! The rows of the opcode map (O4): a word matches at most one row, and the decoder goes on with it (R86, R87). -/

namespace Sys2Proof

/-- The row of each `OP` (R86). -/
def Opcode.ofCode (n : Nat) : Option Opcode := Opcode.all.find? fun o => decide (o.code = n)

theorem Opcode.ofCode_code (o : Opcode) : Opcode.ofCode o.code = some o := by cases o <;> rfl

theorem Opcode.code_injective {o₁ o₂ : Opcode} (h : o₁.code = o₂.code) : o₁ = o₂ := by
  have hfound : Opcode.ofCode o₁.code = some o₂ := h ▸ Opcode.ofCode_code o₂
  exact Option.some.inj ((Opcode.ofCode_code o₁).symm.trans hfound)

theorem Opcode.mem_all (o : Opcode) : o ∈ Opcode.all :=
  List.mem_of_find?_eq_some (Opcode.ofCode_code o)

/-- Settles O4: every mask keeps the whole of `OP`, and `OP` tells the rows apart. -/
theorem opcodeRowsDisjoint : Obligations.OpcodeRowsDisjoint := by
  intro o₁ o₂ w h₁ h₂
  obtain ⟨hop₁, -⟩ := (Opcode.matches_iff o₁ w).1 h₁
  obtain ⟨hop₂, -⟩ := (Opcode.matches_iff o₂ w).1 h₂
  exact Opcode.code_injective (hop₁.symm.trans hop₂)

theorem Opcode.ofWord_eq_none_iff {w : Word} :
    Opcode.ofWord w = none ↔ ∀ o ∈ Opcode.all, w &&& o.mask ≠ o.matchWord := by
  simp only [Opcode.ofWord, List.find?_eq_none, decide_eq_true_eq, ne_eq]

theorem decode_cons_of_row {w : Word} {o : Opcode} (h : Opcode.ofWord w = some o) (ws : List Word) :
    decode (w :: ws) = decodeRow o w ws := by
  simp only [decode, h]

theorem decode_cons_of_no_row {w : Word} (h : Opcode.ofWord w = none) (ws : List Word) :
    decode (w :: ws) = .illegal w := by
  simp only [decode, h]

end Sys2Proof

/-! Decoding what was encoded (O1, O5): the selectors and the operand words read back (R81, R84, R86, R226). -/

namespace Sys2Proof

theorem headerWord (i : Instr) : Laws.HeaderWord.Statement i := by
  open Laws.HeaderWord in
  cases i with
  | sysStatus => exact sysStatus
  | sysSetRate => exact sysSetRate _
  | sysInit => exact sysInit
  | sysStep => exact sysStep _ _
  | lutConfig => exact lutConfig _ _ _ _
  | lutWrite => exact lutWrite _ _ _
  | lutEval => exact lutEval _ _
  | lutEvalv => exact lutEvalv _ _ _ _ _
  | cbReset => exact cbReset _ _
  | cbPush => exact cbPush _ _
  | cbWrat => exact cbWrat _ _ _
  | cbAddat => exact cbAddat _ _ _
  | cbRdi => exact cbRdi _ _
  | cbRdf => exact cbRdf _ _
  | bqClear => exact bqClear _ _
  | bqProc => exact bqProc _ _ _
  | bqSetBwLp2 => exact bqSetBwLp2 _ _ _
  | bqSetBwHp2 => exact bqSetBwHp2 _ _ _
  | bqSetLrLp2 => exact bqSetLrLp2 _ _ _
  | bqSetLrHp2 => exact bqSetLrHp2 _ _ _
  | bqSetAp1 => exact bqSetAp1 _ _ _
  | bqLoadc => exact bqLoadc _ _ _ _ _ _ _ _ _
  | bqProc4 => exact bqProc4 _ _
  | bqProcv => exact bqProcv _ _ _ _ _ _
  | cmpSetTimes => exact cmpSetTimes _ _ _
  | cmpSetCurve => exact cmpSetCurve _ _ _
  | cmpProc => exact cmpProc _ _
  | wsWrite => exact wsWrite _ _ _
  | wsEval => exact wsEval _ _

/-! ### A selector that is in its range -/

section selectors

variable {w : Word}

/-- The form all five selector checks have (R84). -/
theorem dite_lt_eq_of_val {α : Type} {n k : Nat} {c : Fin n} (h : k = c.val) (go : Fin n → α) (bad : α) :
    (if hlt : k < n then go ⟨k, hlt⟩ else bad) = go c := by
  subst h; exact dif_pos c.isLt

theorem withChannel_of_sel {c : Channel} (h : selField w = c.val) (go : Channel → Decoded) :
    withChannel w go = go c := dite_lt_eq_of_val h go _

theorem withTable_of_sel {t : TableId} (h : selField w = t.val) (go : TableId → Decoded) :
    withTable w go = go t := dite_lt_eq_of_val h go _

theorem withCurve_of_sel {k : CurveId} (h : selField w = k.val) (go : CurveId → Decoded) :
    withCurve w go = go k := dite_lt_eq_of_val h go _

theorem withGroup_of_sel {g : LaneGroup} (h : selField w = g.val) (go : LaneGroup → Decoded) :
    withGroup w go = go g := dite_lt_eq_of_val h go _

theorem withSlot_of_sub {j : Slot} (h : subField w = j.val) (go : Slot → Decoded) :
    withSlot w go = go j := dite_lt_eq_of_val h go _

end selectors

/-! ### The operands of a command -/

/-- `nch` is read back whole, because it is at most 16, and then as many pairs of port voltages (R83, R226). -/
theorem decodeStep_operands (w : Word) (p : StepControls) {vs : List VoiceIn} (hvs : vs.length ≤ Config.nchMax)
    (rest : List Word) : decodeStep w ((Instr.sysStep p vs).operands ++ rest) = .command (.sysStep p vs) rest := by
  have hnch : (BitVec.ofNat 32 vs.length).toNat = vs.length :=
    Nat.mod_eq_of_lt (Nat.lt_of_le_of_lt hvs (by decide))
  simp only [Instr.operands, List.cons_append, decodeStep, hnch, if_neg (Nat.not_lt.2 hvs), takeVoices_voiceWords]

/-- A row whose selectors are the command's reads the command's operands back (R84, R86). -/
theorem decodeRow_operands {i : Instr} (hwf : i.wellFormed = true) {w : Word} (hsel : selField w = i.sel)
    (hsub : subField w = i.sub) (rest : List Word) : decodeRow i.opcode w (i.operands ++ rest) = .command i rest := by
  cases i with
  | sysStatus | sysSetRate | sysInit => rfl
  | sysStep p vs => exact decodeStep_operands w p (of_decide_eq_true hwf) rest
  | lutConfig | lutWrite | lutEval | lutEvalv => rw [Instr.opcode, decodeRow, withTable_of_sel hsel]; rfl
  | cbReset | cbPush | cbWrat | cbAddat | cbRdi | cbRdf | bqProc4 | cmpSetTimes | cmpSetCurve | cmpProc =>
    rw [Instr.opcode, decodeRow, withChannel_of_sel hsel]; rfl
  | bqClear | bqProc | bqSetBwLp2 | bqSetBwHp2 | bqSetLrLp2 | bqSetLrHp2 | bqSetAp1 | bqLoadc =>
    rw [Instr.opcode, decodeRow, withChannel_of_sel hsel, withSlot_of_sub hsub]; rfl
  | bqProcv => rw [Instr.opcode, decodeRow, withGroup_of_sel hsel, withSlot_of_sub hsub]; rfl
  | wsWrite | wsEval => rw [Instr.opcode, decodeRow, withCurve_of_sel hsel]; rfl

/-- Settles O1: the command word selects the command's row and carries its selectors, and the row reads the operands
back. -/
theorem decodeEncodeRoundTrip : Obligations.DecodeEncodeRoundTrip := by
  intro i rest hwf
  obtain ⟨w, ws, henc, hrow, hsel, hsub⟩ := headerWord i
  obtain ⟨-, rfl⟩ : _ ∧ i.operands = ws := List.cons.inj henc
  calc decode (encode i ++ rest) = decode (w :: (i.operands ++ rest)) := by rw [henc, List.cons_append]
    _ = decodeRow i.opcode w (i.operands ++ rest) := decode_cons_of_row hrow _
    _ = .command i rest := decodeRow_operands hwf hsel hsub rest

/-- A sequence that is a command's encoding decodes to it, with nothing left over. -/
theorem decode_of_encode_eq {i : Instr} {ws : List Word} (hwf : i.wellFormed = true) (h : encode i = ws) :
    decode ws = .command i [] := by
  rw [← h, ← List.append_nil (encode i)]
  exact decodeEncodeRoundTrip i [] hwf

/-- Settles O5: each of the eight sequences is the encoding of its command, and the word with `SUB = 3` matches no
row. -/
theorem writtenWordsDecode : Obligations.WrittenWordsDecode :=
  ⟨decode_of_encode_eq rfl (by decide), decode_of_encode_eq rfl (by decide), decode_of_encode_eq rfl (by decide),
    decode_of_encode_eq rfl (by decide), decode_of_encode_eq rfl (by decide), decode_of_encode_eq rfl (by decide),
    decode_of_encode_eq rfl (by decide), decode_of_encode_eq rfl (by decide), decode_cons_of_no_row (by decide) _⟩

end Sys2Proof

/-! What the decoder answers for a word that matches a row (O2, O3): a command that has the word's selectors, a
rejected selector or `nch` (R88), or a sequence that ends too soon (R89). -/

namespace Sys2Proof

open Machine

/-- R88's causes for a word that matches row `o`: a selector out of its range, or the `nch` of `SYS.STEP`. -/
def RowIllegal (o : Opcode) (w : Word) (ws : List Word) : Prop :=
  (selLimit o ≤ selField w ∨ subLimit o ≤ subField w)
    ∨ o = .sysStep ∧ ∃ nch rest, ws = nch :: rest ∧ Config.nchMax < nch.toNat

/-- What row `o` may answer for the command word `w` and the words `ws` after it. -/
inductive RowOutcome (o : Opcode) (w : Word) (ws : List Word) : Decoded → Prop
  | command {i : Instr} {rest : List Word} (hop : i.opcode = o) (hsel : selField w = i.sel) (hsub : subField w = i.sub)
      (hops : ws = i.operands ++ rest) (hwf : i.wellFormed = true) : RowOutcome o w ws (.command i rest)
  | illegal (h : RowIllegal o w ws) : RowOutcome o w ws (.illegal w)
  | incomplete (h : ¬RowIllegal o w ws) : RowOutcome o w ws .incomplete

theorem not_rowIllegal {o : Opcode} {w : Word} {ws : List Word} (hsel : selField w < selLimit o)
    (hsub : subField w < subLimit o)
    (hnch : o = .sysStep → ∀ nch rest, ws = nch :: rest → nch.toNat ≤ Config.nchMax) : ¬RowIllegal o w ws := by
  rintro ((h | h) | ⟨ho, nch, rest, hws, hgt⟩)
  · exact Nat.not_lt.2 h hsel
  · exact Nat.not_lt.2 h hsub
  · exact Nat.not_lt.2 (hnch ho nch rest hws) hgt

/-! ### The selectors of a command are in range -/

theorem Instr.sel_lt_selLimit (i : Instr) : i.sel < selLimit i.opcode := by
  cases i with
  | sysStatus | sysSetRate | sysInit | sysStep => exact Nat.zero_lt_succ 15
  | lutConfig t | lutWrite t | lutEval t | lutEvalv t => exact t.isLt
  | cbReset c | cbPush c | cbWrat c | cbAddat c | cbRdi c | cbRdf c => exact c.isLt
  | bqClear c | bqProc c | bqSetBwLp2 c | bqSetBwHp2 c | bqSetLrLp2 c | bqSetLrHp2 c | bqSetAp1 c | bqLoadc c
  | bqProc4 c => exact c.isLt
  | bqProcv g => exact g.isLt
  | cmpSetTimes c | cmpSetCurve c | cmpProc c => exact c.isLt
  | wsWrite k | wsEval k => exact k.isLt

theorem Instr.sub_lt_subLimit (i : Instr) : i.sub < subLimit i.opcode := by
  cases i with
  | bqClear _ j | bqProc _ j | bqSetBwLp2 _ j | bqSetBwHp2 _ j | bqSetLrLp2 _ j | bqSetLrHp2 _ j | bqSetAp1 _ j
  | bqLoadc _ j | bqProcv _ j => exact j.isLt
  | _ => exact of_decide_eq_true rfl

/-- No command has words that R88 rejects: its selectors are in range, and `nch` is the number of its voices. -/
theorem not_rowIllegal_of_command {i : Instr} {w : Word} {rest : List Word} (hwf : i.wellFormed = true)
    (hsel : selField w = i.sel) (hsub : subField w = i.sub) : ¬RowIllegal i.opcode w (i.operands ++ rest) := by
  refine not_rowIllegal (hsel ▸ i.sel_lt_selLimit) (hsub ▸ i.sub_lt_subLimit) fun ho nch rest' hws => ?_
  cases i with
  | sysStep p vs =>
    obtain ⟨rfl, -⟩ := List.cons.inj hws
    exact Nat.le_trans (Nat.mod_le _ _) (of_decide_eq_true hwf)
  | _ => exact nomatch ho

/-! ### The outcome of a row, selector by selector -/

section outcomes

variable {o : Opcode} {w : Word} {ws : List Word}

/-- A selector check rejects the word or goes on with a selector of the word's value (R84, R88). -/
theorem RowOutcome.ofSelector {n k : Nat} {go : Fin n → Decoded} (hbad : n ≤ k → RowIllegal o w ws)
    (hgo : ∀ c : Fin n, k = c.val → RowOutcome o w ws (go c)) :
    RowOutcome o w ws (if hlt : k < n then go ⟨k, hlt⟩ else .illegal w) := by
  split_ifs with hlt
  · exact hgo ⟨k, hlt⟩ rfl
  · exact .illegal (hbad (Nat.not_lt.1 hlt))

theorem RowOutcome.withChannel {go : Channel → Decoded} (ho : selLimit o = Config.nchMax)
    (hgo : ∀ c : Channel, selField w = c.val → RowOutcome o w ws (go c)) : RowOutcome o w ws (withChannel w go) :=
  .ofSelector (fun hbad => .inl (.inl (ho ▸ hbad))) hgo

theorem RowOutcome.withTable {go : TableId → Decoded} (ho : selLimit o = Config.nlut)
    (hgo : ∀ t : TableId, selField w = t.val → RowOutcome o w ws (go t)) : RowOutcome o w ws (withTable w go) :=
  .ofSelector (fun hbad => .inl (.inl (ho ▸ hbad))) hgo

theorem RowOutcome.withCurve {go : CurveId → Decoded} (ho : selLimit o = Config.wsNcurves)
    (hgo : ∀ k : CurveId, selField w = k.val → RowOutcome o w ws (go k)) : RowOutcome o w ws (withCurve w go) :=
  .ofSelector (fun hbad => .inl (.inl (ho ▸ hbad))) hgo

theorem RowOutcome.withGroup {go : LaneGroup → Decoded} (ho : selLimit o = 4)
    (hgo : ∀ g : LaneGroup, selField w = g.val → RowOutcome o w ws (go g)) : RowOutcome o w ws (withGroup w go) :=
  .ofSelector (fun hbad => .inl (.inl (ho ▸ hbad))) hgo

theorem RowOutcome.withSlot {go : Slot → Decoded} (ho : subLimit o = Config.bqSlots)
    (hgo : ∀ j : Slot, subField w = j.val → RowOutcome o w ws (go j)) : RowOutcome o w ws (withSlot w go) :=
  .ofSelector (fun hbad => .inl (.inr (ho ▸ hbad))) hgo

/-- `SYS.STEP`: `nch` decides between the illegal word and the rest; then the words suffice or they do not (R83). -/
theorem decodeStep_outcome (hsel : selField w = 0) (hsub : subField w = 0) :
    RowOutcome .sysStep w ws (decodeStep w ws) := by
  have hsel' : selField w < selLimit .sysStep := hsel ▸ by decide
  have hsub' : subField w < subLimit .sysStep := hsub ▸ by decide
  cases ws with
  | nil => exact .incomplete (not_rowIllegal hsel' hsub' fun _ _ _ => nofun)
  | cons nch ws =>
    show RowOutcome _ _ _ (if Config.nchMax < nch.toNat then .illegal w else _)
    split_ifs with hgt
    · exact .illegal (.inr ⟨rfl, nch, ws, rfl, hgt⟩)
    · have hle : nch.toNat ≤ Config.nchMax := Nat.not_lt.1 hgt
      have hlegal : ¬RowIllegal .sysStep w (nch :: ws) :=
        not_rowIllegal hsel' hsub' fun _ _ _ he => (List.cons.inj he).1 ▸ hle
      split
      · split
        · rename_i voices rest htake
          obtain ⟨rfl, hlen⟩ := takeVoices_some htake
          refine .command rfl hsel hsub ?_ (decide_eq_true (hlen ▸ hle))
          simp only [Instr.operands, hlen, BitVec.ofNat_toNat, BitVec.setWidth_eq, List.cons_append]
        · exact .incomplete hlegal
      · exact .incomplete hlegal

/-- Every row answers as R88 and R89 say. -/
theorem decodeRow_outcome (hm : w &&& o.mask = o.matchWord) (ws : List Word) :
    RowOutcome o w ws (decodeRow o w ws) := by
  obtain ⟨-, -, hsel, hsub⟩ := (Opcode.matches_iff o w).1 hm
  cases o with
  | sysStatus | sysInit => exact .command rfl (hsel rfl) (hsub rfl) rfl rfl
  | sysSetRate =>
    cases ws with
    | nil => exact .incomplete (not_rowIllegal (hsel rfl ▸ by decide) (hsub rfl ▸ by decide) nofun)
    | cons rate rest => exact .command rfl (hsel rfl) (hsub rfl) rfl rfl
  | sysStep => exact decodeStep_outcome (hsel rfl) (hsub rfl)
  | lutConfig | lutWrite | lutEval | lutEvalv =>
    rw [decodeRow]
    refine .withTable rfl fun t ht => ?_
    split
    · exact .command rfl ht (hsub rfl) rfl rfl
    · exact .incomplete (not_rowIllegal (ht ▸ t.isLt) (hsub rfl ▸ by decide) nofun)
  | cbReset | cbPush | cbWrat | cbAddat | cbRdi | cbRdf | bqProc4 | cmpSetTimes | cmpSetCurve | cmpProc =>
    rw [decodeRow]
    refine .withChannel rfl fun c hc => ?_
    split
    · exact .command rfl hc (hsub rfl) rfl rfl
    · exact .incomplete (not_rowIllegal (hc ▸ c.isLt) (hsub rfl ▸ by decide) nofun)
  | bqClear =>
    rw [decodeRow]
    exact .withChannel rfl fun c hc => .withSlot rfl fun j hj => .command rfl hc hj rfl rfl
  | bqProc | bqSetBwLp2 | bqSetBwHp2 | bqSetLrLp2 | bqSetLrHp2 | bqSetAp1 | bqLoadc =>
    rw [decodeRow]
    refine .withChannel rfl fun c hc => .withSlot rfl fun j hj => ?_
    split
    · exact .command rfl hc hj rfl rfl
    · exact .incomplete (not_rowIllegal (hc ▸ c.isLt) (hj ▸ j.isLt) nofun)
  | bqProcv =>
    rw [decodeRow]
    refine .withGroup rfl fun g hg => .withSlot rfl fun j hj => ?_
    split
    · exact .command rfl hg hj rfl rfl
    · exact .incomplete (not_rowIllegal (hg ▸ g.isLt) (hj ▸ j.isLt) nofun)
  | wsWrite | wsEval =>
    rw [decodeRow]
    refine .withCurve rfl fun k hk => ?_
    split
    · exact .command rfl hk (hsub rfl) rfl rfl
    · exact .incomplete (not_rowIllegal (hk ▸ k.isLt) (hsub rfl ▸ by decide) nofun)

end outcomes

/-! ### The decoder's answers -/

/-- Settles O2: the row's outcome gives the command the word's selectors and operands, and the row's match gives `OP`
and `ZERO`, so the word is the command's own. -/
theorem decodeOnlyEncodings : Obligations.DecodeOnlyEncodings := by
  intro ws rest i hd
  match ws with
  | [] => exact nomatch hd
  | w :: ws =>
    cases hrow : Opcode.ofWord w with
    | none => exact nomatch (decode_cons_of_no_row hrow ws).symm.trans hd
    | some o =>
      have hm := Opcode.matches_of_ofWord hrow
      have hout := decodeRow_outcome hm ws
      rw [← decode_cons_of_row hrow, hd] at hout
      obtain ⟨hop, hsel, hsub, hops, hwf⟩ := hout
      obtain ⟨hcode, hzero, -, -⟩ := (Opcode.matches_iff o w).1 hm
      refine ⟨?_, hwf⟩
      calc w :: ws = commandWord (opField w) (selField w) (subField w) :: (i.operands ++ rest) := by
            rw [← eq_commandWord hzero, hops]
        _ = encode i ++ rest := by rw [hcode, hsel, hsub, ← hop, encode, List.cons_append]

/-- A word that matches a row is rejected for R88's causes and no other. -/
theorem decodeRow_eq_illegal_iff {o : Opcode} {w v : Word} {ws : List Word} (hm : w &&& o.mask = o.matchWord) :
    decodeRow o w ws = .illegal v ↔ v = w ∧ RowIllegal o w ws := by
  have hout := decodeRow_outcome hm ws
  generalize decodeRow o w ws = d at hout ⊢
  cases hout with
  | command hop hsel hsub hops hwf =>
    subst hop hops
    exact iff_of_false nofun fun h => not_rowIllegal_of_command hwf hsel hsub h.2
  | illegal h => simp only [Decoded.illegal.injEq, h, and_true, eq_comm]
  | incomplete h => exact iff_of_false nofun fun hbad => h hbad.2

end Sys2Proof

/-! Commands that are rejected or wait for words (O3, O9, O13): what they record, and what they leave in the host's
queue (R88, R89, R263, R287; logs 1, 3, 4). -/

namespace Sys2Proof.Machine

/-- The causes of R88 for a word that selects a row, in the words of O3: the row is the only one the word matches, and
`SYS.STEP` has one command word. -/
theorem rowIllegal_iff {o : Opcode} {w : Word} {ws : List Word} (hm : w &&& o.mask = o.matchWord) :
    RowIllegal o w ws ↔
      (∃ o ∈ Opcode.all, w &&& o.mask = o.matchWord ∧ (selLimit o ≤ selField w ∨ subLimit o ≤ subField w))
        ∨ (w = 0x03000000#32 ∧ ∃ nch rest, ws = nch :: rest ∧ 16 < nch.toNat) := by
  have hselector : (selLimit o ≤ selField w ∨ subLimit o ≤ subField w) ↔
      ∃ o ∈ Opcode.all, w &&& o.mask = o.matchWord ∧ (selLimit o ≤ selField w ∨ subLimit o ≤ subField w) := by
    refine ⟨fun h => ⟨o, o.mem_all, hm, h⟩, ?_⟩
    rintro ⟨o', -, hm', h⟩
    rwa [opcodeRowsDisjoint o o' w hm hm']
  have hstep : o = .sysStep ↔ w = 0x03000000#32 := by
    have hword : w &&& Opcode.sysStep.mask = w := BitVec.and_allOnes
    constructor
    · rintro rfl
      rw [← hword, hm]; decide
    · rintro rfl
      exact opcodeRowsDisjoint o .sysStep _ hm (by decide)
  rw [RowIllegal, hselector, hstep]

theorem serveDecoded_of_illegal {ws : List Word} {w : Word} (hd : decode ws = .illegal w) (s : State) :
    serveDecoded ws s = raise (.illegalCommand w) s := by
  simp only [serveDecoded, hd]

theorem serveDecoded_of_incomplete {ws : List Word} (hd : decode ws = .incomplete) (s : State) :
    serveDecoded ws s = .next s := by
  simp only [serveDecoded, hd]

/-- A raised fault changes the fault record and the answer only (R262). -/
theorem faultOnly_raise (s : State) (f : Cause) :
    FaultOnly s ((s.latch f.code f.info).respond [f.code]) f.code f.info :=
  ⟨rfl, rfl, rfl, rfl, rfl, rfl, rfl, rfl, rfl, rfl⟩

/-- Settles O3: a word that matches no row is rejected at once, one that matches a row for that row's causes; the
rejection is the shared `raise`. -/
theorem illegalCommands : Obligations.IllegalCommands := by
  refine ⟨fun w v ws => ?_, fun s ws w es hp hh hd => ?_⟩
  · cases hrow : Opcode.ofWord w with
    | none =>
      have hnone := Opcode.ofWord_eq_none_iff.1 hrow
      rw [decode_cons_of_no_row hrow, Decoded.illegal.injEq, eq_comm]
      exact (and_iff_left (.inl hnone)).symm
    | some o =>
      have hm := Opcode.matches_of_ofWord hrow
      have hsome : ¬∀ o ∈ Opcode.all, w &&& o.mask ≠ o.matchWord := fun hnone => hnone o o.mem_all hm
      rw [decode_cons_of_row hrow, decodeRow_eq_illegal_iff hm, rowIllegal_iff hm, or_iff_right hsome]
  · refine ⟨_, ?_, faultOnly_raise (s.setPending es) (.illegalCommand w)⟩
    rw [step_eq_serveDecoded hp hh, serveDecoded_of_illegal hd]
    rfl

theorem step_eq_serveHalted {s : State} {w : Word} {ws : List Word} {es : List HostEvent}
    (hp : s.pending = .command (w :: ws) :: es) (hh : halted s = true) :
    step s = serveHalted w ws (s.setPending es) := by
  simp only [step, serveNext, hp, serve, halted_setPending, hh, if_true]

/-- Settles O9: only `SYS.STATUS` puts back the words behind it. -/
theorem queueAfterRejection : Obligations.QueueAfterRejection := by
  intro s w ws es hp
  have hstatus : Opcode.sysStatus.matchWord = 0#32 := by decide
  refine ⟨fun hh hw => ?_, fun hh hw => ?_, fun hh hd => ?_⟩
  · refine ⟨(s.setPending es).respond [s.sys.fault.code], ?_, rfl⟩
    rw [step_eq_serveHalted hp hh, serveHalted, if_neg (hstatus ▸ hw)]
    rfl
  · refine ⟨((s.setPending es).requeue ws).respond [0#32, s.sys.fault.code, s.sys.fault.info], ?_, ?_⟩
    · rw [step_eq_serveHalted hp hh, serveHalted, if_pos (hstatus ▸ hw), State.requeue_eq]
      exact execSysStatus_eq_next.2 rfl
    · rw [State.respond_pending, State.requeue_eq, State.setPending_pending, State.setPending_pending]
  · obtain ⟨v, hd⟩ := hd
    exact ⟨_, (step_eq_serveDecoded hp hh).trans (serveDecoded_of_illegal hd _), by rfl⟩

/-- Settles O13: with no event the step is the identity; an incomplete sequence is dropped and nothing else happens. -/
theorem idleAndIncomplete : Obligations.IdleAndIncomplete := by
  refine ⟨fun s hp => ?_, fun s ws es hp hh hd => ?_⟩
  · simp only [step, serveNext, hp]
  · rw [step_eq_serveDecoded hp hh, serveDecoded_of_incomplete hd]

end Sys2Proof.Machine

/-! A command that goes on completes or raises, and does not touch the host's queue (O14; R80, R261, R262). -/

namespace Sys2Proof.Machine

/-- What `t` shows of a command that went on from `s`: it was answered `ST = 0` with the fault record kept, or one fault
was raised and changed nothing else (R80, R262). -/
def Precise (s t : State) : Prop :=
  t.pending = s.pending
    ∧ ((∃ rs, t.response = 0#32 :: rs ∧ t.sys.fault = s.sys.fault) ∨ ∃ f : Cause, FaultOnly s t f.code f.info)

/-- A completed command: whatever state it made, the queue and the record are the old ones. -/
theorem Precise.completed {s u : State} (hq : u.pending = s.pending) (hf : u.sys.fault = s.sys.fault)
    (rs : List Word) : Precise s (u.respond (0#32 :: rs)) :=
  ⟨hq, .inl ⟨rs, rfl, hf⟩⟩

theorem Precise.raised (s : State) (f : Cause) : Precise s ((s.latch f.code f.info).respond [f.code]) :=
  ⟨rfl, .inr ⟨f, faultOnly_raise s f⟩⟩

theorem precise_bqSet {k : Design} {c : Channel} {j : Slot} {fc : Sample} {s t : State}
    (h : bqSet k c j fc s = .next t) : Precise s t := by
  obtain ⟨-, -, rfl⟩ := bqSet_eq_next.1 h
  exact .completed (by rfl) (by rfl) _

/-- The channels' frames leave the system registers and the queue, so a completed `SYS.STEP` keeps both (R233). -/
theorem precise_sysStep {p : StepControls} {vs : List VoiceIn} {s t : State} (h : execSysStep p vs s = .next t) :
    Precise s t := by
  rcases execSysStep_eq_next.1 h with ⟨-, rfl⟩ | ⟨-, -, -, u, hu, rfl⟩
  · exact .raised s (.illegalCommand 0x03000000#32)
  · obtain ⟨-, -, hsys, -, -, -, -, hpending, -⟩ := stepChannels_eq_next (activeChannels_nodup vs) hu
    have hfault : u.sys.fault = s.sys.fault := congrArg System.fault hsys
    exact Precise.completed (u := finishStep vs.length u) hpending hfault _

theorem exec_precise {i : Instr} {s t : State} (h : exec i s = .next t) : Precise s t := by
  cases i with
  | sysStatus => rw [execSysStatus_eq_next.1 h]; exact .completed (by rfl) (by rfl) _
  | sysSetRate r => obtain ⟨-, rfl⟩ := execSysSetRate_eq_next.1 h; exact .completed (by rfl) (by rfl) _
  | sysInit =>
    obtain ⟨-, ⟨-, rfl⟩ | ⟨-, rfl⟩⟩ := execSysInit_eq_next.1 h
    · exact .completed (by rfl) (by rfl) _
    · exact .raised s .cbSize
  | sysStep p vs => exact precise_sysStep h
  | lutConfig l lo hi iv =>
    obtain ⟨-, rfl⟩ | ⟨-, rfl⟩ := execLutConfig_eq_next.1 h
    · exact .completed (by rfl) (by rfl) _
    · exact .raised s .lutHeader
  | lutWrite l n v =>
    obtain ⟨-, ⟨-, rfl⟩ | ⟨-, rfl⟩⟩ | ⟨-, rfl⟩ := execLutWrite_eq_next.1 h
    · exact .completed (by rfl) (by rfl) _
    · exact .raised s .lutIndex
    · exact .raised s .lutEmpty
  | lutEval l x =>
    obtain ⟨-, y, -, rfl⟩ | ⟨-, rfl⟩ := execLutEval_eq_next.1 h
    · exact .completed (by rfl) (by rfl) _
    · exact .raised s .lutEmpty
  | lutEvalv l x0 x1 x2 x3 =>
    obtain ⟨_, _, _, _, -, rfl⟩ | ⟨f, rfl⟩ := execLutEvalv_eq_next h
    · exact .completed (by rfl) (by rfl) _
    · exact .raised s f
  | cbReset c n =>
    obtain ⟨-, rfl⟩ | ⟨-, rfl⟩ := execCbReset_eq_next.1 h
    · exact .completed (by rfl) (by rfl) _
    · exact .raised s .cbSize
  | cbPush c v => obtain ⟨-, rfl⟩ := execCbPush_eq_next.1 h; exact .completed (by rfl) (by rfl) _
  | cbWrat c d v => obtain ⟨-, rfl⟩ := execCbWrat_eq_next.1 h; exact .completed (by rfl) (by rfl) _
  | cbAddat c d v => obtain ⟨-, rfl⟩ := execCbAddat_eq_next.1 h; exact .completed (by rfl) (by rfl) _
  | cbRdi c d => obtain ⟨-, rfl⟩ := execCbRdi_eq_next.1 h; exact .completed (by rfl) (by rfl) _
  | cbRdf c d => obtain ⟨-, -, rfl⟩ := execCbRdf_eq_next.1 h; exact .completed (by rfl) (by rfl) _
  | bqClear c j => rw [execBqClear_eq_next.1 h]; exact .completed (by rfl) (by rfl) _
  | bqProc c j x => obtain ⟨-, -, rfl⟩ := execBqProc_eq_next.1 h; exact .completed (by rfl) (by rfl) _
  | bqSetBwLp2 | bqSetBwHp2 | bqSetLrLp2 | bqSetLrHp2 | bqSetAp1 => exact precise_bqSet h
  | bqLoadc c j a0 a1 a2 b1 b2 c0 d0 => rw [execBqLoadc_eq_next.1 h]; exact .completed (by rfl) (by rfl) _
  | bqProc4 c x => obtain ⟨-, -, rfl⟩ := execBqProc4_eq_next.1 h; exact .completed (by rfl) (by rfl) _
  | bqProcv g j x0 x1 x2 x3 => obtain ⟨-, rfl⟩ := execBqProcv_eq_next.1 h; exact .completed (by rfl) (by rfl) _
  | cmpSetTimes c a r => obtain ⟨-, -, rfl⟩ := execCmpSetTimes_eq_next.1 h; exact .completed (by rfl) (by rfl) _
  | cmpSetCurve c th ra => obtain ⟨-, rfl⟩ := execCmpSetCurve_eq_next.1 h; exact .completed (by rfl) (by rfl) _
  | cmpProc c x => obtain ⟨-, rfl⟩ := execCmpProc_eq_next.1 h; exact .completed (by rfl) (by rfl) _
  | wsWrite k n v =>
    obtain ⟨-, rfl⟩ | ⟨-, rfl⟩ := execWsWrite_eq_next.1 h
    · exact .completed (by rfl) (by rfl) _
    · exact .raised s .wsIndex
  | wsEval k x => obtain ⟨-, -, _, -, rfl⟩ := execWsEval_eq_next.1 h; exact .completed (by rfl) (by rfl) _

/-- Settles O14: every command's outcomes are answers of a state with the old queue and record, or raised faults. -/
theorem commandsArePrecise : Obligations.CommandsArePrecise := fun _ _ _ => exec_precise

end Sys2Proof.Machine

/-! The lookup tables (O24 to O28, O46): what a header, a cell and a lane decide, and the commands of the table (R102 to
R108; logs 16, 18, 21). -/

namespace Sys2Proof.Machine

/-! ### Frames and cells -/

theorem sameButAnswer_respond (s : State) (ws : List Word) : SameButAnswer s (s.respond ws) :=
  ⟨rfl, rfl, rfl, rfl, rfl, rfl, rfl, rfl, rfl⟩

theorem onlyLut_setLut (s : State) (l : TableId) (x : Lut) (ws : List Word) :
    OnlyLut l s ((s.setLut l x).respond ws) :=
  ⟨rfl, fun u hu => (s.lut_setLut l u x).trans (if_neg hu), rfl, rfl, rfl, rfl, rfl, rfl, rfl⟩

theorem State.lut_setLut_same (s : State) (l : TableId) (x : Lut) : (s.setLut l x).lut[l] = x :=
  (s.lut_setLut l l x).trans (if_pos rfl)

/-- Every cell of a table memory reads as a value: an unlisted one as 0 (R102). -/
theorem Mem.read_table (m : Mem) (i : Nat) :
    Mem.read .table m i = some ((Mem.read .table m i).getD F32.zero) := by
  unfold Mem.read
  cases Mem.find m i <;> rfl

/-! ### The header (R102, R104) -/

/-- A header that `LUT.CONFIG` accepts, with the length check over the exact values (R102). -/
theorem lutHeader_accepted_iff {lo hi iv : Sample} :
    headerOk lo hi iv = true ∧ tableLength lo hi iv ≤ Config.lutLmax
      ↔ F32.isFinite lo = true ∧ F32.isFinite hi = true ∧ F32.isFinite iv = true ∧ F32.lt lo hi = true
          ∧ F32.lt F32.zero iv = true ∧ F32.toUnits hi - F32.toUnits lo ≤ 65535 * F32.toUnits iv := by
  have hlen : headerOk lo hi iv = true → (tableLength lo hi iv ≤ Config.lutLmax
      ↔ F32.toUnits hi - F32.toUnits lo ≤ 65535 * F32.toUnits iv) := tableLength_le
  rw [and_congr_right hlen, headerOk_iff]
  simp only [and_assoc]

/-- Settles O24: an accepted header is stored with its `tableLength` and no listed cell, any other is raised. -/
theorem lutConfigResult : Obligations.LutConfigResult := by
  intro s l lo hi iv ok
  refine ⟨fun hok => ?_, fun hok => ?_⟩
  · have haccepted := lutHeader_accepted_iff.2 hok
    obtain ⟨hmin, hreach, hleast⟩ := tableLength_spec haccepted.1
    have hlut := s.lut_setLut_same l ⟨true, lo, hi, iv, tableLength lo hi iv, []⟩
    refine ⟨_, tableLength lo hi iv, execLutConfig_eq_next.2 (.inl ⟨haccepted, rfl⟩), hmin, haccepted.2, hreach,
      hleast, rfl, ?_⟩
    simp only [f32, State.respond_lut, hlut, true_and]
    exact ⟨fun _ => rfl, onlyLut_setLut s l _ _⟩
  · exact ⟨_, execLutConfig_eq_next.2 (.inr ⟨mt lutHeader_accepted_iff.1 hok, rfl⟩), faultOnly_raise s .lutHeader⟩

/-- Settles O25: the two faults in order, then one `Mem.write` on the table's own memory. -/
theorem lutWriteResult : Obligations.LutWriteResult := by
  intro s l i v
  refine ⟨fun hv => ?_, fun hv hi => ?_, fun hv hi => ?_⟩
  · exact ⟨_, execLutWrite_eq_next.2 (.inr ⟨Bool.eq_false_iff.1 hv, rfl⟩), faultOnly_raise s .lutEmpty⟩
  · exact ⟨_, execLutWrite_eq_next.2 (.inl ⟨hv, .inr ⟨Nat.not_lt.2 hi, rfl⟩⟩), faultOnly_raise s .lutIndex⟩
  · refine ⟨_, execLutWrite_eq_next.2 (.inl ⟨hv, .inl ⟨hi, rfl⟩⟩), rfl, ?_⟩
    simp only [f32, State.respond_lut, State.lut_setLut_same, hv, true_and]
    exact ⟨Mem.read_write_same .table _ _ _, fun j hj => Mem.read_write_other .table _ (Ne.symm hj) _,
      onlyLut_setLut s l _ _⟩

/-! ### Evaluation (R106) -/

theorem exec_lutEval_of_not_valid {s : State} {l : TableId} (hv : (s.lut[l]).valid = false) (x : Word) :
    ∃ t, exec (.lutEval l x) s = .next t ∧ FaultOnly s t 2#32 2#32 :=
  ⟨_, execLutEval_eq_next.2 (.inr ⟨Bool.eq_false_iff.1 hv, rfl⟩), faultOnly_raise s .lutEmpty⟩

/-- On a valid table of two samples or more `LUT.EVAL` answers every finite operand with the interpolation at the
clamped index, and changes nothing (R106). -/
theorem exec_lutEval_of_valid {s : State} {l : TableId} {x : Word} (hv : (s.lut[l]).valid = true)
    (hlen : 2 ≤ (s.lut[l]).length) (hx : F32.isFinite x = true) :
    ∃ (t : State) (a b : Sample), exec (.lutEval l x) s = .next t
      ∧ Mem.read .table (s.lut[l]).samples ((s.lut[l]).clampIndex ((s.lut[l]).index x)).toNat = some a
      ∧ Mem.read .table (s.lut[l]).samples (((s.lut[l]).clampIndex ((s.lut[l]).index x)).toNat + 1) = some b
      ∧ t.response = [0#32, F32.lerp a b ((s.lut[l]).fraction x)] ∧ SameButAnswer s t :=
  ⟨_, _, _, execLutEval_eq_next.2 (.inl ⟨hv, _, Lut.evalScalar_eq hlen hx, rfl⟩), Mem.read_table _ _,
    Mem.read_table _ _, rfl, sameButAnswer_respond s _⟩

/-- Settles O26: with a finite quotient the index is its floor and the fraction what the floor leaves of it. -/
theorem lutEvalResult : Obligations.LutEvalResult := by
  intro s l x T q i
  refine ⟨fun hv => exec_lutEval_of_not_valid hv x, fun hv hlen hx hq => ?_⟩
  obtain ⟨hindex, hfraction⟩ := Lut.index_fraction_of_finite (l := T) (x := x) hq
  have h := exec_lutEval_of_valid hv hlen hx
  rwa [hindex, hfraction] at h

/-! ### Quotients that overflow (log 16) -/

theorem Lut.interval_pos {l : Lut} (h : l.good) (hv : l.valid = true) : 0 < F32.toUnits l.interval := by
  obtain ⟨hheader, -⟩ := h.2.2 hv
  obtain ⟨-, -, -, -, hpos⟩ := headerOk_iff.1 hheader
  exact F32.toUnits_lt_of_lt hpos

/-- An abscissa that lies in one of the table's intervals is in the table. -/
theorem Lut.not_outside_of_offset {l : Lut} {x : Sample} (hd : 0 < F32.toUnits l.interval)
    (h0 : 0 ≤ l.offset x / F32.toUnits l.interval)
    (h1 : l.offset x / F32.toUnits l.interval ≤ (l.length : Int) - 2) : l.outside x = false := by
  have hlow : 0 ≤ l.offset x := (Int.ediv_nonneg_iff_of_pos hd).1 h0
  have hhigh : l.offset x < ((l.length : Int) - 1) * F32.toUnits l.interval :=
    (Int.ediv_lt_iff_lt_mul hd).1 (by omega)
  refine Bool.eq_false_iff.2 fun hout => ?_
  rcases Lut.outside_iff.1 hout with h | h <;> omega

/-- On a loaded curve `WS.EVAL` answers every finite operand from an even index, and changes nothing (R203). -/
theorem exec_wsEval_of_loaded {s : State} {k : CurveId} {x : Word} (hgood : curveGood s.ws[k])
    (hloaded : ∀ i, i < 4096 → Mem.read .curve s.ws[k] i ≠ none) (hx : F32.isFinite x = true) :
    ∃ (t : State) (idx : Nat) (a b f : Sample), exec (.wsEval k x) s = .next t
      ∧ idx % 2 = 0 ∧ idx ≤ 4094
      ∧ Mem.read .curve s.ws[k] idx = some a ∧ Mem.read .curve s.ws[k] (idx + 1) = some b
      ∧ t.response = [0#32, F32.lerp a b f] ∧ SameButAnswer s t := by
  obtain ⟨-, heven, hmax⟩ := wsIndex_eq x
  obtain ⟨a, b, ha, hb, hcurve⟩ := curveAt_completes hloaded x
  exact ⟨_, wsIndex x, a, b, _, execWsEval_eq_next.2 ⟨(curveLoaded_iff hgood).2 hloaded, hx, _, hcurve, rfl⟩, heven,
    hmax, ha, hb, rfl, sameButAnswer_respond s _⟩

/-- Settles O27: the index is that of the interval the operand lies in; inside the table the clamp keeps it and the
fraction is the exact one, rounded. -/
theorem overflowedQuotients : Obligations.OverflowedQuotients := by
  intro s l k x hx T q n d
  refine ⟨fun hgood hv hq => ?_, fun hgood hloaded => exec_wsEval_of_loaded hgood hloaded hx⟩
  have hlen : 2 ≤ T.length := (hgood.2.2 hv).2.2.1
  obtain ⟨hindex, hfraction⟩ := Lut.index_fraction_of_overflow (l := T) (x := x) hq
  have h := exec_lutEval_of_valid hv hlen hx
  rw [hindex] at h
  obtain ⟨t, a, b, hexec, ha, hb, hresponse, hframe⟩ := h
  refine ⟨t, a, b, T.fraction x, hexec, ha, hb, hresponse, hframe, fun hlow hhigh => ?_, fun h0 h1 => ?_⟩
  · exact Lut.offset_of_not_outside hlen (Lut.outside_of_domain hgood hv hlow hhigh)
  · exact hfraction (Lut.not_outside_of_offset (Lut.interval_pos hgood hv) h0 h1)

/-! ### The vector path (R108, R267) -/

/-- Lane `j` is the lowest of the four that `LUT.EVALV` faults on (R267). -/
def Lut.LowestOut (l : Lut) (x : Fin 4 → Sample) (j : Fin 4) : Prop :=
  l.laneOut (x j) = true ∧ ∀ k, k < j → l.laneOut (x k) = false

theorem Lut.firstOut_lanes_eq_none {l : Lut} {x : Fin 4 → Sample} :
    l.firstOut 0 [x 0, x 1, x 2, x 3] = none ↔ ∀ j, l.laneOut (x j) = false := by
  rw [Lut.firstOut_eq_none, show [x 0, x 1, x 2, x 3] = List.ofFn x from rfl]
  exact List.forall_mem_ofFn_iff

theorem Lut.firstOut_lanes_eq_some {l : Lut} {x : Fin 4 → Sample} {n : Nat} :
    l.firstOut 0 [x 0, x 1, x 2, x 3] = some n ↔ ∃ j : Fin 4, n = j.val ∧ l.LowestOut x j := by
  rw [Lut.firstOut_eq_some, show [x 0, x 1, x 2, x 3] = List.ofFn x from rfl]
  simp only [List.getElem_ofFn, List.length_ofFn, Nat.zero_add, Lut.LowestOut]
  constructor
  · rintro ⟨i, hi, hn, hout, hlow⟩
    exact ⟨⟨i, hi⟩, hn, hout, fun k hk => hlow k.val hk⟩
  · rintro ⟨j, rfl, hout, hlow⟩
    exact ⟨j.val, j.isLt, rfl, hout, fun k hk => hlow ⟨k, by omega⟩ hk⟩

/-- Everything `LUT.EVALV` can go on with: the lowest lane out of range is raised, four lanes in range are answered, a
table not valid is raised (R108). -/
theorem execLutEvalv_eq_next_iff {s t : State} {l : TableId} {x : Fin 4 → Word} :
    execLutEvalv l (x 0) (x 1) (x 2) (x 3) s = .next t
      ↔ ((s.lut[l]).valid = true ∧ (∀ j, F32.isFinite (x j) = true)
          ∧ ((∃ j, (s.lut[l]).LowestOut x j
                ∧ t = (s.latch 3#32 (BitVec.ofNat 32 (l.val * 256 + j.val))).respond [3#32])
              ∨ ((∀ j, (s.lut[l]).laneOut (x j) = false)
                ∧ ∃ y : Fin 4 → Sample, (∀ j, (s.lut[l]).evalLane (x j) = .next (y j))
                  ∧ t = s.respond [0#32, y 0, y 1, y 2, y 3])))
        ∨ (¬(s.lut[l]).valid = true ∧ t = (s.latch 2#32 2#32).respond [2#32]) := by
  have hfinite : (F32.isFinite (x 0) && F32.isFinite (x 1) && F32.isFinite (x 2) && F32.isFinite (x 3)) = true
      ↔ ∀ j, F32.isFinite (x j) = true := by
    simp [Fin.forall_fin_succ, and_assoc]
  simp only [execLutEvalv, f32, ite_raise_eq_next, require_eq_next, hfinite]
  refine or_congr_left (and_congr_right fun _ => and_congr_right fun _ => ⟨fun h => ?_, ?_⟩)
  · cases hfirst : (s.lut[l]).firstOut 0 [x 0, x 1, x 2, x 3] with
    | some n =>
      obtain ⟨j, rfl, hlow⟩ := Lut.firstOut_lanes_eq_some.1 hfirst
      rw [hfirst] at h
      exact .inl ⟨j, hlow, raise_eq_next.1 h⟩
    | none =>
      rw [hfirst] at h
      simp only [andThen_eq_next, answer_eq_next] at h
      obtain ⟨y0, h0, y1, h1, y2, h2, y3, h3, rfl⟩ := h
      refine .inr ⟨Lut.firstOut_lanes_eq_none.1 hfirst, ![y0, y1, y2, y3], ?_, rfl⟩
      simp only [Fin.forall_fin_succ]
      exact ⟨h0, h1, h2, h3, finZeroElim⟩
  · rintro (⟨j, hlow, rfl⟩ | ⟨hin, y, hy, rfl⟩)
    · rw [Lut.firstOut_lanes_eq_some.2 ⟨j, rfl, hlow⟩]
      rfl
    · rw [Lut.firstOut_lanes_eq_none.2 hin]
      simp only [hy, andThen_next]
      rfl

/-- Settles O28: `out` is the model's own lane test, and in range the vector path is the scalar one on each lane. -/
theorem lutEvalvResult : Obligations.LutEvalvResult := by
  intro s l x T i q n out
  have hout : ∀ j, out j ↔ T.laneOut (x j) = true := fun j => Lut.laneOut_iff.symm
  simp only [hout, Bool.not_eq_true]
  refine ⟨fun hv => ?_, fun hv hx => ⟨fun j hj hlow => ?_, fun hlen hin => ?_⟩⟩
  · exact ⟨_, execLutEvalv_eq_next_iff.2 (.inr ⟨Bool.eq_false_iff.1 hv, rfl⟩), faultOnly_raise s .lutEmpty⟩
  · exact ⟨_, execLutEvalv_eq_next_iff.2 (.inl ⟨hv, hx, .inl ⟨j, ⟨hj, hlow⟩, rfl⟩⟩),
      faultOnly_raise s (.bounds l j.val)⟩
  · have hscalar := fun j => Lut.evalScalar_eq hlen (hx j)
    have hlane := fun j => (Lut.evalLane_eq hlen (hx j) (hin j)).trans (hscalar j)
    exact ⟨_, _, _, execLutEvalv_eq_next_iff.2 (.inl ⟨hv, hx, .inr ⟨hin, _, hlane, rfl⟩⟩),
      fun j => ⟨execLutEval_eq_next.2 (.inl ⟨hv, _, hscalar j, rfl⟩), rfl⟩, rfl, sameButAnswer_respond s _⟩

/-! ### Refusals (U1) -/

theorem require_of_false {α : Type} {ok : Bool} (h : ok = false) (r : Refusal) (x : Answer α) :
    require ok r x = .refused r := by
  rw [h]; rfl

/-- Settles O46: a valid table refuses before it evaluates, a curve is tested before its operand. -/
theorem lutWsRefusals : Obligations.LutWsRefusals := by
  intro s l k x x0 x1 x2 x3
  refine ⟨fun hv hx => ?_, fun hv hx => ?_, fun hgood hempty => ?_, fun hloaded hgood hx => ?_⟩
  · show execLutEval l x s = _
    rw [execLutEval, if_pos hv, Lut.evalScalar, f32, require_of_false hx]
    rfl
  · have hlanes : (F32.isFinite x0 && F32.isFinite x1 && F32.isFinite x2 && F32.isFinite x3) = false := by
      simpa only [Bool.and_eq_false_iff, or_assoc] using hx
    show execLutEvalv l x0 x1 x2 x3 s = _
    rw [execLutEvalv, if_pos hv]
    exact require_of_false hlanes _ _
  · have hnot : curveLoaded s.ws[k] = false := by
      obtain ⟨i, hi, hnone⟩ := hempty
      exact Bool.eq_false_iff.2 fun h => (curveLoaded_iff hgood).1 h i hi hnone
    exact require_of_false hnot _ _
  · show execWsEval k x s = _
    rw [execWsEval, (curveLoaded_iff hgood).2 hloaded, require_true]
    exact require_of_false hx _ _

end Sys2Proof.Machine

/-! The sources of the faults (O15): which command raises which fault of R261, and under which condition. -/

namespace Sys2Proof.Machine

/-- R261, "raised by": command `i` can raise this fault in state `s`. -/
inductive Raises (s : State) : Instr → Cause → Prop
  | tooManyVoices (p : StepControls) (vs : List VoiceIn) (h : 16 < vs.length) :
      Raises s (.sysStep p vs) (.illegalCommand 0x03000000#32)
  | header (l : TableId) (lo hi iv : Word)
      (h : ¬(headerOk lo hi iv = true ∧ tableLength lo hi iv ≤ Config.lutLmax)) :
      Raises s (.lutConfig l lo hi iv) .lutHeader
  | emptyWrite (l : TableId) (n v : Word) (h : (s.lut[l]).valid = false) : Raises s (.lutWrite l n v) .lutEmpty
  | emptyEval (l : TableId) (x : Word) (h : (s.lut[l]).valid = false) : Raises s (.lutEval l x) .lutEmpty
  | emptyEvalv (l : TableId) (x0 x1 x2 x3 : Word) (h : (s.lut[l]).valid = false) :
      Raises s (.lutEvalv l x0 x1 x2 x3) .lutEmpty
  | index (l : TableId) (n v : Word) (hv : (s.lut[l]).valid = true) (h : (s.lut[l]).length ≤ u32 n) :
      Raises s (.lutWrite l n v) .lutIndex
  | initSize (h : 2 ^ 20 < ksMinSize s.sys.sampleRate) : Raises s .sysInit .cbSize
  | ringSize (c : Channel) (n : Word) (h : 2 ^ 20 < u32 n) : Raises s (.cbReset c n) .cbSize
  | curveIndex (k : CurveId) (n v : Word) (h : 4096 ≤ u32 n) : Raises s (.wsWrite k n v) .wsIndex
  | lane (l : TableId) (x : Fin 4 → Word) (j : Fin 4) (hv : (s.lut[l]).valid = true) (h : (s.lut[l]).LowestOut x j) :
      Raises s (.lutEvalv l (x 0) (x 1) (x 2) (x 3)) (.bounds l j.val)

/-- `t` is answered `ST = 0`, or is `s` after a fault that `i` can raise. -/
def CompletesOrRaises (i : Instr) (s t : State) : Prop :=
  (∃ rs, t.response = 0#32 :: rs) ∨ ∃ f, Raises s i f ∧ t = (s.latch f.code f.info).respond [f.code]

theorem CompletesOrRaises.completed {i : Instr} {s : State} (u : State) (rs : List Word) :
    CompletesOrRaises i s (u.respond (0#32 :: rs)) :=
  .inl ⟨rs, rfl⟩

theorem CompletesOrRaises.raised {i : Instr} {s : State} {f : Cause} (h : Raises s i f) :
    CompletesOrRaises i s ((s.latch f.code f.info).respond [f.code]) :=
  .inr ⟨f, h, rfl⟩

theorem completesOrRaises_bqSet {i : Instr} {k : Design} {c : Channel} {j : Slot} {fc : Sample} {s t : State}
    (h : bqSet k c j fc s = .next t) : CompletesOrRaises i s t := by
  obtain ⟨-, -, rfl⟩ := bqSet_eq_next.1 h
  exact .completed _ _

/-- A capacity that does not fit the largest ring is above `2 ^ 20` (R16, R124). -/
theorem lt_of_not_npow2Log_le {n : Nat} (h : ¬npow2Log n ≤ Config.cbKmax) : 2 ^ 20 < n :=
  Nat.not_le.1 (mt npow2Log_le h)

theorem completesOrRaises_lutEvalv {l : TableId} {x : Fin 4 → Word} {s t : State}
    (h : execLutEvalv l (x 0) (x 1) (x 2) (x 3) s = .next t) :
    CompletesOrRaises (.lutEvalv l (x 0) (x 1) (x 2) (x 3)) s t := by
  obtain ⟨hv, -, ⟨j, hlow, rfl⟩ | ⟨-, y, -, rfl⟩⟩ | ⟨hv, rfl⟩ := execLutEvalv_eq_next_iff.1 h
  · exact .raised (.lane l x j hv hlow)
  · exact .completed s _
  · exact .raised (.emptyEvalv l _ _ _ _ (Bool.eq_false_iff.2 hv))

theorem exec_completesOrRaises {i : Instr} {s t : State} (h : exec i s = .next t) : CompletesOrRaises i s t := by
  cases i with
  | sysStatus => rw [execSysStatus_eq_next.1 h]; exact .completed _ _
  | sysSetRate r => obtain ⟨-, rfl⟩ := execSysSetRate_eq_next.1 h; exact .completed _ _
  | sysInit =>
    obtain ⟨-, ⟨-, rfl⟩ | ⟨hk, rfl⟩⟩ := execSysInit_eq_next.1 h
    · exact .completed _ _
    · exact .raised (.initSize (lt_of_not_npow2Log_le hk))
  | sysStep p vs =>
    obtain ⟨hn, rfl⟩ | ⟨-, -, -, u, -, rfl⟩ := execSysStep_eq_next.1 h
    · exact .raised (.tooManyVoices p vs hn)
    · exact .completed _ _
  | lutConfig l lo hi iv =>
    obtain ⟨-, rfl⟩ | ⟨hheader, rfl⟩ := execLutConfig_eq_next.1 h
    · exact .completed _ _
    · exact .raised (.header l lo hi iv hheader)
  | lutWrite l n v =>
    obtain ⟨hv, ⟨-, rfl⟩ | ⟨hn, rfl⟩⟩ | ⟨hv, rfl⟩ := execLutWrite_eq_next.1 h
    · exact .completed _ _
    · exact .raised (.index l n v hv (Nat.not_lt.1 hn))
    · exact .raised (.emptyWrite l n v (Bool.eq_false_iff.2 hv))
  | lutEval l x =>
    obtain ⟨-, y, -, rfl⟩ | ⟨hv, rfl⟩ := execLutEval_eq_next.1 h
    · exact .completed _ _
    · exact .raised (.emptyEval l x (Bool.eq_false_iff.2 hv))
  | lutEvalv l x0 x1 x2 x3 => exact completesOrRaises_lutEvalv (x := ![x0, x1, x2, x3]) h
  | cbReset c n =>
    obtain ⟨-, rfl⟩ | ⟨hk, rfl⟩ := execCbReset_eq_next.1 h
    · exact .completed _ _
    · exact .raised (.ringSize c n (lt_of_not_npow2Log_le hk))
  | cbPush c v => obtain ⟨-, rfl⟩ := execCbPush_eq_next.1 h; exact .completed _ _
  | cbWrat c d v => obtain ⟨-, rfl⟩ := execCbWrat_eq_next.1 h; exact .completed _ _
  | cbAddat c d v => obtain ⟨-, rfl⟩ := execCbAddat_eq_next.1 h; exact .completed _ _
  | cbRdi c d => obtain ⟨-, rfl⟩ := execCbRdi_eq_next.1 h; exact .completed _ _
  | cbRdf c d => obtain ⟨-, -, rfl⟩ := execCbRdf_eq_next.1 h; exact .completed _ _
  | bqClear c j => rw [execBqClear_eq_next.1 h]; exact .completed _ _
  | bqProc c j x => obtain ⟨-, -, rfl⟩ := execBqProc_eq_next.1 h; exact .completed _ _
  | bqSetBwLp2 | bqSetBwHp2 | bqSetLrLp2 | bqSetLrHp2 | bqSetAp1 => exact completesOrRaises_bqSet h
  | bqLoadc c j a0 a1 a2 b1 b2 c0 d0 => rw [execBqLoadc_eq_next.1 h]; exact .completed _ _
  | bqProc4 c x => obtain ⟨-, -, rfl⟩ := execBqProc4_eq_next.1 h; exact .completed _ _
  | bqProcv g j x0 x1 x2 x3 => obtain ⟨-, rfl⟩ := execBqProcv_eq_next.1 h; exact .completed _ _
  | cmpSetTimes c a r => obtain ⟨-, -, rfl⟩ := execCmpSetTimes_eq_next.1 h; exact .completed _ _
  | cmpSetCurve c th ra => obtain ⟨-, rfl⟩ := execCmpSetCurve_eq_next.1 h; exact .completed _ _
  | cmpProc c x => obtain ⟨-, rfl⟩ := execCmpProc_eq_next.1 h; exact .completed _ _
  | wsWrite k n v =>
    obtain ⟨-, rfl⟩ | ⟨hn, rfl⟩ := execWsWrite_eq_next.1 h
    · exact .completed _ _
    · exact .raised (.curveIndex k n v (Nat.not_lt.1 hn))
  | wsEval k x => obtain ⟨-, -, _, -, rfl⟩ := execWsEval_eq_next.1 h; exact .completed _ _

/-- Settles O15: a status that is not 0 comes from a raised fault, and each constructor of `Raises` is in one case of
R261. -/
theorem faultSources : Obligations.FaultSources := by
  intro i s t code h hresponse hcode
  obtain ⟨rs, hrs⟩ | ⟨f, hf, rfl⟩ := exec_completesOrRaises h
  · rw [hresponse] at hrs
    exact absurd (List.cons.inj hrs).1 hcode
  obtain rfl : f.code = code := (List.cons.inj hresponse).1
  cases hf with
  | tooManyVoices p vs hn => exact .inl ⟨rfl, rfl, p, vs, rfl, hn⟩
  | header l lo hi iv hheader =>
    refine .inr <| .inl ⟨rfl, rfl, l, lo, hi, iv, rfl, ?_⟩
    simpa only [lutHeader_accepted_iff, not_and_or, Bool.not_eq_true, not_le] using hheader
  | emptyWrite l n v hv => exact .inr <| .inr <| .inl ⟨rfl, rfl, l, hv, .inl ⟨n, v, rfl⟩⟩
  | emptyEval l x hv => exact .inr <| .inr <| .inl ⟨rfl, rfl, l, hv, .inr <| .inl ⟨x, rfl⟩⟩
  | emptyEvalv l x0 x1 x2 x3 hv =>
    exact .inr <| .inr <| .inl ⟨rfl, rfl, l, hv, .inr <| .inr ⟨x0, x1, x2, x3, rfl⟩⟩
  | index l n v hv hn => exact .inr <| .inr <| .inr <| .inl ⟨rfl, rfl, l, n, v, rfl, hv, hn⟩
  | initSize hn =>
    exact .inr <| .inr <| .inr <| .inr <| .inl ⟨rfl, rfl, .inl ⟨rfl, Int.lt_toNat.1 hn⟩⟩
  | ringSize c n hn => exact .inr <| .inr <| .inr <| .inr <| .inl ⟨rfl, rfl, .inr ⟨c, n, rfl, hn⟩⟩
  | curveIndex k n v hn => exact .inr <| .inr <| .inr <| .inr <| .inr <| .inl ⟨rfl, rfl, k, n, v, rfl, hn⟩
  | lane l x j hv hlow =>
    refine .inr <| .inr <| .inr <| .inr <| .inr <| .inr ⟨rfl, l, x, j, rfl, rfl, hv, ?_, fun k hk => ?_⟩
    · exact Lut.laneOut_iff.1 hlow.1
    · exact mt Lut.laneOut_iff.2 (Bool.eq_false_iff.1 (hlow.2 k hk))

end Sys2Proof.Machine

/-! The rings (O16 to O23): what a store at an offset leaves, the delays of a fractional read, and the CircularBuffer
commands (R121 to R134; log 21). -/

namespace Sys2Proof.Machine

/-! ### Frames and outcomes -/

theorem State.cb_setCb_same (s : State) (c : Channel) (r : Ring) : (s.setCb c r).cb[c] = r :=
  (s.cb_setCb c c r).trans (if_pos rfl)

theorem onlyCb_setCb (s : State) (c : Channel) (r : Ring) (ws : List Word) :
    OnlyCb c s ((s.setCb c r).respond ws) :=
  ⟨rfl, rfl, rfl, fun u hu => (s.cb_setCb c u r).trans (if_neg hu), rfl, rfl, rfl, rfl, rfl⟩

/-- A command that answers with one ring replaced, told by what its result shows. -/
theorem exists_of_exec_setCb {i : Instr} {s : State} {c : Channel} {r : Ring} {ws : List Word}
    (h : exec i s = .next ((s.setCb c r).respond ws)) :
    ∃ t, exec i s = .next t ∧ t.response = ws ∧ t.cb[c] = r ∧ OnlyCb c s t :=
  ⟨_, h, rfl, s.cb_setCb_same c r, onlyCb_setCb s c r ws⟩

theorem andThen_refused {α β : Type} (r : Refusal) (f : α → Answer β) : andThen (.refused r) f = .refused r := rfl

/-! ### The capacity (R16, R124) -/

/-- The capacity for a request is at most `2 ^ k` exactly when the request is (R16). -/
theorem npow2Log_le_iff {n k : Nat} : npow2Log n ≤ k ↔ n ≤ 2 ^ k :=
  ⟨fun h => (le_npow2 n).trans (Nat.pow_le_pow_right (by decide) h), npow2Log_le⟩

theorem Ring.cleared_cellAt (k i : Nat) : (Ring.cleared k).cellAt i = F32.zero := rfl

/-- Settles O16: the capacity is `npow2` of the request, and it fits exactly up to `2 ^ 20`. -/
theorem cbResetResult : Obligations.CbResetResult := by
  intro s c n
  refine ⟨fun hn => ?_, fun hn => ?_⟩
  · obtain ⟨t, hexec, hresponse, hring, hframe⟩ := exists_of_exec_setCb (i := .cbReset c n)
      (execCbReset_eq_next.2 (.inl ⟨npow2Log_le_iff.2 hn, rfl⟩))
    refine ⟨t, npow2Log (u32 n), hexec, le_npow2 _, fun j hj => npow2Log_le hj, hresponse, ?_⟩
    rw [hring]
    exact ⟨rfl, rfl, rfl, rfl, rfl, Ring.cleared_cellAt _, Ring.cleared_readAt _, hframe⟩
  · have hlarge : ¬npow2Log (u32 n) ≤ Config.cbKmax := mt npow2Log_le_iff.1 (Nat.not_le.2 hn)
    exact ⟨_, execCbReset_eq_next.2 (.inr ⟨hlarge, rfl⟩), faultOnly_raise s .cbSize⟩

/-! ### Stores (R126, R128, R130) -/

theorem Ring.push_cellAt_of_ne (r : Ring) (v : Sample) {i : Nat} (h : i ≠ (r.writeIndex + 1) % r.length) :
    (r.push v).cellAt i = r.cellAt i :=
  (r.push_cellAt v i).trans (if_neg h.symm)

/-- Settles O17: by R137 (L1) for the offsets, and the one physical cell of a push. -/
theorem cbPushResult : Obligations.CbPushResult := by
  intro s c v halloc
  obtain ⟨t, hexec, hresponse, hring, hframe⟩ := exists_of_exec_setCb (i := .cbPush c v)
    (execCbPush_eq_next.2 ⟨halloc, rfl⟩)
  refine ⟨t, hexec, hresponse, ?_⟩
  rw [hring]
  exact ⟨halloc, rfl, rfl, Ring.push_readAt_zero _ v, fun d => Ring.push_readAt_succ _ v,
    fun i => Ring.push_cellAt_of_ne _ v, hframe⟩

/-- What `r` shows of a ring that was `old` before `v` was stored, sanitised, at offset `d`: the head and the capacity
are the old ones, and so is every cell but the one at `d`, seen by offset or by physical index. -/
structure Ring.StoredAt (old : Ring) (d : Int) (v : Sample) (r : Ring) : Prop where
  alloc : r.alloc = old.alloc
  k : r.k = old.k
  writeIndex : r.writeIndex = old.writeIndex
  same : r.readAt d = F32.sanitize v
  other : ∀ e : Int, e % (old.length : Int) ≠ d % (old.length : Int) → r.readAt e = old.readAt e
  cells : ∀ i, i ≠ old.cell d → r.cellAt i = old.cellAt i

theorem Ring.storedAt_writeAt (r : Ring) (d : Int) (v : Sample) : r.StoredAt d v (r.writeAt d v) where
  alloc := rfl
  k := rfl
  writeIndex := rfl
  same := (r.writeAt_readAt d d v).trans (if_pos rfl)
  other e he := (r.writeAt_readAt d e v).trans (if_neg he.symm)
  cells i hi := (r.store_cellAt (r.cell d) i v).trans (if_neg hi.symm)

/-- `CB.ADDAT` is `CB.WRAT` of the sum with the old sample. -/
theorem Ring.storedAt_addAt (r : Ring) (d : Int) (v : Sample) :
    r.StoredAt d (F32.add (r.readAt d) v) (r.addAt d v) :=
  r.storedAt_writeAt d (F32.add (r.readAt d) v)

/-- Settles O18: `CB.WRAT` is one store at an offset. -/
theorem cbWratResult : Obligations.CbWratResult := by
  intro s c d v halloc
  obtain ⟨t, hexec, hresponse, hring, hframe⟩ := exists_of_exec_setCb (i := .cbWrat c d v)
    (execCbWrat_eq_next.2 ⟨halloc, rfl⟩)
  have hstored : (s.cb[c]).StoredAt d.toInt v t.cb[c] := hring ▸ Ring.storedAt_writeAt _ d.toInt v
  exact ⟨t, hexec, hresponse, hstored.alloc.trans halloc, hstored.k, hstored.writeIndex, hstored.same, hstored.other,
    hstored.cells, hframe⟩

/-- Settles O19: one store at an offset too; the sum is sanitised as it is stored, so it is finite. -/
theorem cbAddatResult : Obligations.CbAddatResult := by
  intro s c d v halloc
  obtain ⟨t, hexec, hresponse, hring, hframe⟩ := exists_of_exec_setCb (i := .cbAddat c d v)
    (execCbAddat_eq_next.2 ⟨halloc, rfl⟩)
  have hstored : (s.cb[c]).StoredAt d.toInt (F32.add ((s.cb[c]).readAt d.toInt) v) t.cb[c] :=
    hring ▸ Ring.storedAt_addAt _ d.toInt v
  have hfinite : F32.isFinite ((t.cb[c]).readAt d.toInt) = true := by
    rw [hstored.same]; exact F32.isFinite_sanitize _
  exact ⟨t, hexec, hresponse, hstored.alloc.trans halloc, hstored.k, hstored.writeIndex, hstored.same, hfinite,
    hstored.other, hstored.cells, hframe⟩

/-! ### Reads (R132, R134) -/

theorem exec_cbRdi_of_alloc {s : State} {c : Channel} (halloc : (s.cb[c]).alloc = true) (d : Word) :
    exec (.cbRdi c d) s = .next (s.respond [0#32, (s.cb[c]).readAt d.toInt]) :=
  execCbRdi_eq_next.2 ⟨halloc, rfl⟩

/-- Settles O20: the answer depends on the delay modulo the length only. -/
theorem cbRdiResult : Obligations.CbRdiResult := by
  intro s c d halloc
  refine ⟨⟨_, exec_cbRdi_of_alloc halloc d, rfl, sameButAnswer_respond s _⟩,
    fun hgood => Ring.isFinite_cellAt hgood _, fun d' m hd => ?_⟩
  have hmod : d'.toInt % ((s.cb[c]).length : Int) = d.toInt % ((s.cb[c]).length : Int) := by
    rw [hd, Int.add_mul_emod_self_right]
  rw [exec_cbRdi_of_alloc halloc d', exec_cbRdi_of_alloc halloc d, Ring.readAt_congr _ hmod]

/-- Only a value that is not finite has an open fraction (R12; logs 16, 21). -/
theorem F32.fracPart_of_isFinite {a : Sample} (h : F32.isFinite a = true) :
    F32.fracPart a = F32.sub a (F32.i2s (F32.floor a)) :=
  if_pos h

theorem exec_cbRdf_of_delayOk {s : State} {c : Channel} {d : Word} (halloc : (s.cb[c]).alloc = true)
    (hf : F32.isFinite d = true) (h0 : F32.le F32.zero d = true) :
    exec (.cbRdf c d) s = .next (s.respond [0#32, (s.cb[c]).readFrac d]) :=
  execCbRdf_eq_next.2 ⟨halloc, Bool.and_eq_true_iff.2 ⟨hf, h0⟩, rfl⟩

/-- Settles O21: of a finite delay the weight is the written difference, and the floor of one `>= 0` is `>= 0`. -/
theorem cbRdfResult : Obligations.CbRdfResult := by
  intro s c d halloc hf h0
  refine ⟨_, exec_cbRdf_of_delayOk halloc hf h0, F32.floor_nonneg hf h0, ?_, sameButAnswer_respond s _⟩
  rw [State.respond_response, Ring.readFrac, F32.fracPart_of_isFinite hf]

/-- An exact integer has no fraction. -/
theorem F32.fracPart_i2s {n : Nat} (hn : n < 2 ^ 24) : F32.fracPart (F32.i2s n) = F32.zero := by
  obtain ⟨hf, -, hfloor⟩ := F32.i2s_nat n hn
  rw [F32.fracPart_of_isFinite hf, hfloor, F32.sub_self hf]

/-- R137 (L5) where it holds in binary32 (log 21). -/
theorem Ring.readFrac_i2s {r : Ring} {n : Nat} (hn : n < 2 ^ 24) (hf : F32.isFinite (r.readAt n) = true)
    (hz : r.readAt n ≠ 0x80000000#32)
    (hd : F32.isFinite (F32.sub (r.readAt (n + 1)) (r.readAt n)) = true) :
    r.readFrac (F32.i2s n) = r.readAt n := by
  obtain ⟨-, -, hfloor⟩ := F32.i2s_nat n hn
  rw [Ring.readFrac, F32.fracPart_i2s hn, hfloor, F32.lerp_zero hf hz hd]

/-- Settles O22: `i2s` is exact, so the weight is 0 and the interpolation gives its first end. -/
theorem cbRdfAtInteger : Obligations.CbRdfAtInteger := by
  intro s c n hn halloc hf hz hd
  obtain ⟨hfinite, hsign, -⟩ := F32.i2s_nat n hn
  refine ⟨_, exec_cbRdf_of_delayOk halloc hfinite (F32.le_zero_of_sign hfinite hsign), ?_,
    sameButAnswer_respond s _⟩
  rw [State.respond_response, Ring.readFrac_i2s hn hf hz hd]

/-! ### Refusals (U1, U2) -/

theorem Ring.tap_of_not_alloc {r : Ring} (h : r.alloc = false) (d : Sample) : r.tap d = .refused .notAllocated :=
  require_of_false h _ _

theorem Ring.tap_of_outside {r : Ring} {d : Sample} (ha : r.alloc = true)
    (hd : F32.isFinite d = false ∨ F32.le F32.zero d = false) : r.tap d = .refused .delayOutsideDomain := by
  rw [Ring.tap, ha, require_true]
  exact require_of_false (Bool.and_eq_false_iff.2 hd) _ _

/-- A fractional read is refused as its tap is. -/
theorem exec_cbRdf_of_refused {s : State} {c : Channel} {d : Word} {r : Refusal}
    (h : (s.cb[c]).tap d = .refused r) : exec (.cbRdf c d) s = .refused r :=
  (congrArg (fun x => andThen x fun y => answer s [y]) h).trans (andThen_refused r _)

/-- Settles O23: the four other commands test `alloc` themselves, `CB.RDF` in its tap, before the delay. -/
theorem cbRefusals : Obligations.CbRefusals := by
  intro s c d v
  refine ⟨fun halloc => ?_, fun halloc hd => exec_cbRdf_of_refused (Ring.tap_of_outside halloc hd)⟩
  exact ⟨require_of_false halloc _ _, require_of_false halloc _ _, require_of_false halloc _ _,
    require_of_false halloc _ _, exec_cbRdf_of_refused (Ring.tap_of_not_alloc halloc d)⟩

end Sys2Proof.Machine

/-! The BiQuad commands (O29 to O36) and the refusals of the BQ and CMP commands (O43): a sample through one section,
through two in turn and through four lanes, the gate of a design, and the values a command reads (R152 to R170, R184 to
R186; logs 5, 6 and 23). -/

namespace Sys2Proof.Machine

/-! ### Frames and outcomes -/

theorem State.getBq_setBq_of_ne (s : State) {c d : Channel} {j i : Slot} (q : Biquad) (h : (d, i) ≠ (c, j)) :
    (s.setBq c j q).getBq d i = s.getBq d i :=
  (s.getBq_setBq c d j i q).trans (if_neg fun ⟨hd, hi⟩ => h (Prod.ext hd hi))

theorem onlyBq_setBq (s : State) (c : Channel) (j : Slot) (q : Biquad) (ws : List Word) :
    OnlyBq c j s ((s.setBq c j q).respond ws) :=
  ⟨rfl, rfl, rfl, rfl, fun _ _ hne => s.getBq_setBq_of_ne q hne, rfl, rfl, rfl, rfl⟩

/-- A command that answers with one section replaced, told by what its result shows. -/
theorem exists_of_exec_setBq {i : Instr} {s : State} {c : Channel} {j : Slot} {q : Biquad} {ws : List Word}
    (h : exec i s = .next ((s.setBq c j q).respond ws)) :
    ∃ t, exec i s = .next t ∧ t.response = ws ∧ t.getBq c j = q ∧ OnlyBq c j s t :=
  ⟨_, h, rfl, s.getBq_setBq_same c j q, onlyBq_setBq s c j q ws⟩

/-- The two states agree on all but the sections and the answer. -/
def SameButBq (s t : State) : Prop :=
  t.sys = s.sys ∧ t.lut = s.lut ∧ t.ws = s.ws ∧ t.cb = s.cb ∧ t.cmp = s.cmp ∧ t.ks = s.ks ∧ SameHost s t

theorem SameButBq.refl (s : State) : SameButBq s s := ⟨rfl, rfl, rfl, rfl, rfl, rfl, rfl, rfl⟩

theorem SameButBq.setBq {s t : State} (h : SameButBq s t) (c : Channel) (j : Slot) (q : Biquad) :
    SameButBq s (t.setBq c j q) := h

theorem SameButBq.respond {s t : State} (h : SameButBq s t) (ws : List Word) : SameButBq s (t.respond ws) := h

/-! ### A sample through one section (R152), its memory and its coefficients (R154, R156) -/

theorem exec_bqProc_of_getBq {s : State} {c : Channel} {j : Slot} {q : Biquad} (hq : s.getBq c j = q)
    (hcoef : q.coefHeld = true) (hmem : q.memHeld = true) (x : Word) :
    exec (.bqProc c j x) s = .next ((s.setBq c j (q.advance x)).respond [0#32, q.mixed x]) := by
  subst hq
  exact execBqProc_eq_next.2 ⟨hcoef, hmem, rfl⟩

/-- Settles O29: the model's recurrence, in the block's arithmetic, is the sum written out. -/
theorem bqProcResult : Obligations.BqProcResult :=
  fun _ _ _ x hcoef hmem => exists_of_exec_setBq (exec_bqProc_of_getBq rfl hcoef hmem x)

/-- Settles O30: `clear()` writes the four memory cells of its section. -/
theorem bqClearResult : Obligations.BqClearResult :=
  fun _ c j => exists_of_exec_setBq (i := .bqClear c j) (execBqClear_eq_next.2 rfl)

/-- Settles O31: the seven operands go to the seven coefficients of the section. -/
theorem bqLoadcResult : Obligations.BqLoadcResult :=
  fun _ c j a0 a1 a2 b1 b2 c0 d0 =>
    exists_of_exec_setBq (i := .bqLoadc c j a0 a1 a2 b1 b2 c0 d0) (execBqLoadc_eq_next.2 rfl)

/-! ### The block's numerics (R159; logs 11 and 23). -/

@[simp] theorem numerics_zero (p : Params) : (numerics p).zero = F32.zero := rfl
@[simp] theorem numerics_one (p : Params) : (numerics p).one = F32.one := rfl
@[simp] theorem numerics_two (p : Params) : (numerics p).two = F32.two := rfl
@[simp] theorem numerics_add (p : Params) : (numerics p).add = F32.add := rfl
@[simp] theorem numerics_sub (p : Params) : (numerics p).sub = F32.sub := rfl
@[simp] theorem numerics_mul (p : Params) : (numerics p).mul = F32.mul := rfl
@[simp] theorem numerics_div (p : Params) : (numerics p).div = F32.div := rfl
@[simp] theorem numerics_pi (p : Params) : (numerics p).pi = Config.pi := rfl
@[simp] theorem numerics_sqrt2 (p : Params) : (numerics p).sqrt2 = Config.sqrt2 := rfl
@[simp] theorem numerics_tan (p : Params) : (numerics p).tan = p.tan := rfl

/-! ### The designs (R158 to R164) -/

theorem Biquad.upToDate_iff {p : Params} {q : Biquad} {k : Design} {fcl rate : Sample} :
    q.upToDate p k fcl rate = true
      ↔ q.kind = some k ∧ F32.eq q.lastRate rate = true ∧ F32.le (F32.abs (F32.sub fcl q.lastFc)) p.recompTol = true := by
  simp only [Biquad.upToDate, Bool.and_eq_true, decide_eq_true_eq, and_assoc]

theorem Biquad.setDesign_of_upToDate {p : Params} {q : Biquad} {k : Design} {fc rate : Sample}
    (h : q.upToDate p k (clampCutoff fc rate) rate = true) : q.setDesign p k fc rate = q :=
  if_pos h

theorem Biquad.setDesign_of_not_upToDate {p : Params} {q : Biquad} {k : Design} {fc rate : Sample}
    (h : ¬q.upToDate p k (clampCutoff fc rate) rate = true) :
    q.setDesign p k fc rate = q.designed p k (clampCutoff fc rate) rate :=
  if_neg h

/-- Settles O32: the five commands have one body, and the gate decides between the section and its new design. -/
theorem bqSetResult : Obligations.BqSetResult := by
  intro s c j fc k i hi hrate hfinite hpos
  obtain rfl : i = designCommand k c j fc := by
    obtain ⟨rfl, rfl⟩ | ⟨rfl, rfl⟩ | ⟨rfl, rfl⟩ | ⟨rfl, rfl⟩ | ⟨rfl, rfl⟩ := hi <;> rfl
  have hexec := (exec_designCommand k c j fc s).trans
    (bqSet_eq_next.2 ⟨hrate, Bool.and_eq_true_iff.2 ⟨hfinite, hpos⟩, rfl⟩)
  obtain ⟨t, ht, hresponse, hbq, hframe⟩ := exists_of_exec_setBq hexec
  refine ⟨t, ht, hresponse, hframe, fun hsame => ?_, fun hnew => ?_⟩
  · exact hbq.trans (Biquad.setDesign_of_upToDate (Biquad.upToDate_iff.2 hsame))
  · exact hbq.trans (Biquad.setDesign_of_not_upToDate (mt Biquad.upToDate_iff.1 hnew))

/-- Settles O33, design by design: the formula, read in the block's numerics, is the expression written out. -/
theorem bqDesignFormulas : Obligations.BqDesignFormulas := by
  intro p fcl rate
  refine ⟨?bwlp2, ?bwhp2, ?lrlp2, ?lrhp2, ?ap1⟩
  case bwlp2 => simp [bqDesign, designOver, designBwLp2, designAngle, bwDenominator, bwNumerator]
  case bwhp2 => simp [bqDesign, designOver, designBwHp2, designAngle, bwDenominator, bwNumerator]
  case lrlp2 => simp [bqDesign, designOver, designLrLp2, designAngle, lrOmega, lrKappa, lrDelta, lrB1, lrB2]
  case lrhp2 => simp [bqDesign, designOver, designLrHp2, designAngle, lrOmega, lrKappa, lrDelta, lrB1, lrB2]
  case ap1 => simp [bqDesign, designOver, designAp1, designAngle]

/-- `NYQ_GUARD * (rate / 2)` is a number for a positive rate. -/
theorem isNaN_guardedNyquist {rate : Sample} (h : F32.isPositive rate = true) :
    F32.isNaN (F32.mul Config.nyqGuard (F32.div rate F32.two)) = false :=
  F32.isNaN_mul_of_ne_zero_left (by decide) (by decide) (F32.half_isPositive h).1

/-- The clamped cutoff is not above the one asked for and not above `NYQ_GUARD * (rate / 2)` (R158). -/
theorem clampCutoff_le {fc rate : Sample} (hfc : F32.isPositive fc = true) (hrate : F32.isPositive rate = true) :
    F32.le (clampCutoff fc rate) fc = true
      ∧ F32.le (clampCutoff fc rate) (F32.mul Config.nyqGuard (F32.div rate F32.two)) = true :=
  have hnum := F32.isNaN_eq_false_of_isFinite (F32.isFinite_of_isPositive hfc)
  ⟨F32.min_le_left hnum (isNaN_guardedNyquist hrate), F32.min_le_right hnum (isNaN_guardedNyquist hrate)⟩

/-- Settles O34: a command that the gate does not skip records the clamped cutoff. -/
theorem bqCutoffClamped : Obligations.BqCutoffClamped := by
  intro s t c j fc k h hpos rate q fcl hnew
  rw [exec_designCommand] at h
  obtain ⟨-, hfc, rfl⟩ := bqSet_eq_next.1 h
  obtain ⟨hle, hguard⟩ := clampCutoff_le hfc hpos
  have hset : (s.getBq c j).setDesign params k (f32 fc) rate
      = (s.getBq c j).designed params k (clampCutoff (f32 fc) rate) rate :=
    Biquad.setDesign_of_not_upToDate (mt Biquad.upToDate_iff.1 hnew)
  rw [State.respond_getBq, State.getBq_setBq_same, hset]
  exact ⟨hle, hguard, rfl, rfl⟩

/-! ### Two sections in turn (R168) -/

/-- Settles O35: the first section is in slot 2, so slot 3 is as it was when its turn comes. -/
theorem bqProc4Result : Obligations.BqProc4Result := by
  intro s c x hcoef2 hmem2 hcoef3 hmem3
  have hslot3 : ((s.setBq c 2 ((s.getBq c 2).advance x)).respond [0#32, (s.getBq c 2).mixed x]).getBq c 3
      = s.getBq c 3 := by
    rw [State.respond_getBq, State.getBq_setBq_of_ne _ _ (by simp)]
  refine ⟨_, _, _, _, execBqProc4_eq_next.2 ⟨⟨hcoef2, hmem2⟩, ⟨hcoef3, hmem3⟩, rfl⟩,
    exec_bqProc_of_getBq rfl hcoef2 hmem2 x, rfl, ⟨_, exec_bqProc_of_getBq hslot3 hcoef3 hmem3 _, rfl, rfl⟩,
    fun d i hne2 hne3 => ?_, (((SameButBq.refl s).setBq ..).setBq ..).respond _⟩
  rw [State.respond_getBq, State.getBq_setBq_of_ne _ _ hne3, State.getBq_setBq_of_ne _ _ hne2]

/-! ### Four lanes (R170) -/

/-- Section `j` of each channel of group `g` replaced, lane by lane. -/
def State.setLanes (s : State) (g : LaneGroup) (j : Slot) (q : Fin Config.lanes → Biquad) : State :=
  (((s.setBq (laneChannel g 0) j (q 0)).setBq (laneChannel g 1) j (q 1)).setBq (laneChannel g 2) j (q 2)).setBq
    (laneChannel g 3) j (q 3)

theorem laneChannel_inj (g : LaneGroup) {l m : Fin Config.lanes} : laneChannel g l = laneChannel g m ↔ l = m :=
  ⟨fun h => by_contra fun hne => laneChannel_ne g hne h, congrArg (laneChannel g)⟩

/-- Every channel is a lane of its group (R45). -/
theorem exists_laneChannel_eq {g : LaneGroup} {c : Channel} (h : c.val / 4 = g.val) : ∃ l, laneChannel g l = c :=
  ⟨⟨c.val % 4, Nat.mod_lt _ (by decide)⟩, Fin.ext (by simp only [laneChannel]; omega)⟩

theorem State.getBq_setLanes_lane (s : State) (g : LaneGroup) (j : Slot) (q : Fin Config.lanes → Biquad)
    (l : Fin Config.lanes) : (s.setLanes g j q).getBq (laneChannel g l) j = q l := by
  simp only [State.setLanes, State.getBq_setBq, laneChannel_inj, and_true]
  fin_cases l <;> rfl

theorem State.getBq_setLanes_other (s : State) {g : LaneGroup} {j : Slot} (q : Fin Config.lanes → Biquad) {d : Channel}
    {i : Slot} (h : ∀ l, (d, i) ≠ (laneChannel g l, j)) : (s.setLanes g j q).getBq d i = s.getBq d i := by
  rw [State.setLanes, State.getBq_setBq_of_ne _ _ (h 3), State.getBq_setBq_of_ne _ _ (h 2),
    State.getBq_setBq_of_ne _ _ (h 1), State.getBq_setBq_of_ne _ _ (h 0)]

theorem exec_bqProcv_of_held {s : State} {g : LaneGroup} {j : Slot}
    (h : ∀ l, (s.getBq (laneChannel g l) j).coefHeld = true ∧ (s.getBq (laneChannel g l) j).memHeld = true)
    (x : Fin 4 → Word) :
    exec (.bqProcv g j (x 0) (x 1) (x 2) (x 3)) s
      = .next ((s.setLanes g j fun l => (s.getBq (laneChannel g l) j).advance (x l)).respond
        [0#32, (s.getBq (laneChannel g 0) j).mixed (x 0), (s.getBq (laneChannel g 1) j).mixed (x 1),
          (s.getBq (laneChannel g 2) j).mixed (x 2), (s.getBq (laneChannel g 3) j).mixed (x 3)]) :=
  execBqProcv_eq_next.2 ⟨h, rfl⟩

theorem sameButBq_setLanes (s : State) (g : LaneGroup) (j : Slot) (q : Fin Config.lanes → Biquad) :
    SameButBq s (s.setLanes g j q) :=
  ((((SameButBq.refl s).setBq ..).setBq ..).setBq ..).setBq ..

/-- Settles O36: the lanes are four channels, so each one finds its section as the old state has it. -/
theorem bqProcvResult : Obligations.BqProcvResult := by
  intro s g j x ch hch hheld
  obtain rfl : ch = laneChannel g := funext fun l => Fin.ext (hch l)
  refine ⟨_, _, fun l => (s.getBq (laneChannel g l) j).mixed (x l), exec_bqProcv_of_held hheld x,
    fun l => ⟨exec_bqProc_of_getBq rfl (hheld l).1 (hheld l).2 (x l), rfl, ?_⟩, rfl, fun d i hne => ?_,
    (sameButBq_setLanes ..).respond _⟩
  · rw [State.respond_getBq, State.respond_getBq, State.getBq_setBq_same, State.getBq_setLanes_lane]
  · rw [State.respond_getBq, State.getBq_setLanes_other s _ hne]

/-! ### Refusals (U1, U5, U6, U8) -/

/-- The one way this part of a command can stop is that a field it reads holds no value (D27, U1). -/
def NextOrNoValue {α : Type} (x : Answer α) : Prop := (∃ a, x = .next a) ∨ x = .refused .noValue

theorem NextOrNoValue.refused {α : Type} {x : Answer α} (h : NextOrNoValue x) (hn : ∀ a, x ≠ .next a) :
    x = .refused .noValue :=
  h.resolve_left fun ⟨a, ha⟩ => hn a ha

theorem nextOrNoValue_next {α : Type} (a : α) : NextOrNoValue (.next a) := .inl ⟨a, rfl⟩

theorem nextOrNoValue_require {α : Type} (ok : Bool) (a : α) : NextOrNoValue (require ok .noValue (.next a)) := by
  cases ok with
  | true => exact nextOrNoValue_next a
  | false => exact .inr rfl

theorem nextOrNoValue_andThen {α β : Type} {x : Answer α} {f : α → Answer β} (hx : NextOrNoValue x)
    (hf : ∀ a, NextOrNoValue (f a)) : NextOrNoValue (andThen x f) := by
  obtain ⟨a, rfl⟩ | rfl := hx
  · exact hf a
  · exact .inr (andThen_refused _ f)

theorem nextOrNoValue_bqProcAt (c : Channel) (j : Slot) (x : Sample) (s : State) : NextOrNoValue (bqProcAt c j x s) :=
  nextOrNoValue_andThen (nextOrNoValue_require _ _) fun _ => nextOrNoValue_next _

theorem exec_bqProc_of_not_held {s : State} {c : Channel} {j : Slot}
    (h : (s.getBq c j).coefHeld = false ∨ (s.getBq c j).memHeld = false) (x : Word) :
    exec (.bqProc c j x) s = .refused .noValue := by
  have hstop : NextOrNoValue (exec (.bqProc c j x) s) :=
    nextOrNoValue_andThen (nextOrNoValue_bqProcAt _ _ _ _) fun _ => nextOrNoValue_next _
  refine hstop.refused fun t ht => ?_
  obtain ⟨hcoef, hmem, -⟩ := execBqProc_eq_next.1 ht
  simp [hcoef, hmem] at h

theorem exec_bqProc4_of_not_held {s : State} {c : Channel} {j : Slot} (hj : j = 2 ∨ j = 3)
    (h : (s.getBq c j).coefHeld = false ∨ (s.getBq c j).memHeld = false) (x : Word) :
    exec (.bqProc4 c x) s = .refused .noValue := by
  have hstop : NextOrNoValue (exec (.bqProc4 c x) s) :=
    nextOrNoValue_andThen (nextOrNoValue_bqProcAt _ _ _ _) fun _ =>
      nextOrNoValue_andThen (nextOrNoValue_bqProcAt _ _ _ _) fun _ => nextOrNoValue_next _
  refine hstop.refused fun t ht => ?_
  obtain ⟨hheld2, hheld3, -⟩ := execBqProc4_eq_next.1 ht
  obtain rfl | rfl := hj
  · simp [hheld2] at h
  · simp [hheld3] at h

theorem exec_bqProcv_of_not_held {s : State} {g : LaneGroup} {j : Slot} {l : Fin Config.lanes}
    (h : (s.getBq (laneChannel g l) j).coefHeld = false ∨ (s.getBq (laneChannel g l) j).memHeld = false)
    (x0 x1 x2 x3 : Word) : exec (.bqProcv g j x0 x1 x2 x3) s = .refused .noValue := by
  have hstop : NextOrNoValue (exec (.bqProcv g j x0 x1 x2 x3) s) :=
    nextOrNoValue_andThen (nextOrNoValue_bqProcAt _ _ _ _) fun _ =>
      nextOrNoValue_andThen (nextOrNoValue_bqProcAt _ _ _ _) fun _ =>
        nextOrNoValue_andThen (nextOrNoValue_bqProcAt _ _ _ _) fun _ =>
          nextOrNoValue_andThen (nextOrNoValue_bqProcAt _ _ _ _) fun _ => nextOrNoValue_next _
  refine hstop.refused fun t ht => ?_
  obtain ⟨hheld, -⟩ := execBqProcv_eq_next.1 ht
  simp [hheld l] at h

theorem exec_cmpProc_of_not_held {s : State} {c : Channel}
    (h : (s.cmp[c]).timesHeld = false ∨ (s.cmp[c]).curveHeld = false ∨ (s.cmp[c]).envHeld = false) (x : Word) :
    exec (.cmpProc c x) s = .refused .noValue := by
  have hstop : NextOrNoValue (exec (.cmpProc c x) s) :=
    nextOrNoValue_andThen (nextOrNoValue_require _ _) fun _ => nextOrNoValue_next _
  refine hstop.refused fun t ht => ?_
  obtain ⟨hheld, -⟩ := execCmpProc_eq_next.1 ht
  exact absurd hheld (by simpa only [not_and_or, Bool.not_eq_true] using h)

/-- No rate set is the first thing a design command tests, the cutoff the second (R158). -/
theorem bqSet_of_rateNotSet {s : State} (h : s.sys.rateSet = false) (k : Design) (c : Channel) (j : Slot)
    (fc : Sample) : bqSet k c j fc s = .refused .rateNotSet :=
  require_of_false h _ _

theorem bqSet_of_not_isPositive {s : State} {fc : Sample} (hrate : s.sys.rateSet = true)
    (hfc : F32.isPositive fc = false) (k : Design) (c : Channel) (j : Slot) :
    bqSet k c j fc s = .refused .cutoffOutsideDomain := by
  rw [bqSet, hrate, require_true]
  exact require_of_false hfc _ _

theorem exec_cmpSetTimes_of_not_isPositive {s : State} {a r : Word} (hrate : s.sys.rateSet = true)
    (h : F32.isPositive a = false ∨ F32.isPositive r = false) (c : Channel) :
    exec (.cmpSetTimes c a r) s = .refused .timeOutsideDomain := by
  change execCmpSetTimes c a r s = _
  rw [execCmpSetTimes, hrate, require_true]
  exact require_of_false (Bool.and_eq_false_iff.2 h) _ _

/-- Settles O43: a command that processes a sample stops where what it reads is not held, one that sets stops at its
first precondition that fails. -/
theorem bqCmpRefusals : Obligations.BqCmpRefusals := by
  intro s c j k x y
  refine ⟨fun h => ⟨exec_bqProc_of_not_held h x, fun hj => exec_bqProc4_of_not_held (.inl hj) h x⟩,
    fun h => exec_bqProc4_of_not_held (.inr rfl) h x, fun g x0 x1 x2 x3 hg h => ?_, fun hrate => ?_,
    fun hrate hx => ?_, fun h => require_of_false (Bool.and_eq_false_iff.2 h) _ _,
    fun h => exec_cmpProc_of_not_held h x⟩
  · obtain ⟨l, rfl⟩ := exists_laneChannel_eq hg
    exact exec_bqProcv_of_not_held h x0 x1 x2 x3
  · exact ⟨(exec_designCommand k c j x s).trans (bqSet_of_rateNotSet hrate k c j _), require_of_false hrate _ _⟩
  · exact ⟨(exec_designCommand k c j x s).trans (bqSet_of_not_isPositive hrate hx k c j),
      exec_cmpSetTimes_of_not_isPositive hrate (.inl hx) c, exec_cmpSetTimes_of_not_isPositive hrate (.inr hx) c⟩

end Sys2Proof.Machine

/-! The Compressor commands (O38 to O40): the times, the curve, and the detector, the gain computer and the divider of a
processed sample (R184 to R186). -/

namespace Sys2Proof.Machine

/-! ### Frames and outcomes -/

theorem onlyCmp_setCmp (s : State) (c : Channel) (m : Compressor) (ws : List Word) :
    OnlyCmp c s ((s.setCmp c m).respond ws) :=
  ⟨rfl, rfl, rfl, rfl, rfl, fun u hu => (s.cmp_setCmp c u m).trans (if_neg hu), rfl, rfl, rfl⟩

/-- A command that answers with one compressor replaced, told by what its result shows. -/
theorem exists_of_exec_setCmp {i : Instr} {s : State} {c : Channel} {m : Compressor} {ws : List Word}
    (h : exec i s = .next ((s.setCmp c m).respond ws)) :
    ∃ t, exec i s = .next t ∧ t.response = ws ∧ t.cmp[c] = m ∧ OnlyCmp c s t :=
  ⟨_, h, rfl, (s.cmp_setCmp c c m).trans (if_pos rfl), onlyCmp_setCmp s c m ws⟩

/-! ### The times (R184) and the curve (R185) -/

/-- Settles O38: the model's coefficient is the formula of R184, at the rate that the compressor itself holds. -/
theorem cmpSetTimesResult : Obligations.CmpSetTimesResult :=
  fun _ c a r hrate ha hr =>
    exists_of_exec_setCmp (i := .cmpSetTimes c a r) (execCmpSetTimes_eq_next.2 ⟨hrate, ⟨ha, hr⟩, rfl⟩)

/-- Settles O39: the two operands go to `threshold` and `ratio`; the gain is a field of its own, which is kept. -/
theorem cmpSetCurveResult : Obligations.CmpSetCurveResult :=
  fun _ c th ra hth hra =>
    exists_of_exec_setCmp (i := .cmpSetCurve c th ra) (execCmpSetCurve_eq_next.2 ⟨⟨hth, hra⟩, rfl⟩)

/-! ### A sample (R186) -/

/-- The sample on which the detector and the gain computer run (R186). -/
theorem Compressor.advance_eq_of_divCount_zero {m : Compressor} (h : m.divCount = 0) (p : Params) (x : Sample) :
    m.advance p x = { m.detect p x with divCount := 1 % p.cmpN } := by
  simp only [Compressor.advance, Compressor.detect, h, if_true, Nat.zero_add]

/-- On the samples between two runs only the divider moves, so the gain is the one kept (R186 (ii)). -/
theorem Compressor.advance_eq_of_divCount_ne_zero {m : Compressor} (h : m.divCount ≠ 0) (p : Params) (x : Sample) :
    m.advance p x = { m with divCount := (m.divCount + 1) % p.cmpN } := by
  simp only [Compressor.advance, h, if_false]

/-- Settles O40: the envelope of the statement is the detector's, its gain the one held once the sample is through; the
divider decides whether that is the gain computer's or the kept one. -/
theorem cmpProcResult : Obligations.CmpProcResult := by
  intro s c x m htimes hcurve henv
  obtain ⟨t, hexec, hresponse, hcmp, hframe⟩ := exists_of_exec_setCmp (i := .cmpProc c x)
    (execCmpProc_eq_next.2 ⟨⟨htimes, hcurve, henv⟩, rfl⟩)
  refine ⟨t, m.envelope params (F32.abs x), (m.advance params x).gain, hexec, hresponse, fun hrun => ?_,
    fun hkept => ?_, hframe⟩
  · rw [Compressor.advance_eq_of_divCount_zero hrun] at hcmp ⊢
    exact ⟨rfl, rfl, hcmp⟩
  · rw [Compressor.advance_eq_of_divCount_ne_zero hkept] at hcmp ⊢
    exact ⟨rfl, hcmp⟩

end Sys2Proof.Machine

/-! The WaveShaper commands (O44, O45): the one cell a write changes, and the interpolation on a full curve (R202,
R203). -/

namespace Sys2Proof.Machine

/-! ### A write (R202) -/

theorem onlyWs_setWs (s : State) (k : CurveId) (m : Mem) (ws : List Word) :
    OnlyWs k s ((s.setWs k m).respond ws) :=
  ⟨rfl, rfl, fun u hu => (s.ws_setWs k u m).trans (if_neg hu), rfl, rfl, rfl, rfl, rfl, rfl⟩

/-- A command that answers with one curve replaced, told by what its result shows. -/
theorem exists_of_exec_setWs {i : Instr} {s : State} {k : CurveId} {m : Mem} {ws : List Word}
    (h : exec i s = .next ((s.setWs k m).respond ws)) :
    ∃ t, exec i s = .next t ∧ t.response = ws ∧ t.ws[k] = m ∧ OnlyWs k s t :=
  ⟨_, h, rfl, (s.ws_setWs k k m).trans (if_pos rfl), onlyWs_setWs s k m ws⟩

/-- Settles O44: below 4096 the curve becomes one `Mem.write` of the operand itself, so read after write gives every
cell; from 4096 on the index is raised. -/
theorem wsWriteResult : Obligations.WsWriteResult := by
  intro s k i v
  refine ⟨fun hi => ?_, fun hi => ?_⟩
  · obtain ⟨t, hexec, hresponse, hcurve, hframe⟩ := exists_of_exec_setWs (i := .wsWrite k i v)
      (execWsWrite_eq_next.2 (.inl ⟨hi, rfl⟩))
    refine ⟨t, hexec, hresponse, ?_⟩
    rw [hcurve]
    exact ⟨Mem.read_write_same .curve _ _ v, fun j hj => Mem.read_write_other .curve _ (Ne.symm hj) v, hframe⟩
  · exact ⟨_, execWsWrite_eq_next.2 (.inr ⟨Nat.not_lt.2 hi, rfl⟩), faultOnly_raise s .wsIndex⟩

/-! ### Evaluation (R203) -/

/-- Settles O45: a full curve is loaded, the masked index is `floor(q) mod 4096` with bit 0 cleared, and with `q`
finite the weight is what the floor leaves of it. -/
theorem wsEvalResult : Obligations.WsEvalResult := by
  intro s k x hgood hfull hx q hq
  obtain ⟨hindex, -, -⟩ := wsIndex_eq x
  obtain ⟨a, b, ha, hb, hcurve⟩ := curveAt_completes hfull x
  have hweight : F32.fracPart (wsQuotient x) = F32.sub q (F32.i2s (F32.floor q)) :=
    F32.fracPart_of_isFinite hq
  rw [hweight] at hcurve
  have hloaded : curveLoaded s.ws[k] = true := (curveLoaded_iff hgood).2 hfull
  exact ⟨_, wsIndex x, a, b, execWsEval_eq_next.2 ⟨hloaded, hx, _, hcurve, rfl⟩, hindex, ha, hb, rfl,
    sameButAnswer_respond s _⟩

end Sys2Proof.Machine

/-! `SYS.SETRATE` and `SYS.INIT` (O48 to O50): what each leaves in every channel (R228, R230, R231; log 15). -/

namespace Sys2Proof.Machine

/-! ### The rate (R228) -/

/-- What `SYS.SETRATE` leaves of a compressor, field by field: only what it does not hold takes the voice's default. -/
theorem Compressor.setRate_eq (p : Params) (m : Compressor) (rate : Sample) :
    m.setRate p rate = { m with
      sampleRate := rate
      attackTime := if m.timesHeld then m.attackTime else p.ksCmpAttack
      releaseTime := if m.timesHeld then m.releaseTime else p.ksCmpRelease
      attackCoeff := timeCoeff p rate (if m.timesHeld then m.attackTime else p.ksCmpAttack)
      releaseCoeff := timeCoeff p rate (if m.timesHeld then m.releaseTime else p.ksCmpRelease)
      timesHeld := true
      threshold := if m.curveHeld then m.threshold else p.ksCmpThreshold
      ratio := if m.curveHeld then m.ratio else p.ksCmpRatio
      curveHeld := true } := by
  cases hc : m.curveHeld <;> simp [Compressor.setRate, Compressor.setTimes, Compressor.setCurve, hc]

/-- The slots of the two DC-blockers (R36). -/
theorem slot_lt_two_iff : ∀ {j : Slot}, j.val < 2 ↔ j = 0 ∨ j = 1 := by decide

/-- Settles O48: the two DC-blockers run the body of a design command, which keeps their memory. -/
theorem sysSetRateResult : Obligations.SysSetRateResult := by
  intro s r hr
  refine ⟨_, execSysSetRate_eq_next.2 ⟨hr, rfl⟩, rfl, rfl, rfl, rfl, rfl, rfl, ⟨rfl, rfl⟩,
    fun c => ⟨?_, fun j hj => ?_, fun j hj => ?_⟩⟩
  · exact (State.cmp_setRate params r s c).trans (Compressor.setRate_eq params _ r)
  · have hdesign := (State.getBq_setRate params r s c j).trans (if_pos (slot_lt_two_iff.1 hj))
    exact ⟨hdesign, (congrArg Biquad.memory hdesign).trans (Biquad.setDesign_memory _ _ _ _ _)⟩
  · exact (State.getBq_setRate params r s c j).trans (if_neg (mt slot_lt_two_iff.2 (Nat.not_lt.2 hj)))

theorem setRateSections_twice (p : Params) (rate : Sample) (q : Vector Biquad Config.bqSlots) :
    setRateSections p rate (setRateSections p rate q) = setRateSections p rate q := by
  simp only [setRateSections, Vector.getElem_set_self, Vector.getElem_set_ne _ _ (by decide : 1 ≠ 0),
    Biquad.setDesign_twice]
  rw [Vector.set_comm _ _ (by decide : 1 ≠ 0), Vector.set_set, Vector.set_set]

/-- A second equal `SYS.SETRATE` finds every compressor and every section as it would leave it. -/
theorem setRate_twice (p : Params) (rate : Sample) (s : State) (ws : List Word) :
    setRate p rate ((setRate p rate s).respond ws) = (setRate p rate s).respond ws := by
  simp only [setRate, State.respond, Vector.map_map, Function.comp_def, Compressor.setRate_twice,
    setRateSections_twice]

/-- Settles O49: the second command is answered as the first, by a state it does not change. -/
theorem sysSetRateIdempotent : Obligations.SysSetRateIdempotent := by
  intro s t r h
  obtain ⟨hr, rfl⟩ := execSysSetRate_eq_next.1 h
  exact execSysSetRate_eq_next.2 ⟨hr, by rw [setRate_twice]; rfl⟩

/-! ### The start (R230, R231) -/

theorem State.ks_initAll (p : Params) (k : Nat) (s : State) (c : Channel) :
    (initAll p k s).ks[c] = initVoice p s.draws c := by
  simp [initAll]

theorem initVoice_phase (p : Params) (n : Nat) (c : Channel) (j : Fin 7) :
    (initVoice p n c).phase[j] = p.draw (n + 7 * c.val + j.val) := by
  simp [initVoice, Config.unisonMax]

theorem between_of_inUnit {u : Sample} (h : inUnit u = true) :
    F32.le F32.zero u = true ∧ F32.lt u F32.one = true := by
  obtain ⟨⟨-, hle⟩, hlt⟩ : (F32.isFinite u = true ∧ F32.le F32.zero u = true) ∧ F32.lt u F32.one = true := by
    simpa only [inUnit, Bool.and_eq_true] using h
  exact ⟨hle, hlt⟩

theorem ksGlide0_between :
    F32.le Config.ksFmin params.ksGlide0 = true ∧ F32.le params.ksGlide0 Config.ksFmax = true :=
  keepWithin_between (by decide) (by decide)

/-- Settles O50: `npow2` of the size fits exactly up to `2 ^ 20`, and every unit of every channel is cleared. -/
theorem sysInitResult : Obligations.SysInitResult := by
  intro s hrate size
  refine ⟨fun hsize => ?_, fun hsize => ?_⟩
  · have hfits : npow2Log size ≤ Config.cbKmax := npow2Log_le_iff.2 hsize
    refine ⟨_, npow2Log size, execSysInit_eq_next.2 ⟨hrate, .inl ⟨hfits, rfl⟩⟩, rfl, le_npow2 _,
      fun j hj => npow2Log_le hj, rfl, rfl, rfl, rfl, rfl, fun c => ?_⟩
    have hphase := initVoice_phase params s.draws c
    simp only [State.respond_cb, State.respond_cmp, State.respond_ks, State.respond_getBq, State.cb_initAll,
      State.cmp_initAll, State.ks_initAll, State.getBq_initAll]
    exact ⟨⟨rfl, rfl, rfl, Ring.cleared_cellAt _⟩, fun _ => rfl, rfl,
      fun j => ⟨hphase j, (hphase j).symm ▸ between_of_inUnit (inUnit_draw _)⟩, rfl, rfl, rfl, rfl, ksGlide0_between⟩
  · have hlarge : ¬npow2Log size ≤ Config.cbKmax := mt npow2Log_le_iff.1 (Nat.not_le.2 hsize)
    exact ⟨_, execSysInit_eq_next.2 ⟨hrate, .inr ⟨hlarge, rfl⟩⟩, faultOnly_raise s .cbSize⟩

end Sys2Proof.Machine

/-! `SYS.STEP` (O51 to O54): that it completes, the seven steps of the voice on an active channel, and what it leaves as
it was (R226, R233 to R240; logs 12, 15, 17, 28). -/

namespace Sys2Proof.Machine

/-! ### The frame of the command (R233) -/

/-- Settles O51: every active channel's frame completes, and with them the loop. -/
theorem sysStepCompletes : Obligations.SysStepCompletes := by
  intro s p vs hl hinit hrate hfinite hready
  have hutune : F32.isFinite (f32 p.utune) = true := by
    obtain ⟨⟨⟨-, hutune⟩, -⟩, -⟩ := by simpa only [stepOperandsFinite, Bool.and_eq_true] using hfinite
    exact hutune
  have hframes : ∀ cv ∈ activeChannels vs, ∃ ch, (frameEnv params p s).frame cv.2
      (params.draw (s.draws + 2 * cv.1.val)) (params.draw (s.draws + 2 * cv.1.val + 1)) (s.part cv.1) = .next ch := by
    rintro ⟨c, v⟩ hcv
    obtain ⟨hc, rfl⟩ := eq_of_mem_activeChannels hcv
    obtain ⟨hbound, hvalid, ⟨y, hy, hnum⟩, halloc, ⟨hk, -⟩, hlen, hin, hout, hcmp, hglide⟩ := hready c hc
    exact FrameEnv.frame_completes rfl hbound hutune hrate hvalid hy hnum halloc hk hlen hin hout hcmp hglide
  obtain ⟨u, hu⟩ := stepChannels_completes (activeChannels_nodup vs) hframes
  have hexec : execSysStep p vs s = .next ((finishStep vs.length u).respond (0#32 :: stepResults vs u)) :=
    execSysStep_eq_next.2 (.inr ⟨hl, hinit, hfinite, u, hu, rfl⟩)
  refine ⟨_, hexec, ?_, (execSysStep_frame hl hexec).1⟩
  rw [State.respond_response, stepResults_eq]
  rfl

/-- Of the host's fields a `SYS.STEP` that does not fault takes two draws a voice (R222, R233; log 15). -/
theorem execSysStep_host {s t : State} {p : StepControls} {vs : List VoiceIn} (hl : vs.length ≤ Config.nchMax)
    (h : execSysStep p vs s = .next t) : t.draws = s.draws + 2 * vs.length ∧ t.pending = s.pending := by
  obtain ⟨hgt, -⟩ | ⟨-, -, -, u, hu, rfl⟩ := execSysStep_eq_next.1 h
  · omega
  · obtain ⟨-, -, -, -, -, -, hdraws, hpending, -⟩ := stepChannels_eq_next (activeChannels_nodup vs) hu
    exact ⟨congrArg (· + 2 * vs.length) hdraws, hpending⟩

/-- Settles O53: the loop writes the parts of the active channels and nothing else. -/
theorem sysStepFrame : Obligations.SysStepFrame := by
  intro s p vs
  refine ⟨fun hn => ?_, fun t hl h => ?_⟩
  · exact ⟨_, execSysStep_eq_next.2 (.inl ⟨hn, rfl⟩), faultOnly_raise s (.illegalCommand 0x03000000#32)⟩
  · obtain ⟨hsys, hlut, hws, hbq, hidle⟩ := execSysStep_frame hl h
    obtain ⟨hdraws, hpending⟩ := execSysStep_host hl h
    refine ⟨hsys, hdraws, hpending, hlut, hws, hbq, fun c hc => ?_⟩
    obtain ⟨hcb, hbq0, hbq1, hcmp, hks⟩ := ChannelPart.mk.inj (hidle c hc)
    exact ⟨hcb, hcmp, hks, hbq0, hbq1⟩

/-- Settles O54: the frame's one push is that of R137 (L1). -/
theorem sysStepPushesOne : Obligations.SysStepPushesOne := by
  intro s t p vs c hl h hc
  obtain ⟨⟨y, hring⟩, -⟩ := FrameEnv.frame_units (execSysStep_part hl h hc)
  replace hring : t.cb[c] = (s.cb[c]).push y := hring
  rw [hring, Ring.push_readAt_zero]
  exact ⟨Ring.push_k _ y, F32.isFinite_sanitize y, fun d => Ring.push_readAt_succ _ y⟩

/-! ### The steps of a frame (R234 to R240) -/

theorem mem_take_finRange {n k : Nat} {j : Fin n} : j ∈ (List.finRange n).take k ↔ j.val < k := by
  rw [List.mem_take_iff_getElem]
  constructor
  · rintro ⟨i, hi, rfl⟩
    rw [List.length_finRange, lt_min_iff] at hi
    simpa using hi.1
  · intro h
    exact ⟨j.val, by simpa using h, by simp⟩

/-- Step 1 (R234). -/
theorem FrameEnv.target_eq_next {e : FrameEnv} {v : VoiceIn} {f : Sample} :
    e.target v = .next f
      ↔ ∃ y, (e.pow2.valid = true ∧ e.pow2.evalScalar (e.pitch v) = .next y)
          ∧ f = F32.clamp (F32.mul e.par.ksF0 y) Config.ksFmin e.fmax := by
  simp only [FrameEnv.target, FrameEnv.pow2At, andThen_eq_next, require_eq_next, Host.Outcome.next.injEq,
    eq_comm (b := f)]

/-- What a table evaluates to is what `LUT.EVAL` answers (R106). -/
theorem exec_lutEval_of_evalScalar {s : State} {l : TableId} {x : Word} {y : Sample} (hv : (s.lut[l]).valid = true)
    (hy : (s.lut[l]).evalScalar (f32 x) = .next y) :
    ∃ w, exec (.lutEval l x) s = .next w ∧ w.response = [0#32, y] :=
  ⟨_, execLutEval_eq_next.2 (.inl ⟨hv, y, hy, rfl⟩), rfl⟩

theorem inUnit_keepUnit (v : Sample) : inUnit (keepUnit v) = true := by
  unfold keepUnit
  split_ifs with h
  · exact h
  · decide

/-- A phase that overflows is only kept in `[0, 1)` (log 17). -/
theorem wrapPhase_between_of_not_isFinite {x : Sample} (h : F32.isFinite x = false) :
    F32.le F32.zero (wrapPhase x) = true ∧ F32.lt (wrapPhase x) F32.one = true := by
  have hwrap : wrapPhase x = keepUnit (Config.phaseOpen x) := if_neg (Bool.eq_false_iff.1 h)
  exact hwrap ▸ between_of_inUnit (inUnit_keepUnit _)

/-- Settles O52: the inversion of a frame, read on the channel's state before and after. -/
theorem sysStepVoice : Obligations.SysStepVoice := by
  intro s t p vs c hc hl h
  obtain ⟨target, ut, phases, mixed, htarget, htuning, -, -, -, -, hcmp, hring, htaps, -, hin, hout, output, hsat,
    hvoice⟩ := FrameEnv.frame_eq_next.1 (execSysStep_part hl h hc)
  have hnodup : ((List.finRange Config.unisonMax).take (frameEnv params p s).unisonCount).Nodup :=
    (List.nodup_finRange _).sublist (List.take_sublist _ _)
  have hlen : (t.part c).ring.length = (s.cb[c]).length := by rw [hring]; rfl
  replace hvoice : t.ks[c] = _ := hvoice
  rw [hvoice]
  intro v V V' len uNoise uStretch pitch rate fmax f index wet xin input fb st dry uc um mix o
  have hmix : mixed = mix := (FrameEnv.taps_mix hnodup htaps).trans (by rw [hlen]; rfl)
  rw [hmix] at hout hsat
  refine ⟨?_, rfl, hin, hcmp, hring, rfl, ⟨ut, ?_, fun j => ?_⟩, hout, ?_⟩
  · obtain ⟨y, ⟨hv, hy⟩, hf⟩ := FrameEnv.target_eq_next.1 htarget
    obtain ⟨w, hw, hresponse⟩ := exec_lutEval_of_evalScalar (s := s) (l := 1) hv hy
    exact ⟨y, w, hw, hresponse, hf⟩
  · obtain ⟨hb, hv, hut⟩ | ⟨hb, hut⟩ := FrameEnv.tuning_eq_next.1 htuning
    · exact (if_pos hb).mpr (exec_lutEval_of_evalScalar (s := s) (l := 4) hv hut)
    · exact (if_neg (Bool.eq_false_iff.1 hb)).mpr hut
  · have hphase := FrameEnv.taps_eq_next hnodup htaps j
    simp only [mem_take_finRange] at hphase
    exact ⟨fun hj hf => (hphase.trans (if_pos hj)).trans (if_pos hf),
      fun hj hf => (hphase.trans (if_pos hj)).symm ▸ wrapPhase_between_of_not_isFinite hf,
      fun hj => hphase.trans (if_neg (Nat.not_lt.2 hj))⟩
  · obtain ⟨hk, hy⟩ | ⟨k, hk, hloaded, hy⟩ := FrameEnv.saturate_eq_next.1 hsat
    · rw [show params.ksSatCurve = none from hk]
      exact hy
    · rw [show params.ksSatCurve = some k from hk]
      intro hf
      obtain ⟨-, y, hcurve, hy⟩ | ⟨hinf, -⟩ := hy
      · exact ⟨y, _, execWsEval_eq_next.2 ⟨hloaded, hf, y, hcurve, rfl⟩, rfl, hy⟩
      · exact absurd hf (Bool.eq_false_iff.1 hinf)

end Sys2Proof.Machine

/-! The refusals of the system commands (O56; R218, R226, R228, R230, R233; logs 12, 19). -/

namespace Sys2Proof.Machine

/-! ### What a frame stops on (R233) -/

theorem FrameEnv.target_of_not_valid {e : FrameEnv} (h : e.pow2.valid = false) (v : VoiceIn) :
    e.target v = .refused .pow2NotLoaded := by
  rw [FrameEnv.target, FrameEnv.pow2At, require_of_false h, andThen_refused]

/-- The target frequency is the first thing that a frame asks for. -/
theorem FrameEnv.frame_of_target_refused {e : FrameEnv} {v : VoiceIn} {r : Refusal} (h : e.target v = .refused r)
    (u1 u2 : Sample) (ch : ChannelPart) : e.frame v u1 u2 ch = .refused r := by
  rw [FrameEnv.frame, h, andThen_refused]

theorem FrameEnv.tuning_of_not_valid {e : FrameEnv} (hb : e.par.ksUtuneBound = true) (hv : e.spread.valid = false) :
    e.tuning = .refused .spreadNotLoaded := by
  rw [FrameEnv.tuning, if_pos hb, require_of_false hv]

theorem FrameEnv.saturate_of_not_loaded {e : FrameEnv} {k : CurveId} (hk : e.par.ksSatCurve = some k)
    (hl : curveLoaded e.curves[k] = false) (o : Sample) : e.saturate o = .refused .curveNotLoaded := by
  simp only [FrameEnv.saturate, hk]
  exact require_of_false hl _ _

/-- A curve with a cell that holds no value is not loaded (R203). -/
theorem curveLoaded_of_unwritten {m : Mem} (hgood : curveGood m)
    (h : ∃ i, i < 4096 ∧ Mem.read .curve m i = none) : curveLoaded m = false := by
  obtain ⟨i, hi, hnone⟩ := h
  exact Bool.eq_false_iff.2 fun hl => (curveLoaded_iff hgood).1 hl i hi hnone

theorem FrameEnv.frame_ne_next_of_tuning {e : FrameEnv} {r : Refusal} (h : e.tuning = .refused r) (v : VoiceIn)
    (u1 u2 : Sample) (ch ch' : ChannelPart) : e.frame v u1 u2 ch ≠ .next ch' := by
  intro hf
  obtain ⟨_, _, _, _, -, htuning, -⟩ := FrameEnv.frame_eq_next.1 hf
  rw [h] at htuning
  cases htuning

theorem FrameEnv.frame_ne_next_of_saturate {e : FrameEnv} {r : Refusal} (h : ∀ o, e.saturate o = .refused r)
    (v : VoiceIn) (u1 u2 : Sample) (ch ch' : ChannelPart) : e.frame v u1 u2 ch ≠ .next ch' := by
  intro hf
  obtain ⟨_, _, _, _, -, -, -, -, -, -, -, -, -, -, -, -, _, hsat, -⟩ := FrameEnv.frame_eq_next.1 hf
  rw [h] at hsat
  cases hsat

/-! ### The commands -/

/-- `SYS.STEP` of up to 16 voices tests `inited`, then its operands, and then runs the channels (R233). -/
theorem execSysStep_of_le {vs : List VoiceIn} (hl : vs.length ≤ 16) (p : StepControls) (s : State) :
    execSysStep p vs s
      = require s.sys.inited .notInitialised
          (require (stepOperandsFinite p vs) .operandNotFinite
            (andThen (stepChannels (frameEnv params p s) s.draws (activeChannels vs) s) fun t =>
              answer (finishStep vs.length t) (stepResults vs t))) :=
  if_neg (Nat.not_lt.2 hl)

/-- With an active channel there is a first one, and the loop stops where its frame does. -/
theorem stepChannels_of_target_refused {e : FrameEnv} {r : Refusal} (h : ∀ v, e.target v = .refused r)
    {vs : List VoiceIn} (hne : vs ≠ []) (n : Nat) (s : State) :
    stepChannels e n (activeChannels vs) s = .refused r := by
  obtain ⟨v, vs, rfl⟩ := List.exists_cons_of_ne_nil hne
  have hfirst : activeChannels (v :: vs) = (0, v) :: (List.finRange Config.nchMax).tail.zip vs := rfl
  rw [hfirst, stepChannels, FrameEnv.frame_of_target_refused (h v), andThen_refused]

/-- Settles O56: each command stops at its first precondition that fails, and a channel's frame does not get past a
binding that is not loaded. -/
theorem sysRefusals : Obligations.SysRefusals := by
  intro s r p vs
  refine ⟨fun hr => require_of_false hr _ _, fun hrate => require_of_false hrate _ _, fun hl hinit => ?_,
    fun hl hinit hfinite => ?_, fun hl hne hinit hfinite hv => ?_,
    fun e v u₁ u₂ o ch k => ⟨fun hb hv => ?_, fun hk hgood hempty => ?_⟩⟩
  · exact (execSysStep_of_le hl p s).trans (require_of_false hinit _ _)
  · refine (execSysStep_of_le hl p s).trans ?_
    rw [hinit, require_true, require_of_false hfinite]
  · refine (execSysStep_of_le hl p s).trans ?_
    have hloop := stepChannels_of_target_refused (e := frameEnv params p s)
      (FrameEnv.target_of_not_valid hv) hne s.draws s
    rw [hinit, hfinite, require_true, require_true, hloop, andThen_refused]
  · have htuning := FrameEnv.tuning_of_not_valid hb hv
    exact ⟨htuning, FrameEnv.frame_ne_next_of_tuning htuning v u₁ u₂ ch⟩
  · have hsat := FrameEnv.saturate_of_not_loaded hk (curveLoaded_of_unwritten hgood hempty)
    exact ⟨hsat o, FrameEnv.frame_ne_next_of_saturate hsat v u₁ u₂ ch⟩

end Sys2Proof.Machine

/-! The halted block and the fault record (O8, O10, O47): what a halted block answers, and when the record changes
(R262, R263, R265, R269, R285). -/

namespace Sys2Proof.Machine

/-! ### `SYS.STATUS` and the halted block -/

/-- R265, as one equation for every state. -/
theorem exec_sysStatus (s : State) :
    exec .sysStatus s = .next (s.respond [0#32, s.sys.fault.code, s.sys.fault.info]) := rfl

/-- Settles O47: `SYS.STATUS` replaces the answer of its state, and the answer is in no frame. -/
theorem sysStatusResult : Obligations.SysStatusResult := fun s =>
  ⟨_, exec_sysStatus s, rfl, sameButAnswer_respond s _⟩

/-- The command word of `SYS.STATUS` is 0, the one word that a halted block looks for (R263). -/
theorem sysStatus_matchWord : Opcode.sysStatus.matchWord = 0#32 := by decide

theorem serveHalted_of_ne_zero {w : Word} (hw : w ≠ 0#32) (ws : List Word) (s : State) :
    serveHalted w ws s = .next (s.respond [s.sys.fault.code]) :=
  if_neg (sysStatus_matchWord ▸ hw)

/-- `SYS.STATUS` of a halted block: the words behind it go to the queue, and the answer is that of the command (log 4). -/
theorem serveHalted_zero (ws : List Word) (s : State) :
    ∃ es, serveHalted 0#32 ws s
      = .next ((s.setPending es).respond [0#32, s.sys.fault.code, s.sys.fault.info]) := by
  refine ⟨if ws = [] then s.pending else .command ws :: s.pending, ?_⟩
  rw [serveHalted, if_pos sysStatus_matchWord.symm, State.requeue_eq, exec_sysStatus]
  rfl

/-- Settles O8: either way the new state is the old one with some queue and a new answer. -/
theorem haltedBlockAnswers : Obligations.HaltedBlockAnswers := by
  intro s w ws es hp hh
  rw [step_eq_serveHalted hp hh]
  refine ⟨fun hw => ?_, ?_⟩
  · exact ⟨_, serveHalted_of_ne_zero hw ws _, rfl, sameButAnswer_respond (s.setPending es) _⟩
  · rintro rfl
    obtain ⟨fs, hserve⟩ := serveHalted_zero ws (s.setPending es)
    exact ⟨_, hserve, rfl, sameButAnswer_respond (s.setPending fs) _⟩

/-! ### The fault record -/

theorem halted_iff {s : State} : halted s = true ↔ s.sys.fault.code ≠ 0#32 := decide_eq_true_iff

/-- Every fault halts the block: no code of R261 is 0. -/
theorem halted_of_faultOnly {s t : State} {f : Cause} (h : FaultOnly s t f.code f.info) : halted t = true := by
  obtain ⟨hsys, -⟩ := h
  rw [halted_iff, hsys]
  exact f.code_pos.1

/-- A command that goes on keeps the fault record or halts the block (R262). -/
theorem exec_keeps_fault_or_halts {i : Instr} {s t : State} (h : exec i s = .next t) :
    t.sys.fault = s.sys.fault ∨ halted t = true := by
  obtain ⟨-, ⟨_, -, hkept⟩ | ⟨_, hfault⟩⟩ := exec_precise h
  · exact .inl hkept
  · exact .inr (halted_of_faultOnly hfault)

/-- Settles O10, by what a step can do: idling and the halted block's answers keep the record, commands run only on a
block that is not halted, and the one other writer is the reset. -/
theorem faultRecordChanges : Obligations.FaultRecordChanges := by
  intro s t h
  obtain ⟨es, rfl⟩ | ⟨es, hp, rfl⟩ | ⟨-, es, ws, rfl⟩ | ⟨hs, es, w, rfl⟩ | ⟨hs, es, i, hi⟩ := step_cases h
  · exact .inl rfl
  · exact .inr (.inr ⟨rfl, es, hp⟩)
  · exact .inl rfl
  · have hfault := faultOnly_raise (s.setPending es) (.illegalCommand w)
    exact .inr (.inl ⟨hs, halted_of_faultOnly hfault⟩)
  · obtain hkept | hhalted := exec_keeps_fault_or_halts hi
    · exact .inl hkept
    · exact .inr (.inl ⟨hs, hhalted⟩)

end Sys2Proof.Machine

/-! Hardware reset (O11, O12): what no unit holds after it (R285, R286; logs 5, 6, 20). -/

namespace Sys2Proof.Machine

/-- No memory and no unit holds a value: no table valid, no curve cell written, no ring allocated, and every held bit
of a compressor or section false (log 6). -/
def State.HoldsNoValue (s : State) : Prop :=
  (∀ l : TableId, (s.lut[l]).valid = false)
    ∧ (∀ (k : CurveId) (i : Nat), Mem.read .curve s.ws[k] i = none)
    ∧ ∀ c : Channel, (s.cb[c]).alloc = false
        ∧ ((s.cmp[c]).timesHeld = false ∧ (s.cmp[c]).curveHeld = false ∧ (s.cmp[c]).envHeld = false)
        ∧ ∀ j : Slot, (s.getBq c j).coefHeld = false ∧ (s.getBq c j).memHeld = false ∧ (s.getBq c j).kind = none

/-- Each unit of the state after reset is the reset unit of its kind. -/
theorem State.reset_holdsNoValue : State.reset.HoldsNoValue := by
  refine ⟨fun l => ?table, fun k i => ?curve, fun c => ⟨?ring, ?compressor, fun j => ?biquad⟩⟩
  case table => rw [State.reset_lut]; rfl
  case curve => rw [State.reset_ws, Mem.read_nil]; rfl
  case ring => rw [State.reset_cb]; rfl
  case compressor => rw [State.reset_cmp]; exact ⟨rfl, rfl, rfl⟩
  case biquad => rw [State.reset_getBq]; exact ⟨rfl, rfl, rfl⟩

@[simp] theorem hardwareReset_sys (s : State) : (hardwareReset s).sys = System.reset := rfl
@[simp] theorem hardwareReset_draws (s : State) : (hardwareReset s).draws = s.draws := rfl
@[simp] theorem hardwareReset_pending (s : State) : (hardwareReset s).pending = s.pending := rfl

/-- The event leaves the units of the reset state, whatever the block held before it. -/
theorem hardwareReset_holdsNoValue (s : State) : (hardwareReset s).HoldsNoValue := State.reset_holdsNoValue

/-- The event is taken from the queue and needs no block that accepts commands: a halted one is reset too (R269). -/
theorem step_of_hardwareReset {s : State} {es : List HostEvent} (hp : s.pending = .hardwareReset :: es) :
    step s = .next (hardwareReset (s.setPending es)) := by
  simp only [step, serveNext, hp]

/-- Settles O11: the event keeps the host's later events and the draws, its registers are those of `System.reset`, and
no unit holds a value. -/
theorem hardwareResetLeaves : Obligations.HardwareResetLeaves := by
  intro s es hp
  refine ⟨hardwareReset (s.setPending es), step_of_hardwareReset hp, hardwareReset_pending _,
    hardwareReset_draws _, ?_⟩
  rw [hardwareReset_sys]
  exact ⟨rfl, rfl, rfl, rfl, hardwareReset_holdsNoValue _⟩

/-- A block whose fault record has the code 0 accepts commands, as the one after reset does (R287). -/
theorem halted_reset : halted State.reset = false :=
  Bool.eq_false_iff.2 fun h => halted_iff.1 h rfl

/-- Settles O12: the registers are those of `System.reset`, and no unit holds a value. -/
theorem resetStateHolds : Obligations.ResetStateHolds := by
  obtain ⟨htables, hcurves, hunits⟩ := State.reset_holdsNoValue
  refine ⟨halted_reset, State.reset_pending, rfl, rfl, rfl, rfl, htables, hcurves, fun c => ?_⟩
  obtain ⟨hring, hcompressor, hsections⟩ := hunits c
  refine ⟨hring, hcompressor, fun j => ?_⟩
  obtain ⟨hcoef, hmem, -⟩ := hsections j
  exact ⟨hcoef, hmem⟩

end Sys2Proof.Machine
